-- ==== Sys2Proof/Word.lean ====
section
/-!
DEFINITION. The two data sizes of the engine (R8, 00_scope.md): a byte is 8 bits, a word is 32 bits, both unsigned.
BitVec's `+`, `-`, `*` and `^^^` on words are ADD32, SUB32, MUL32 and XOR32 of R120 (40_primitives.md): modulo 2^32.
-/

namespace Sys2Proof

/-- A 32-bit word (R8). -/
abbrev Word := BitVec 32

/-- An 8-bit byte (R8). -/
abbrev Byte := BitVec 8

end Sys2Proof
end

