-- ==== Sys2Proof/Config.lean ====
section
/-!
DEFINITION. What the spec leaves to the implementation: the open parameters of R7 (00_scope.md) and the one free value.
`Params` is the record the machine takes as an argument (State carries it, log entry 1); `Config.params` is the
implementation's own record, built from opaque constants so that no proof can know a value of it, with R7's
constraints true by construction (log entry 3).
-/

namespace Sys2Proof

/-- The open parameters of R7. -/
structure Params where
  /-- `R_MAX`: the largest round count the round-key memories hold. -/
  rMax : Nat
  /-- `M_MAX`: the size of the material buffer in bytes. -/
  mMax : Nat
  /-- `MAGIC[0..7]`: the container's magic tag. -/
  magic : Vector Byte 8
  /-- `VERSION_BYTE`: the container's version byte. -/
  version : Byte
  /-- `BASE`: the byte address at which the platform places the register window. -/
  base : Nat
deriving DecidableEq, Repr

/-- DESIGN CHOICE (log entry 3): R_MAX is this plus 1, so that `R_MAX >= 1`. -/
opaque Config.rMaxLessOne : Nat

/-- DESIGN CHOICE (log entry 3): M_MAX is 16 times one more than this, so a positive multiple of 16. -/
opaque Config.mMaxUnitsLessOne : Nat

/-- DESIGN CHOICE (log entry 3): `MAGIC[k]`, k = 0..6, is this plus 1, so in 0x01..0x7F. -/
opaque Config.magicLessOne : Fin 7 → Fin 127

/-- VERSION_BYTE (R7; D10: OPEN, default 0x01). -/
opaque Config.versionByte : Byte

/-- DESIGN CHOICE (log entry 3): BASE is 4 times this, so a multiple of 4. -/
opaque Config.baseWords : Nat

/-- The byte `MAGIC[k]` for k = 0..6. -/
def Config.magicByte (k : Fin 7) : Byte := BitVec.ofNat 8 ((Config.magicLessOne k).val + 1)

/-- The implementation's parameters (R7). -/
def Config.params : Params where
  rMax := Config.rMaxLessOne + 1
  mMax := 16 * (Config.mMaxUnitsLessOne + 1)
  magic := #v[Config.magicByte 0, Config.magicByte 1, Config.magicByte 2, Config.magicByte 3,
    Config.magicByte 4, Config.magicByte 5, Config.magicByte 6, 0]
  version := Config.versionByte
  base := 4 * Config.baseWords

/-- FREE VALUE (log entry 2): what round-key word `i` would read as while it has no value (R24, U5 "any value").
No reachable state reads one: every command that reads `S[b]` first requires `KVALID[b] = 1`. -/
opaque Config.unspecifiedKey : Nat → Word

end Sys2Proof
end

