-- ==== Sys2Proof/Syntax.lean ====
section
/-!
DEFINITION. The command set v1 as syntax: one constructor for each of the 22 rows of R91 (30_encoding.md) and of
spec/opcode_table.json. A constructor carries exactly the bits its row "uses": HEX as a Bool, BANK as a `BankId`.
-/

namespace Sys2Proof

/-- The two parameter banks (R21): the value of the command word's BANK bit. -/
inductive BankId where
  | b0
  | b1
deriving DecidableEq, Repr

/-- The commands of R91. A bit a row does not use has no field (R92: it must be 0). -/
inductive Instr where
  /-- NOP, 0x00 (R125). -/
  | nop
  /-- ROTL, 0x01 (R126). -/
  | rotl
  /-- ROTR, 0x02 (R127). -/
  | rotr
  /-- MCLR, 0x10 (R148). -/
  | mclr
  /-- GEN_SCHED, 0x11, HEX and BANK (R149). -/
  | genSched (hex : Bool) (b : BankId)
  /-- NONCE_DERIVE, 0x12, HEX and BANK (R150). -/
  | nonceDerive (hex : Bool) (b : BankId)
  /-- RC6_ENC, 0x20, BANK (R175). -/
  | rc6Enc (b : BankId)
  /-- RC6_DEC, 0x21, BANK (R176). -/
  | rc6Dec (b : BankId)
  /-- HYB_ENC, 0x30, BANK (R194). -/
  | hybEnc (b : BankId)
  /-- HYB_DEC, 0x31, BANK (R195). -/
  | hybDec (b : BankId)
  /-- CTR_INC, 0x32, BANK (R196). -/
  | ctrInc (b : BankId)
  /-- HDR_WRITE, 0x40, BANK (R211). -/
  | hdrWrite (b : BankId)
  /-- HDR_READ, 0x41, BANK (R212). -/
  | hdrRead (b : BankId)
  /-- PWC_VERIFY, 0x42, BANK (R214). -/
  | pwcVerify (b : BankId)
  /-- NAME_ENC, 0x43, BANK (R216). -/
  | nameEnc (b : BankId)
  /-- NAME_DEC, 0x44, BANK (R217). -/
  | nameDec (b : BankId)
  /-- READ_BLOCK, 0x50 (R251). -/
  | readBlock
  /-- TRIM_EMIT, 0x51 (R253). -/
  | trimEmit
  /-- ENC_STREAM, 0x52, BANK (R254). -/
  | encStream (b : BankId)
  /-- DEC_STREAM, 0x53, BANK (R255). -/
  | decStream (b : BankId)
  /-- REENC_STREAM, 0x54 (R256): bank 0 old, bank 1 new. -/
  | reencStream
  /-- SRESET, 0xFF (R342). -/
  | sreset
deriving DecidableEq, Repr

end Sys2Proof
end

