-- ==== Sys2Proof/Machine/State.lean ====
section
/-!
DEFINITION. The machine's state (R20 to R38, 10_state.md), the reset state (R38), and the reasons a step can stop.
The engine's own state is R20's table "and nothing else". R36 names four things that are "parameters of the step relation
of a model": the open parameters, what the source port will deliver, what the sink port will answer, the order of the host's
accesses. A step here is a function of the state alone, so those four stand in State as plain data (log entry 1).
-/

namespace Sys2Proof.Machine

/-- Four words: the source's `A, B, C, D`, a block (R26) or a counter (R23). Word 0 is `A`, the least significant word. -/
structure Block where
  w0 : Word
  w1 : Word
  w2 : Word
  w3 : Word
deriving DecidableEq, Repr

/-- `[0, 0, 0, 0]`. -/
def Block.zero : Block := ⟨0, 0, 0, 0⟩

/-- One parameter bank (R21). -/
structure Bank where
  /-- `ROUNDS[b]` (R22). -/
  rounds : Word
  /-- `CTR[b][0..3]` (R23). -/
  ctr : Block
  /-- `S[b]` (R24): the round-key words that have a value, from index 0. `[]` is "no value". -/
  keys : List Word
  /-- `KVALID[b]` (R25). -/
  kvalid : Bool
deriving DecidableEq, Repr

/-- A bank after reset (R38): `S[b]` has no value. -/
def Bank.reset : Bank := { rounds := 0, ctr := Block.zero, keys := [], kvalid := false }

/-- One byte of port traffic (R69, R70): what the port was asked and what it answered. -/
inductive PortEvent where
  /-- `SrcRead()` answered with a byte. -/
  | read (v : Byte)
  /-- `SrcRead()` answered `FAIL`. -/
  | readFail
  /-- `SnkWrite(v)` answered `OK`: the sink has the byte. -/
  | write (v : Byte)
  /-- `SnkWrite(v)` answered `FAIL`. -/
  | writeFail (v : Byte)
deriving DecidableEq, Repr

/-- The two byte ports (R69, R70): the answers still to come, and the record of the traffic so far. -/
structure Ports where
  /-- What the source port will answer, in order: `some v` a byte, `none` a `FAIL`. When it is used up: `FAIL` (R347). -/
  src : List (Option Byte)
  /-- What the sink port will answer, in order: `true` is `OK`. When it is used up: `OK` (log entry 5). -/
  snk : List Bool
  /-- The traffic so far, oldest first. No engine operation reads it (R36; log entry 6). -/
  trace : List PortEvent
deriving DecidableEq, Repr

/-- What the host does to the engine between two steps, or during one. -/
inductive HostEvent where
  /-- `MemRead(BASE + off, n)` (R78). -/
  | read (off n : Nat)
  /-- `MemWrite(BASE + off, n, v)` (R78). -/
  | write (off n : Nat) (v : Word)
  /-- The hardware reset input, between two accesses (R340, R341). -/
  | reset
  /-- The host writes `c` to `CMD` and a hardware reset arrives when `k` of the command's port operations have happened
  (R341, U15). -/
  | resetDuring (c : Word) (k : Nat)
  /-- The host binds the source port to another input (R283). -/
  | bindSource (answers : List (Option Byte))
  /-- The host binds the sink port to another output (R283). -/
  | bindSink (answers : List Bool)
deriving DecidableEq, Repr

/-- The causes of R301 (60_exceptions.md). -/
inductive Cause where
  /-- `E_FMT_MAGIC`. -/
  | fmtMagic
  /-- `E_FMT_VERSION`. -/
  | fmtVersion
  /-- `E_FMT_ROUNDS`. -/
  | fmtRounds
  /-- `E_FMT_PAD`. -/
  | fmtPad
  /-- `E_AUTH`. -/
  | auth
  /-- `E_IO_READ`. -/
  | ioRead
  /-- `E_IO_WRITE`. -/
  | ioWrite
  /-- `E_INPUT_HEX`. -/
  | inputHex
  /-- `E_INPUT_ROUNDS`. -/
  | inputRounds
  /-- `E_ILLEGAL_CMD`. -/
  | illegalCmd
  /-- `E_NOKEY`. -/
  | noKey
  /-- `E_MBUF_OVERFLOW`. -/
  | mbufOverflow
  /-- `E_ROUNDS_UNSUPPORTED`. -/
  | roundsUnsupported
deriving DecidableEq, Repr

/-- The machine's state. -/
structure State where
  /-- Bank 0 (R21). -/
  bank0 : Bank
  /-- Bank 1 (R21). -/
  bank1 : Bank
  /-- `BLK[0..3]` (R26). -/
  blk : Block
  /-- `MBUF` (R27): the bytes that are not 0, in canonical form (`Memory.wf`); an unlisted index reads 0 (R38). -/
  mbuf : List Host.Cell
  /-- `MLEN` (R27). -/
  mlen : Word
  /-- `FINAL` (R30). -/
  final : Bool
  /-- `FAULT` (R29). -/
  fault : Bool
  /-- `CAUSE` (R29, R33). -/
  cause : Word
  /-- R7's open parameters; no step changes them (R36; log entry 1). -/
  params : Params
  /-- The two ports (R36, R69, R70; log entry 1). -/
  ports : Ports
  /-- What the host will do, in order (R36, R72; log entries 1, 7). -/
  host : List HostEvent
  /-- What the host's last register read returned (R78; log entry 8). -/
  rdata : Option Word
deriving DecidableEq, Repr

/-- Why a step could stop the model with a fault: for nothing. Every fault of the spec (R300) is the engine's own latched
state, which the host reads and leaves by SRESET or reset (R303 to R305), so it is a next state; nobody raises a `Fault`. -/
inductive Fault where
deriving DecidableEq, Repr

/-- Why a step gives no step. -/
inductive Refusal where
  /-- An instruction without a meaning; raised by `exec`'s refused arms only, of which there are none. Safe: no next state. -/
  | notModelled (mnemonic : String)
  /-- R63: a window access that is not 32 bits wide or not 4-byte aligned, raised by `hostRead` and `hostWrite`. The spec
  asks for it: "A model gives such an access no step (refusal)". Safe: no next state. -/
  | notAligned32
  /-- R64: an aligned 32-bit access to a reserved offset or beyond the window's end, raised by `hostRead` and `hostWrite`.
  "refused exactly as in rule R63". Safe: no next state. -/
  | reservedOffset
  /-- An access below `BASE`, raised by `memRead` and `memWrite`: it is no access to the window. Safe: no next state. -/
  | belowWindow
deriving DecidableEq, Repr

/-- The machine right after reset (R38, R341): every register 0, no schedule, nothing in the material buffer, and an
environment of which nothing is known: parameters opaque, no input, no host action yet (log entries 3 to 8). -/
def State.reset : State where
  bank0 := Bank.reset
  bank1 := Bank.reset
  blk := Block.zero
  mbuf := []
  mlen := 0
  final := false
  fault := false
  cause := 0
  params := Config.params
  ports := { src := [], snk := [], trace := [] }
  host := []
  rdata := none

end Sys2Proof.Machine
end

