-- ==== Sys2Proof/Machine/Operands.lean ====
section
/-!
DEFINITION. The operand forms: rotations and Quad (40_primitives.md), words from bytes and back, key material, the written and
read forms of a round count (30_encoding.md), padding and trimming (R252, 45_streaming.md).
-/

namespace Sys2Proof.Machine

/-- `ROTL32(x, n)` (R121). -/
def rotl32 (x : Word) (n : Nat) : Word :=
  let s := n % 32
  if s = 0 then x else (x <<< s) ||| (x >>> (32 - s))

/-- `ROTR32(x, n)` (R122). -/
def rotr32 (x : Word) (n : Nat) : Word :=
  let s := n % 32
  if s = 0 then x else (x >>> s) ||| (x <<< (32 - s))

/-- `Quad(x)` (R124): `rotl(x·(2x+1), 5)`. -/
def quad (x : Word) : Word := rotl32 (x * (2 * x + 1)) 5

/-- The word-wise exclusive or of two blocks (R191). -/
def xorBlock (x y : Block) : Block := ⟨x.w0 ^^^ y.w0, x.w1 ^^^ y.w1, x.w2 ^^^ y.w2, x.w3 ^^^ y.w3⟩

/-- A word from four bytes, the first in bits 7:0 (R61, R95). -/
def wordOfBytes (p0 p1 p2 p3 : Byte) : Word :=
  p0.setWidth 32 ||| p1.setWidth 32 <<< 8 ||| p2.setWidth 32 <<< 16 ||| p3.setWidth 32 <<< 24

/-- Byte `m` of a word: bits `8m+7 : 8m` (R95). -/
def byteOfWord (w : Word) (m : Nat) : Byte := w.extractLsb' (8 * m) 8

/-- The four bytes of a word, lowest first (R95). -/
def bytesOfWord (w : Word) : List Byte := [byteOfWord w 0, byteOfWord w 1, byteOfWord w 2, byteOfWord w 3]

/-- Word `k` of a byte sequence: bytes `4k..4k+3` little-endian, a byte beyond the end counting as 0 (R95, R97). -/
def wordAt (p : List Byte) (k : Nat) : Word :=
  wordOfBytes (p.getD (4 * k) 0) (p.getD (4 * k + 1) 0) (p.getD (4 * k + 2) 0) (p.getD (4 * k + 3) 0)

/-- `WordsOfBytes(p[0..15])` (R95). Fewer than 16 bytes stand for their zero-filled block, the form in which
`TryReadBlock` returns a short read (R250). -/
def blockOfBytes (p : List Byte) : Block := ⟨wordAt p 0, wordAt p 1, wordAt p 2, wordAt p 3⟩

/-- `BytesOfWords(w[0..3])` (R95). -/
def bytesOfBlock (x : Block) : List Byte :=
  bytesOfWord x.w0 ++ bytesOfWord x.w1 ++ bytesOfWord x.w2 ++ bytesOfWord x.w3

/-- `HexVal` of a hexadecimal digit of either case, nothing for another byte (R98). -/
def hexVal (v : Byte) : Option Nat :=
  let n := v.toNat
  if 0x30 ≤ n ∧ n ≤ 0x39 then some (n - 0x30)
  else if 0x61 ≤ n ∧ n ≤ 0x66 then some (n - 0x61 + 10)
  else if 0x41 ≤ n ∧ n ≤ 0x46 then some (n - 0x41 + 10)
  else none

/-- The values of a text that is hexadecimal digits throughout, nothing otherwise (R98). -/
def hexDigits : List Byte → Option (List Nat)
  | [] => some []
  | v :: rest =>
    match hexVal v, hexDigits rest with
    | some d, some ds => some (d :: ds)
    | _, _ => none

/-- Two digits a byte, the first the high nibble; a lone last digit is the high nibble of a last byte (R98). -/
def packHex : List Nat → List Byte
  | [] => []
  | [d] => [BitVec.ofNat 8 (d * 16)]
  | d :: e :: rest => BitVec.ofNat 8 (d * 16 + e) :: packHex rest

/-- `KeyBytes(m, hex)` (R141); nothing where it raises `E_INPUT_HEX`. -/
def keyBytes (m : List Byte) (hex : Bool) : Option (List Byte) :=
  if hex then (hexDigits m).map packHex else some m

/-- `KeyWords(key)` (R142): `ceil(n/4)` words, and one zero word for no bytes. -/
def keyWords (key : List Byte) : List Word :=
  let c := (key.length + 3) / 4
  if c = 0 then [0] else (List.range c).map (wordAt key)

/-- The digit `d < 16` written in ASCII, lower case (R99). -/
def hexChar (d : Nat) : Byte := BitVec.ofNat 8 (if d < 10 then 0x30 + d else 0x61 + (d - 10))

/-- The digits of `n < 16^fuel`, most significant first, none for 0. -/
def hexCharsOf : Nat → Nat → List Byte
  | 0, _ => []
  | fuel + 1, n => if n = 0 then [] else hexCharsOf fuel (n / 16) ++ [hexChar (n % 16)]

/-- `HexDigitsOf(n)` of a 32-bit round count `n >= 1` (R99): the shortest digit sequence, lower case. -/
def hexDigitsOf (n : Word) : List Byte := hexCharsOf 8 n.toNat

/-- `MARK` (R6). -/
def mark : Byte := 0x80

/-- `PadBlock(p, k)` (R252) of the `k < 16` bytes that arrived: they, the marker, zeros to the end of the block. -/
def padBlock (p : List Byte) : List Byte := p ++ mark :: List.replicate (15 - p.length) 0

/-- `Trim(d)` (R252): what stands before the last nonzero byte; nothing where it raises `E_FMT_PAD`. -/
def trim (d : List Byte) : Option (List Byte) :=
  match d.reverse.dropWhile (· == 0) with
  | [] => none
  | _ :: rest => some rest.reverse

/-- The `m`-th block's bytes of the infinite sequence "the name, then zeros" (R102, R216). -/
def nameBlock (name : List Byte) (k : Nat) : List Byte := (List.range 16).map fun m => name.getD (16 * k + m) 0

end Sys2Proof.Machine
end

