-- ==== Sys2Proof/Machine/Cipher.lean ====
section
/-!
DEFINITION. The cipher as pure functions: the key schedule (R140 to R146, 41_key_schedule.md), the block transform (R170 to
R172, 42_block_transform.md), the counter step (R190, 43_hybrid_mode.md).
-/

namespace Sys2Proof.Machine

/-- `P32` (R6): the key schedule's seed `S[0]`. -/
def p32 : Word := 0xB7E15163

/-- `Q32` (R6): the key schedule's seed increment. -/
def q32 : Word := 0x9E3779B9

/-- `n` seed words from `x` on, each the one before plus `Q32` (R143). -/
def seedFrom (x : Word) : Nat → List Word
  | 0 => []
  | n + 1 => x :: seedFrom (x + q32) n

/-- `Seed(t)` (R143). -/
def seed (t : Nat) : List Word := seedFrom p32 t

/-- What one mixing iteration works on (R144): locals of the command, no state (R28). -/
structure Mixing where
  sch : List Word
  key : List Word
  ka : Word
  kb : Word
  i : Nat
  j : Nat
deriving DecidableEq, Repr

/-- One mixing iteration (R144). -/
def mixStep (t c : Nat) (x : Mixing) : Mixing :=
  let ka := rotl32 (x.sch.getD x.i 0 + x.ka + x.kb) 3
  let kb := rotl32 (x.key.getD x.j 0 + ka + x.kb) (ka + x.kb).toNat
  { sch := x.sch.set x.i ka, key := x.key.set x.j kb, ka := ka, kb := kb,
    i := (x.i + 1) % t, j := (x.j + 1) % c }

/-- `v` mixing iterations. -/
def mixLoop (t c : Nat) : Nat → Mixing → Mixing
  | 0, x => x
  | v + 1, x => mixLoop t c v (mixStep t c x)

/-- `Mix(S, L)` (R144): `3 * max(c, t)` iterations from `ka = kb = i = j = 0`. -/
def mix (s l : List Word) : List Word :=
  (mixLoop s.length l.length (3 * max l.length s.length)
    { sch := s, key := l, ka := 0, kb := 0, i := 0, j := 0 }).sch

/-- `t(r)` (R6). -/
def scheduleLength (r : Nat) : Nat := 2 * r + 4

/-- `GenSched(m, r, hex)` (R145); nothing where it raises `E_INPUT_HEX`. -/
def genSched (m : List Byte) (r : Nat) (hex : Bool) : Option (List Word) :=
  (keyBytes m hex).map fun key => mix (seed (scheduleLength r)) (keyWords key)

/-- Round-key word `i`: its value, or the free value where it has none (R24, U5). -/
def keyAt (keys : List Word) (i : Nat) : Word := keys.getD i (Config.unspecifiedKey i)

/-- Round `i` of encryption (R171), the simultaneous name rotation included. -/
def encRound (s : Nat → Word) (i : Nat) (x : Block) : Block :=
  let t := quad x.w1
  let u := quad x.w3
  let a := rotl32 (x.w0 ^^^ t) u.toNat + s (2 * i)
  let c := rotl32 (x.w2 ^^^ u) t.toNat + s (2 * i + 1)
  ⟨x.w1, c, x.w3, a⟩

/-- Rounds 1 to `r` of encryption, in that order (R171). -/
def encRounds (s : Nat → Word) : Nat → Block → Block
  | 0, x => x
  | r + 1, x => encRound s (r + 1) (encRounds s r x)

/-- `Rc6Enc(blk, r, S)` (R171). -/
def rc6Enc (s : Nat → Word) (r : Nat) (x : Block) : Block :=
  let y := encRounds s r ⟨x.w0, x.w1 + s 0, x.w2, x.w3 + s 1⟩
  ⟨y.w0 + s (2 * r + 2), y.w1, y.w2 + s (2 * r + 3), y.w3⟩

/-- Round `i` of decryption (R172): the name rotation undone first. -/
def decRound (s : Nat → Word) (i : Nat) (x : Block) : Block :=
  let y : Block := ⟨x.w3, x.w0, x.w1, x.w2⟩
  let u := quad y.w3
  let t := quad y.w1
  let c := rotr32 (y.w2 - s (2 * i + 1)) t.toNat ^^^ u
  let a := rotr32 (y.w0 - s (2 * i)) u.toNat ^^^ t
  ⟨a, y.w1, c, y.w3⟩

/-- Rounds `r` down to 1 of decryption (R172). -/
def decRounds (s : Nat → Word) : Nat → Block → Block
  | 0, x => x
  | r + 1, x => decRounds s r (decRound s (r + 1) x)

/-- `Rc6Dec(blk, r, S)` (R172). -/
def rc6Dec (s : Nat → Word) (r : Nat) (x : Block) : Block :=
  let y := decRounds s r ⟨x.w0 - s (2 * r + 2), x.w1, x.w2 - s (2 * r + 3), x.w3⟩
  ⟨y.w0, y.w1 - s 0, y.w2, y.w3 - s 1⟩

/-- `CtrInc(c)` (R190): the carry goes from word to word while a word wraps to 0; out of word 3 it is dropped. -/
def ctrInc (c : Block) : Block :=
  let a := c.w0 + 1
  if a ≠ 0 then { c with w0 := a }
  else
    let b := c.w1 + 1
    if b ≠ 0 then { c with w0 := a, w1 := b }
    else
      let d := c.w2 + 1
      if d ≠ 0 then { c with w0 := a, w1 := b, w2 := d }
      else ⟨a, b, d, c.w3 + 1⟩

end Sys2Proof.Machine
end

