-- ==== Sys2Proof/WellFormed.lean ====
section
/-!
DEFINITION. The static checks. A command word is well formed when it matches a row of R92 (30_encoding.md); the four ways
it can fail (R93) are four checks here. A parameter record is well formed when it meets the constraints of R7 (00_scope.md).
A term of `Instr` needs no check: it has a field exactly for each bit its row uses, and each field's type holds exactly
the values of that bit.
-/

namespace Sys2Proof

/-- The operation codes of R91. -/
def operationCodes : List (BitVec 8) :=
  [0x00, 0x01, 0x02, 0x10, 0x11, 0x12, 0x20, 0x21, 0x30, 0x31, 0x32, 0x40, 0x41, 0x42, 0x43, 0x44,
   0x50, 0x51, 0x52, 0x53, 0x54, 0xFF]

/-- The operation codes of the rows that use HEX (R91). -/
def hexCodes : List (BitVec 8) := [0x11, 0x12]

/-- The operation codes of the rows that use BANK (R91). -/
def bankCodes : List (BitVec 8) :=
  [0x11, 0x12, 0x20, 0x21, 0x30, 0x31, 0x32, 0x40, 0x41, 0x42, 0x43, 0x44, 0x52, 0x53]

/-- Bits 31:10 are 0 (R90). -/
def CommandWord.reservedClear (w : Word) : Bool := w.extractLsb' 10 22 == 0

/-- Bits 7:0 are an operation code of R91. -/
def CommandWord.opListed (w : Word) : Bool := operationCodes.contains (w.extractLsb' 0 8)

/-- Bit 8 is 0 unless the row uses HEX (R92). -/
def CommandWord.hexAllowed (w : Word) : Bool := !w.getLsbD 8 || hexCodes.contains (w.extractLsb' 0 8)

/-- Bit 9 is 0 unless the row uses BANK (R92). -/
def CommandWord.bankAllowed (w : Word) : Bool := !w.getLsbD 9 || bankCodes.contains (w.extractLsb' 0 8)

/-- The word names a command of R91 (R92). -/
def CommandWord.wellFormed (w : Word) : Bool :=
  CommandWord.reservedClear w && CommandWord.opListed w && CommandWord.hexAllowed w && CommandWord.bankAllowed w

/-- `R_MAX >= 1` (R7). -/
def Params.rMaxOk (p : Params) : Bool := 1 ≤ p.rMax

/-- `M_MAX` is a multiple of 16 and at least 16 (R7). -/
def Params.mMaxOk (p : Params) : Bool := p.mMax % 16 == 0 && decide (16 ≤ p.mMax)

/-- `MAGIC[7] = 0x00` and `MAGIC[0..6]` each in 0x01..0x7F (R7). -/
def Params.magicOk (p : Params) : Bool :=
  p.magic[7] == 0 && (p.magic.toList.take 7).all fun m => decide (0x01 ≤ m.toNat) && decide (m.toNat ≤ 0x7F)

/-- `BASE` is a multiple of 4 (R7). -/
def Params.baseOk (p : Params) : Bool := p.base % 4 == 0

/-- The constraints of R7. -/
def Params.wellFormed (p : Params) : Bool :=
  Params.rMaxOk p && Params.mMaxOk p && Params.magicOk p && Params.baseOk p

end Sys2Proof
end

