-- ==== Sys2Proof/Decode.lean ====
section
/-!
DEFINITION. Decoding a command word (R90 to R94 and the "find the row" of R107, 30_encoding.md): total on every word, each
illegal word rejected by the name of the reason R93 gives. After it the encoder, written from R91's columns, and
`decodeTableWord`, the decoder as the opcode table numbers its bits.
-/

namespace Sys2Proof

/-- Why a word names no command (R93's four reasons). -/
inductive DecodeError where
  /-- A nonzero reserved bit, 31:10. -/
  | reservedBit
  /-- An `OP` value not in R91. -/
  | unlistedOp
  /-- `HEX = 1` on a command that does not use it. -/
  | hexNotUsed
  /-- `BANK = 1` on a command that does not use it. -/
  | bankNotUsed
deriving DecidableEq, Repr

/-- The bank that a BANK bit names (R90). -/
def BankId.ofBit : Bool → BankId
  | false => .b0
  | true => .b1

/-- The BANK bit of a bank (R90). -/
def BankId.toBit : BankId → Bool
  | .b0 => false
  | .b1 => true

/-- A row that uses neither bit: both must be 0 (R92). -/
def decodePlain (hex bank : Bool) (i : Instr) : Except DecodeError Instr :=
  if hex then .error .hexNotUsed else if bank then .error .bankNotUsed else .ok i

/-- A row that uses BANK only: HEX must be 0 (R92). -/
def decodeBanked (hex bank : Bool) (i : BankId → Instr) : Except DecodeError Instr :=
  if hex then .error .hexNotUsed else .ok (i (BankId.ofBit bank))

/-- A row that uses HEX and BANK (R92). -/
def decodeKeyed (hex bank : Bool) (i : Bool → BankId → Instr) : Except DecodeError Instr :=
  .ok (i hex (BankId.ofBit bank))

/-- The command that the word names, by R91 and R92; otherwise the reason it names none (R93). -/
def decode (w : Word) : Except DecodeError Instr :=
  let hex := w.getLsbD 8
  let bank := w.getLsbD 9
  if w.extractLsb' 10 22 ≠ 0 then .error .reservedBit
  else match (w.extractLsb' 0 8).toNat with
    | 0x00 => decodePlain hex bank .nop
    | 0x01 => decodePlain hex bank .rotl
    | 0x02 => decodePlain hex bank .rotr
    | 0x10 => decodePlain hex bank .mclr
    | 0x11 => decodeKeyed hex bank .genSched
    | 0x12 => decodeKeyed hex bank .nonceDerive
    | 0x20 => decodeBanked hex bank .rc6Enc
    | 0x21 => decodeBanked hex bank .rc6Dec
    | 0x30 => decodeBanked hex bank .hybEnc
    | 0x31 => decodeBanked hex bank .hybDec
    | 0x32 => decodeBanked hex bank .ctrInc
    | 0x40 => decodeBanked hex bank .hdrWrite
    | 0x41 => decodeBanked hex bank .hdrRead
    | 0x42 => decodeBanked hex bank .pwcVerify
    | 0x43 => decodeBanked hex bank .nameEnc
    | 0x44 => decodeBanked hex bank .nameDec
    | 0x50 => decodePlain hex bank .readBlock
    | 0x51 => decodePlain hex bank .trimEmit
    | 0x52 => decodeBanked hex bank .encStream
    | 0x53 => decodeBanked hex bank .decStream
    | 0x54 => decodePlain hex bank .reencStream
    | 0xFF => decodePlain hex bank .sreset
    | _ => .error .unlistedOp

/-- The row's `OP` (R91, first column). -/
def opOf : Instr → BitVec 8
  | .nop => 0x00
  | .rotl => 0x01
  | .rotr => 0x02
  | .mclr => 0x10
  | .genSched _ _ => 0x11
  | .nonceDerive _ _ => 0x12
  | .rc6Enc _ => 0x20
  | .rc6Dec _ => 0x21
  | .hybEnc _ => 0x30
  | .hybDec _ => 0x31
  | .ctrInc _ => 0x32
  | .hdrWrite _ => 0x40
  | .hdrRead _ => 0x41
  | .pwcVerify _ => 0x42
  | .nameEnc _ => 0x43
  | .nameDec _ => 0x44
  | .readBlock => 0x50
  | .trimEmit => 0x51
  | .encStream _ => 0x52
  | .decStream _ => 0x53
  | .reencStream => 0x54
  | .sreset => 0xFF

/-- The HEX bit of the instruction's word: 0 where the row does not use it (R92). -/
def hexOf : Instr → Bool
  | .genSched hex _ => hex
  | .nonceDerive hex _ => hex
  | .nop | .rotl | .rotr | .mclr | .rc6Enc _ | .rc6Dec _ | .hybEnc _ | .hybDec _ | .ctrInc _
  | .hdrWrite _ | .hdrRead _ | .pwcVerify _ | .nameEnc _ | .nameDec _ | .readBlock | .trimEmit
  | .encStream _ | .decStream _ | .reencStream | .sreset => false

/-- The BANK bit of the instruction's word: 0 where the row does not use it (R92). -/
def bankOf : Instr → Bool
  | .genSched _ b | .nonceDerive _ b | .rc6Enc b | .rc6Dec b | .hybEnc b | .hybDec b | .ctrInc b
  | .hdrWrite b | .hdrRead b | .pwcVerify b | .nameEnc b | .nameDec b | .encStream b | .decStream b => b.toBit
  | .nop | .rotl | .rotr | .mclr | .readBlock | .trimEmit | .reencStream | .sreset => false

/-- A command word from its fields (R90): `OP | HEX << 8 | BANK << 9`, bits 31:10 zero. -/
def commandWord (op : BitVec 8) (hex bank : Bool) : Word :=
  op.setWidth 32 ||| (BitVec.ofBool hex).setWidth 32 <<< 8 ||| (BitVec.ofBool bank).setWidth 32 <<< 9

/-- The word that names the instruction (R90, R91, R104). -/
def encode (i : Instr) : Word := commandWord (opOf i) (hexOf i) (bankOf i)

/-- The mask of the instruction's row: the bits of a word that the row fixes (R92). -/
def rowMask : Instr → Word
  | .genSched _ _ | .nonceDerive _ _ => 0xFFFFFCFF
  | .rc6Enc _ | .rc6Dec _ | .hybEnc _ | .hybDec _ | .ctrInc _ | .hdrWrite _ | .hdrRead _ | .pwcVerify _
  | .nameEnc _ | .nameDec _ | .encStream _ | .decStream _ => 0xFFFFFDFF
  | .nop | .rotl | .rotr | .mclr | .readBlock | .trimEmit | .reencStream | .sreset => 0xFFFFFFFF

/-- The value of those bits in the instruction's row: its `OP`, zero-extended (R92). -/
def rowMatch (i : Instr) : Word := (opOf i).setWidth 32

/-- The decoder on a row of spec/opcode_table.json: bit 0 is the least significant bit of the one command word.
A command is one 32-bit word (R90); a number that needs more bits is no command word. -/
def decodeTableWord (nbits w : Nat) : Option Instr :=
  if nbits ≤ 32 ∧ w < 2 ^ 32 then
    match decode (BitVec.ofNat 32 w) with
    | .ok i => some i
    | .error _ => none
  else none

end Sys2Proof
end

