-- ==== Sys2Proof/Machine/Flags.lean ====
section
/-!
DEFINITION. The flag-like bits: the engine has no condition flags (R348); it has FAULT, FINAL, KVALID0 and KVALID1, read
through STATUS (R32, 10_state.md), and CAUSE (R33), whose codes are R301's (60_exceptions.md).
-/

namespace Sys2Proof.Machine

/-- `CAUSE.CODE` (R301). -/
def causeCode : Cause → BitVec 8
  | .fmtMagic => 0x11
  | .fmtVersion => 0x12
  | .fmtRounds => 0x13
  | .fmtPad => 0x14
  | .auth => 0x21
  | .ioRead => 0x31
  | .ioWrite => 0x32
  | .inputHex => 0x41
  | .inputRounds => 0x42
  | .illegalCmd => 0x51
  | .noKey => 0x52
  | .mbufOverflow => 0x53
  | .roundsUnsupported => 0x54

/-- `code | c[7:0] << 8 | c[9] << 16 | c[8] << 17` (R303): CODE, FOP, FBANK, FHEX. -/
def causeWord (e : Cause) (c : Word) : Word :=
  (causeCode e).setWidth 32 ||| (c.extractLsb' 0 8).setWidth 32 <<< 8
    ||| (c.extractLsb' 9 1).setWidth 32 <<< 16 ||| (c.extractLsb' 8 1).setWidth 32 <<< 17

/-- A flag as a word. -/
def bitWord (x : Bool) : Word := (BitVec.ofBool x).setWidth 32

/-- What a read of STATUS returns (R32, R78): `FAULT | FINAL<<1 | KVALID[0]<<2 | KVALID[1]<<3`. -/
def statusWord (s : State) : Word :=
  bitWord s.fault ||| bitWord s.final <<< 1 ||| bitWord s.bank0.kvalid <<< 2 ||| bitWord s.bank1.kvalid <<< 3

end Sys2Proof.Machine
end

