-- ==== Sys2Proof/Machine/Ops.lean ====
section
/-!
DEFINITION. The named operations over the state that every command is written with: the banks, the material buffer, the two
ports, the hybrid mode on the block register, entering the fault state (R303) and leaving it (R342).
-/

namespace Sys2Proof.Machine

/-! ### The parameter banks (R21) -/

/-- Bank `b`. -/
def State.bank (s : State) : BankId → Bank
  | .b0 => s.bank0
  | .b1 => s.bank1

/-- Bank `b` becomes `k`; the other bank is untouched. -/
def State.setBank (s : State) (b : BankId) (k : Bank) : State :=
  match b with
  | .b0 => { s with bank0 := k }
  | .b1 => { s with bank1 := k }

/-- `BLK[0..3] <- x`. -/
def State.setBlk (s : State) (x : Block) : State := { s with blk := x }

/-- The ports become `p`. -/
def State.setPorts (s : State) (p : Ports) : State := { s with ports := p }

/-- `KVALID[b] <- 0`, after which `S[b]` has no value (R24, R25; log entry 2). -/
def Bank.invalidate (k : Bank) : Bank := { k with keys := [], kvalid := false }

/-- `KVALID[b] <- 0` on bank `b`. -/
def State.invalidate (s : State) (b : BankId) : State := s.setBank b (s.bank b).invalidate

/-- `Rc6Enc` under the bank's round count and schedule. -/
def Bank.enc (k : Bank) (x : Block) : Block := rc6Enc (keyAt k.keys) k.rounds.toNat x

/-- `Rc6Dec` under the bank's round count and schedule. -/
def Bank.dec (k : Bank) (x : Block) : Block := rc6Dec (keyAt k.keys) k.rounds.toNat x

/-! ### The material buffer (R27) -/

/-- The byte at `a`; an unlisted index reads 0, the reset value (R38). -/
def Memory.read : List Host.Cell → Nat → Byte
  | [], _ => 0
  | (x, u) :: rest, a => if a = x then u else Memory.read rest a

/-- The byte at `a` becomes `v`; the canonical form is kept (writing 0 removes the entry). -/
def Memory.write : List Host.Cell → Nat → Byte → List Host.Cell
  | [], a, v => if v = 0 then [] else [(a, v)]
  | (x, u) :: rest, a, v =>
    if a < x then (if v = 0 then (x, u) :: rest else (a, v) :: (x, u) :: rest)
    else if a = x then (if v = 0 then rest else (a, v) :: rest)
    else (x, u) :: Memory.write rest a v

/-- The bytes from `a` on become `vs`, in order. -/
def Memory.writeBytes : List Host.Cell → Nat → List Byte → List Host.Cell
  | m, _, [] => m
  | m, a, v :: vs => Memory.writeBytes (Memory.write m a v) (a + 1) vs

/-- Every listed index is at least `lo`, the indices rise strictly, no listed byte is 0. -/
def Memory.wfFrom : Nat → List Host.Cell → Bool
  | _, [] => true
  | lo, (x, u) :: rest => decide (lo ≤ x) && decide (u ≠ 0) && Memory.wfFrom (x + 1) rest

/-- The canonical form: addresses strictly rising, no entry equal to what an unlisted address reads as. -/
def Memory.wf (m : List Host.Cell) : Bool := Memory.wfFrom 0 m

/-- Every listed index is below `M_MAX`. -/
def Memory.within (mMax : Nat) (m : List Host.Cell) : Bool := m.all fun c => decide (c.1 < mMax)

/-- `MBUF[0..MLEN-1]` (R27). -/
def State.material (s : State) : List Byte := (List.range s.mlen.toNat).map (Memory.read s.mbuf)

/-- `for k in 0..M_MAX-1: MBUF[k] <- 0 ; MLEN <- 0` (R148). -/
def State.clearMaterial (s : State) : State := { s with mbuf := [], mlen := 0 }

/-! ### Command bodies

A body is followed from the top until it ends or raises (R303, R306); what it changed before a `raise` stays (R307). -/

/-- How a command body, or a part of one, ends. -/
inductive Run (α : Type) where
  /-- It ended with the value `a` in the state `s`. -/
  | ok (a : α) (s : State)
  /-- It reached `raise e` in the state `s`; nothing after the `raise` is performed (R10). -/
  | raised (e : Cause) (s : State)
deriving DecidableEq, Repr

/-- What follows a part of a body: performed unless the part raised. -/
def Run.bind {α β : Type} (r : Run α) (f : α → State → Run β) : Run β :=
  match r with
  | .ok a s => f a s
  | .raised e s => .raised e s

/-- `require c else e` (R10). -/
def require (c : Bool) (e : Cause) (s : State) : Run Unit := if c then .ok () s else .raised e s

/-- Entering the fault state (R303), with `c` the command word that raised. -/
def faultEntry (e : Cause) (c : Word) (s : State) : State :=
  { s with
    fault := true
    cause := causeWord e c
    mbuf := []
    mlen := 0
    blk := Block.zero
    bank0 := s.bank0.invalidate
    bank1 := s.bank1.invalidate
    final := false }

/-- Leaving it: everything of R20 to R38's reset value (R305, R341, R342). The ports and the host are no engine state. -/
def resetEngine (s : State) : State :=
  { s with
    bank0 := Bank.reset
    bank1 := Bank.reset
    blk := Block.zero
    mbuf := []
    mlen := 0
    final := false
    fault := false
    cause := 0 }

/-- The step a command's body makes: its last state, or the fault entry at its `raise` (R303). The command word is the one
that names `i` (R92: exactly one word does). -/
def complete (i : Instr) (r : Run Unit) : Host.Outcome State Fault Refusal :=
  match r with
  | .ok _ s => .next s
  | .raised e s => .next (faultEntry e (encode i) s)

/-- `require KVALID[b] = 1 else E_NOKEY` (R25). -/
def requireKey (b : BankId) (s : State) : Run Unit := require (s.bank b).kvalid .noKey s

/-- `require MLEN <= M_MAX else E_MBUF_OVERFLOW` (R27). -/
def checkMlen (s : State) : Run Unit := require (decide (s.mlen.toNat ≤ s.params.mMax)) .mbufOverflow s

/-! ### The ports (R69, R70) -/

/-- A port event happened: it is the trace's newest. -/
def Ports.record (p : Ports) (e : PortEvent) : Ports := { p with trace := p.trace ++ [e] }

/-- The byte that a port event put into the sink, if it did. -/
def acceptedByte : PortEvent → Option Byte
  | .write v => some v
  | .read _ | .readFail | .writeFail _ => none

/-- The bytes the sink has accepted, in order (R72 d). -/
def Ports.output (p : Ports) : List Byte := p.trace.filterMap acceptedByte

/-- `SrcRead()` (R69): the next answer, a byte or `FAIL` (`none`); a source that is used up answers `FAIL`. -/
def srcRead (s : State) : Option Byte × State :=
  match s.ports.src with
  | [] => (none, s.setPorts (s.ports.record .readFail))
  | none :: rest => (none, s.setPorts ({ s.ports with src := rest }.record .readFail))
  | some v :: rest => (some v, s.setPorts ({ s.ports with src := rest }.record (.read v)))

/-- `SnkWrite(v)` (R70): `true` is `OK`. A sink whose listed answers are used up answers `OK` (log entry 5). -/
def snkWrite (v : Byte) (s : State) : Bool × State :=
  match s.ports.snk with
  | [] => (true, s.setPorts (s.ports.record (.write v)))
  | true :: rest => (true, s.setPorts ({ s.ports with snk := rest }.record (.write v)))
  | false :: rest => (false, s.setPorts ({ s.ports with snk := rest }.record (.writeFail v)))

/-- `SrcByte()` (R10): a read where the end of the input is an error. -/
def srcByte (s : State) : Run Byte :=
  match srcRead s with
  | (some v, t) => .ok v t
  | (none, t) => .raised .ioRead t

/-- `n` times `SrcByte()`, in order. -/
def srcBytes : Nat → State → Run (List Byte)
  | 0, s => .ok [] s
  | n + 1, s => (srcByte s).bind fun v t => (srcBytes n t).bind fun vs u => .ok (v :: vs) u

/-- Up to `n` times `SrcRead()`, until the first `FAIL`: the bytes that arrived. -/
def readUpTo : Nat → State → List Byte × State
  | 0, s => ([], s)
  | n + 1, s =>
    match srcRead s with
    | (none, t) => ([], t)
    | (some v, t) => (v :: (readUpTo n t).1, (readUpTo n t).2)

/-- `TryReadBlock()` (R250): the `k` bytes that arrived, `k` their number; `blockOfBytes` adds R250's zero fill. -/
def tryReadBlock (s : State) : List Byte × State := readUpTo 16 s

/-- `SnkByte(v)` (R10). -/
def snkByte (v : Byte) (s : State) : Run Unit :=
  match snkWrite v s with
  | (true, t) => .ok () t
  | (false, t) => .raised .ioWrite t

/-- `SnkByte` of each byte, in order. -/
def snkBytes : List Byte → State → Run Unit
  | [], s => .ok () s
  | v :: vs, s => (snkByte v s).bind fun _ t => snkBytes vs t

/-- `SnkBlock()` (R10): the block register as 16 bytes. -/
def snkBlock (s : State) : Run Unit := snkBytes (bytesOfBlock s.blk) s

/-- More than the number of answers the source has left: the bound of a loop that reads at least one each time round. -/
def readBound (s : State) : Nat := s.ports.src.length + 1

/-! ### The hybrid mode on the block register (43_hybrid_mode.md) -/

/-- The keystream block of a bank: its counter encrypted (R191 step 1). -/
def Bank.keystream (k : Bank) : Block := k.enc k.ctr

/-- `CTR[b] <- CtrInc(CTR[b])` (R190). -/
def State.stepCtr (s : State) (b : BankId) : State := s.setBank b { s.bank b with ctr := ctrInc (s.bank b).ctr }

/-- `HybEncBlk(b)` (R191). -/
def hybEncBlk (b : BankId) (s : State) : State :=
  let k := s.bank b
  (s.setBlk (k.enc (xorBlock s.blk k.keystream))).stepCtr b

/-- `HybDecBlk(b)` (R192). -/
def hybDecBlk (b : BankId) (s : State) : State :=
  let k := s.bank b
  (s.setBlk (xorBlock (k.dec s.blk) k.keystream)).stepCtr b

end Sys2Proof.Machine
end

