-- ==== Sys2Proof/Machine/BlockTransform.lean ====
section
/-!
DEFINITION. The meanings of RC6_ENC and RC6_DEC (42_block_transform.md).
-/

namespace Sys2Proof.Machine

/-- RC6_ENC (R175). -/
def execRc6Enc (b : BankId) (s : State) : Host.Outcome State Fault Refusal :=
  complete (.rc6Enc b) ((requireKey b s).bind fun _ t => .ok () (t.setBlk ((t.bank b).enc t.blk)))

/-- RC6_DEC (R176). -/
def execRc6Dec (b : BankId) (s : State) : Host.Outcome State Fault Refusal :=
  complete (.rc6Dec b) ((requireKey b s).bind fun _ t => .ok () (t.setBlk ((t.bank b).dec t.blk)))

end Sys2Proof.Machine
end

