-- ==== Sys2Proof/Machine/Container.lean ====
section
/-!
DEFINITION. The meanings of HDR_WRITE, HDR_READ, PWC_VERIFY, NAME_ENC and NAME_DEC (44_container.md).
-/

namespace Sys2Proof.Machine

/-- The header from the magic to the nonce (R101): what HDR_WRITE writes before the password check. -/
def headerBytes (p : Params) (k : Bank) : List Byte :=
  p.magic.toList ++ p.version :: hexDigitsOf k.rounds ++ 0x00 :: bytesOfBlock k.ctr

/-- The body of HDR_WRITE (R211). -/
def hdrWriteBody (b : BankId) (s : State) : Run Unit :=
  (requireKey b s).bind fun _ t =>
    (snkBytes (headerBytes t.params (t.bank b)) t).bind fun _ u =>
      snkBlock (hybEncBlk b (u.setBlk Block.zero))

/-- HDR_WRITE (R211). -/
def execHdrWrite (b : BankId) (s : State) : Host.Outcome State Fault Refusal :=
  complete (.hdrWrite b) (hdrWriteBody b s)

/-- The magic bytes, each checked as it arrives (R212, D37). -/
def readMagic : List Byte → State → Run Unit
  | [], s => .ok () s
  | m :: ms, s => (srcByte s).bind fun v t => (require (v == m) .fmtMagic t).bind fun _ u => readMagic ms u

/-- The loop of R212 over the round-count text (R100): `n` is the value of the `q` digits read so far; the answer is the two
at the terminator. It reads a byte each time round, so `readBound` times round end it (Laws/Loops.lean: `readBound_split`, `readCount_digits`). -/
def readCount : Nat → Nat → Nat → State → Run (Nat × Nat)
  | 0, _, _, s => .raised .ioRead s
  | fuel + 1, n, q, s => (srcByte s).bind fun v t =>
    if v = 0x00 then .ok (n, q) t
    else match hexVal v with
      | none => .raised .fmtRounds t
      | some d => readCount fuel (16 * n + d) (q + 1) t

/-- The three checks of R212 on the round count. -/
def checkCount (n q : Nat) (s : State) : Run Unit :=
  (require (decide (1 ≤ q)) .fmtRounds s).bind fun _ t =>
    (require (decide (1 ≤ n)) .fmtRounds t).bind fun _ u =>
      require (decide (n ≤ u.params.rMax)) .roundsUnsupported u

/-- The body of HDR_READ (R212). A count of 2^32 or more, under an `R_MAX` that admits it, is stored modulo 2^32 (R8, DEDUCED,
log entry 9). -/
def hdrReadBody (b : BankId) (s : State) : Run Unit :=
  (readMagic s.params.magic.toList (s.invalidate b)).bind fun _ s1 =>
  (srcByte s1).bind fun v s2 =>
  (require (v == s2.params.version) .fmtVersion s2).bind fun _ s3 =>
  (readCount (readBound s3) 0 0 s3).bind fun nq s4 =>
  (checkCount nq.1 nq.2 s4).bind fun _ s5 =>
  (srcBytes 16 (s5.setBank b { s5.bank b with rounds := BitVec.ofNat 32 nq.1 })).bind fun p s6 =>
    .ok () (s6.setBank b { s6.bank b with ctr := blockOfBytes p })

/-- HDR_READ (R212). -/
def execHdrRead (b : BankId) (s : State) : Host.Outcome State Fault Refusal :=
  complete (.hdrRead b) (hdrReadBody b s)

/-- The body of PWC_VERIFY (R214): the counter has stepped when the comparison is made. -/
def pwcVerifyBody (b : BankId) (s : State) : Run Unit :=
  (requireKey b s).bind fun _ t =>
    (srcBytes 16 t).bind fun p u =>
      let v := hybEncBlk b (u.setBlk Block.zero)
      require (decide (v.blk = blockOfBytes p)) .auth v

/-- PWC_VERIFY (R214). -/
def execPwcVerify (b : BankId) (s : State) : Host.Outcome State Fault Refusal :=
  complete (.pwcVerify b) (pwcVerifyBody b s)

/-- The name in the material buffer: `MBUF[0..MLEN-1]` up to its first zero byte, if it has one (R216, D28). -/
def State.name (s : State) : List Byte := s.material.takeWhile (· != 0)

/-- `n` name blocks from block `k` on (R216). -/
def nameEncLoop (b : BankId) (name : List Byte) : Nat → Nat → State → Run Unit
  | 0, _, s => .ok () s
  | n + 1, k, s =>
    (snkBlock (hybEncBlk b (s.setBlk (blockOfBytes (nameBlock name k))))).bind fun _ t =>
      nameEncLoop b name n (k + 1) t

/-- The body of NAME_ENC (R216): `floor(n/16) + 1` blocks. -/
def nameEncBody (b : BankId) (s : State) : Run Unit :=
  (requireKey b s).bind fun _ t =>
    (checkMlen t).bind fun _ u =>
      nameEncLoop b u.name (u.name.length / 16 + 1) 0 u

/-- NAME_ENC (R216). -/
def execNameEnc (b : BankId) (s : State) : Host.Outcome State Fault Refusal :=
  complete (.nameEnc b) (nameEncBody b s)

/-- The loop of R217, at `pos`. It reads 16 bytes each time round, so `readBound` times round end it. -/
def nameDecLoop (b : BankId) : Nat → Nat → State → Run Unit
  | 0, _, s => .raised .ioRead s
  | fuel + 1, pos, s =>
    (require (decide (pos + 16 ≤ s.params.mMax)) .mbufOverflow s).bind fun _ s1 =>
    (srcBytes 16 s1).bind fun p s2 =>
      let s3 := hybDecBlk b (s2.setBlk (blockOfBytes p))
      let d := bytesOfBlock s3.blk
      let s4 := { s3 with mbuf := Memory.writeBytes s3.mbuf pos d }
      if d.any (· == 0) then .ok () { s4 with mlen := BitVec.ofNat 32 (pos + (d.takeWhile (· != 0)).length) }
      else nameDecLoop b fuel (pos + 16) s4

/-- The body of NAME_DEC (R217). -/
def nameDecBody (b : BankId) (s : State) : Run Unit :=
  (requireKey b s).bind fun _ t => nameDecLoop b (readBound t) 0 t.clearMaterial

/-- NAME_DEC (R217). -/
def execNameDec (b : BankId) (s : State) : Host.Outcome State Fault Refusal :=
  complete (.nameDec b) (nameDecBody b s)

end Sys2Proof.Machine
end

