-- ==== Sys2Proof/Machine/Hybrid.lean ====
section
/-!
DEFINITION. The meanings of HYB_ENC, HYB_DEC and CTR_INC (43_hybrid_mode.md).
-/

namespace Sys2Proof.Machine

/-- HYB_ENC (R194). -/
def execHybEnc (b : BankId) (s : State) : Host.Outcome State Fault Refusal :=
  complete (.hybEnc b) ((requireKey b s).bind fun _ t => .ok () (hybEncBlk b t))

/-- HYB_DEC (R195). -/
def execHybDec (b : BankId) (s : State) : Host.Outcome State Fault Refusal :=
  complete (.hybDec b) ((requireKey b s).bind fun _ t => .ok () (hybDecBlk b t))

/-- CTR_INC (R196): it needs no schedule. -/
def execCtrInc (b : BankId) (s : State) : Host.Outcome State Fault Refusal := .next (s.stepCtr b)

end Sys2Proof.Machine
end

