-- ==== Sys2Proof/Machine/KeySchedule.lean ====
section
/-!
DEFINITION. The meanings of MCLR, GEN_SCHED and NONCE_DERIVE (41_key_schedule.md).
-/

namespace Sys2Proof.Machine

/-- `CheckRounds(b)` (R147). -/
def checkRounds (b : BankId) (s : State) : Run Unit :=
  (require (decide (1 ≤ (s.bank b).rounds.toNat)) .inputRounds s).bind fun _ t =>
    require (decide ((t.bank b).rounds.toNat ≤ t.params.rMax)) .roundsUnsupported t

/-- `GenSched(MBUF[0..MLEN-1], ROUNDS[b], hex)` after its two checks (R149, R150). -/
def scheduleFromMaterial (hex : Bool) (b : BankId) (s : State) : Run (List Word) :=
  (checkRounds b s).bind fun _ t => (checkMlen t).bind fun _ u =>
    match genSched u.material (u.bank b).rounds.toNat hex with
    | none => .raised .inputHex u
    | some sched => .ok sched u

/-- MCLR (R148). -/
def execMclr (s : State) : Host.Outcome State Fault Refusal := .next s.clearMaterial

/-- The body of GEN_SCHED (R149). -/
def genSchedBody (hex : Bool) (b : BankId) (s : State) : Run Unit :=
  (scheduleFromMaterial hex b (s.invalidate b)).bind fun sched t =>
    .ok () (t.clearMaterial.setBank b { t.bank b with keys := sched, kvalid := true })

/-- GEN_SCHED (R149). -/
def execGenSched (hex : Bool) (b : BankId) (s : State) : Host.Outcome State Fault Refusal :=
  complete (.genSched hex b) (genSchedBody hex b s)

/-- The body of NONCE_DERIVE (R150): the schedule is scratch storage, `S[b]` is not touched. -/
def nonceDeriveBody (hex : Bool) (b : BankId) (s : State) : Run Unit :=
  (scheduleFromMaterial hex b s).bind fun sx t =>
    .ok () (t.clearMaterial.setBank b { t.bank b with ctr := rc6Enc (keyAt sx) (t.bank b).rounds.toNat Block.zero })

/-- NONCE_DERIVE (R150). -/
def execNonceDerive (hex : Bool) (b : BankId) (s : State) : Host.Outcome State Fault Refusal :=
  complete (.nonceDerive hex b) (nonceDeriveBody hex b s)

end Sys2Proof.Machine
end

