-- ==== Sys2Proof/Machine/Primitives.lean ====
section
/-!
DEFINITION. The meanings of NOP, ROTL and ROTR (40_primitives.md).
-/

namespace Sys2Proof.Machine

/-- NOP (R125): nothing. -/
def execNop (s : State) : Host.Outcome State Fault Refusal := .next s

/-- ROTL (R126): `BLK[0] <- ROTL32(BLK[0], BLK[1])`. -/
def execRotl (s : State) : Host.Outcome State Fault Refusal :=
  .next (s.setBlk { s.blk with w0 := rotl32 s.blk.w0 s.blk.w1.toNat })

/-- ROTR (R127): `BLK[0] <- ROTR32(BLK[0], BLK[1])`. -/
def execRotr (s : State) : Host.Outcome State Fault Refusal :=
  .next (s.setBlk { s.blk with w0 := rotr32 s.blk.w0 s.blk.w1.toNat })

end Sys2Proof.Machine
end

