-- ==== Sys2Proof/Machine/Streaming.lean ====
section
/-!
DEFINITION. The meanings of READ_BLOCK, TRIM_EMIT, ENC_STREAM, DEC_STREAM and REENC_STREAM (45_streaming.md). The three stream
loops end at the source's first FAIL (R347); each time round they read at least one answer, so `readBound` times round end them.
-/

namespace Sys2Proof.Machine

/-- One plaintext block from the source into `BLK`, the final one padded, and `FINAL` (R251; the head of R254's loop). -/
def loadBlock (s : State) : State :=
  let r := tryReadBlock s
  if r.1.length = 16 then { r.2 with final := false, blk := blockOfBytes r.1 }
  else { r.2 with final := true, blk := blockOfBytes (padBlock r.1) }

/-- READ_BLOCK (R251). -/
def execReadBlock (s : State) : Host.Outcome State Fault Refusal := .next (loadBlock s)

/-- `BLK` trimmed and written (R253; the tail of R255). -/
def emitTrimmed (s : State) : Run Unit :=
  match trim (bytesOfBlock s.blk) with
  | none => .raised .fmtPad s
  | some d => snkBytes d s

/-- TRIM_EMIT (R253). -/
def execTrimEmit (s : State) : Host.Outcome State Fault Refusal := complete .trimEmit (emitTrimmed s)

/-- The loop of R254. -/
def encLoop (b : BankId) : Nat → State → Run Unit
  | 0, s => .ok () s
  | fuel + 1, s =>
    (snkBlock (hybEncBlk b (loadBlock s))).bind fun _ t => if t.final then .ok () t else encLoop b fuel t

/-- The body of ENC_STREAM (R254). -/
def encStreamBody (b : BankId) (s : State) : Run Unit :=
  (requireKey b s).bind fun _ t => encLoop b (readBound t) t

/-- ENC_STREAM (R254). -/
def execEncStream (b : BankId) (s : State) : Host.Outcome State Fault Refusal :=
  complete (.encStream b) (encStreamBody b s)

/-- The loop of R255, with `cur` the ciphertext block that has been read and not yet decrypted (R37). -/
def decLoop (b : BankId) : Nat → List Byte → State → Run Unit
  | 0, _, s => .ok () s
  | fuel + 1, cur, s =>
    let nxt := tryReadBlock s
    let t := hybDecBlk b (nxt.2.setBlk (blockOfBytes cur))
    if nxt.1.length = 16 then (snkBlock t).bind fun _ u => decLoop b fuel nxt.1 u
    else emitTrimmed t

/-- The body of DEC_STREAM (R255). -/
def decStreamBody (b : BankId) (s : State) : Run Unit :=
  (requireKey b s).bind fun _ t =>
    let cur := tryReadBlock t
    (require (decide (cur.1.length = 16)) .ioRead cur.2).bind fun _ u => decLoop b (readBound t) cur.1 u

/-- DEC_STREAM (R255). -/
def execDecStream (b : BankId) (s : State) : Host.Outcome State Fault Refusal :=
  complete (.decStream b) (decStreamBody b s)

/-- The loop of R256: bank 0 old, bank 1 new. -/
def reencLoop : Nat → State → Run Unit
  | 0, s => .ok () s
  | fuel + 1, s =>
    let r := tryReadBlock s
    if r.1.length = 16 then
      (snkBlock (hybEncBlk .b1 (hybDecBlk .b0 (r.2.setBlk (blockOfBytes r.1))))).bind fun _ t => reencLoop fuel t
    else .ok () r.2

/-- The body of REENC_STREAM (R256). -/
def reencStreamBody (s : State) : Run Unit :=
  (requireKey .b0 s).bind fun _ t => (requireKey .b1 t).bind fun _ u => reencLoop (readBound u) u

/-- REENC_STREAM (R256). -/
def execReencStream (s : State) : Host.Outcome State Fault Refusal := complete .reencStream (reencStreamBody s)

end Sys2Proof.Machine
end

