-- ==== Sys2Proof/Machine/System.lean ====
section
/-!
DEFINITION. The meaning of SRESET (70_reset_and_hazards.md).
-/

namespace Sys2Proof.Machine

/-- SRESET (R342): the reset state, from the fault state too. -/
def execSreset (s : State) : Host.Outcome State Fault Refusal := .next (resetEngine s)

end Sys2Proof.Machine
end

