-- ==== Sys2Proof/Machine/Dispatch.lean ====
section
/-!
DEFINITION. One arm for each command: "perform the row's rule with hex and b" (R107, 30_encoding.md). The frame around it, the
FAULT check and the decoding, is `execute` in Machine/Window.lean.
-/

namespace Sys2Proof.Machine

def exec (i : Instr) (s : State) : Host.Outcome State Fault Refusal :=
  match i with
  | .nop => Sys2Proof.Machine.execNop s
  | .rotl => Sys2Proof.Machine.execRotl s
  | .rotr => Sys2Proof.Machine.execRotr s
  | .mclr => Sys2Proof.Machine.execMclr s
  | .genSched hex b => Sys2Proof.Machine.execGenSched hex b s
  | .nonceDerive hex b => Sys2Proof.Machine.execNonceDerive hex b s
  | .rc6Enc b => Sys2Proof.Machine.execRc6Enc b s
  | .rc6Dec b => Sys2Proof.Machine.execRc6Dec b s
  | .hybEnc b => Sys2Proof.Machine.execHybEnc b s
  | .hybDec b => Sys2Proof.Machine.execHybDec b s
  | .ctrInc b => Sys2Proof.Machine.execCtrInc b s
  | .hdrWrite b => Sys2Proof.Machine.execHdrWrite b s
  | .hdrRead b => Sys2Proof.Machine.execHdrRead b s
  | .pwcVerify b => Sys2Proof.Machine.execPwcVerify b s
  | .nameEnc b => Sys2Proof.Machine.execNameEnc b s
  | .nameDec b => Sys2Proof.Machine.execNameDec b s
  | .readBlock => Sys2Proof.Machine.execReadBlock s
  | .trimEmit => Sys2Proof.Machine.execTrimEmit s
  | .encStream b => Sys2Proof.Machine.execEncStream b s
  | .decStream b => Sys2Proof.Machine.execDecStream b s
  | .reencStream => Sys2Proof.Machine.execReencStream s
  | .sreset => Sys2Proof.Machine.execSreset s

end Sys2Proof.Machine
end

