-- ==== Sys2Proof/Machine/Window.lean ====
section
/-!
DEFINITION. The host's side: executing a command word (R107, 30_encoding.md), the register window (R35, 10_state.md; R60 to R68
and R78, 20_memory.md), and one host event, which is one step (R346, 70_reset_and_hazards.md).
-/

namespace Sys2Proof.Machine

/-- The registers of R35. -/
inductive Reg where
  | cmd
  | status
  | cause
  | rounds (b : BankId)
  | mlen
  /-- `CTRb_k`, k = 0..3. -/
  | ctr (b : BankId) (k : Fin 4)
  /-- `BLK_k`, k = 0..3. -/
  | blk (k : Fin 4)
  /-- `MBUF_n`: bytes `4n .. 4n+3` of `MBUF` (R62). -/
  | mbuf (n : Nat)
deriving DecidableEq, Repr

/-- The register at a 4-byte-aligned window offset (R35), none at a reserved one or beyond the end (R64). -/
def regAt (mMax off : Nat) : Option Reg :=
  match off with
  | 0x000 => some .cmd
  | 0x004 => some .status
  | 0x008 => some .cause
  | 0x010 => some (.rounds .b0)
  | 0x014 => some (.rounds .b1)
  | 0x018 => some .mlen
  | 0x020 => some (.ctr .b0 0)
  | 0x024 => some (.ctr .b0 1)
  | 0x028 => some (.ctr .b0 2)
  | 0x02C => some (.ctr .b0 3)
  | 0x030 => some (.ctr .b1 0)
  | 0x034 => some (.ctr .b1 1)
  | 0x038 => some (.ctr .b1 2)
  | 0x03C => some (.ctr .b1 3)
  | 0x040 => some (.blk 0)
  | 0x044 => some (.blk 1)
  | 0x048 => some (.blk 2)
  | 0x04C => some (.blk 3)
  | _ =>
    if 0x400 ≤ off ∧ off % 4 = 0 ∧ off + 4 ≤ 0x400 + mMax then some (.mbuf ((off - 0x400) / 4)) else none

/-- Word `k` of a block or a counter. -/
def getWord (x : Block) : Fin 4 → Word
  | 0 => x.w0
  | 1 => x.w1
  | 2 => x.w2
  | 3 => x.w3

/-- Word `k` becomes `v`. -/
def setWord (x : Block) (k : Fin 4) (v : Word) : Block :=
  match k with
  | 0 => { x with w0 := v }
  | 1 => { x with w1 := v }
  | 2 => { x with w2 := v }
  | 3 => { x with w3 := v }

/-- What a read of the register returns (R78); no read changes anything (R66). -/
def regRead (r : Reg) (s : State) : Word :=
  match r with
  | .cmd => 0
  | .status => statusWord s
  | .cause => s.cause
  | .rounds b => (s.bank b).rounds
  | .mlen => s.mlen
  | .ctr b k => getWord (s.bank b).ctr k
  | .blk k => getWord s.blk k
  | .mbuf n =>
    wordOfBytes (Memory.read s.mbuf (4 * n)) (Memory.read s.mbuf (4 * n + 1)) (Memory.read s.mbuf (4 * n + 2))
      (Memory.read s.mbuf (4 * n + 3))

/-- A write to a register other than `CMD`, outside the fault state (R78, R65, R67). -/
def regWrite (r : Reg) (v : Word) (s : State) : State :=
  match r with
  | .cmd | .status | .cause => s
  | .rounds b => s.setBank b { (s.bank b).invalidate with rounds := v }
  | .mlen => { s with mlen := v }
  | .ctr b k => s.setBank b { s.bank b with ctr := setWord (s.bank b).ctr k v }
  | .blk k => { s with blk := setWord s.blk k v }
  | .mbuf n => { s with mbuf := Memory.writeBytes s.mbuf (4 * n) (bytesOfWord v) }

/-- The word that performs SRESET, the only one performed while `FAULT = 1` (R107, R342). -/
def sresetWord : Word := 0x000000FF

/-- `Execute(c)` (R107): a host write of `c` to `CMD`. The check for the fault state stands here and not in `exec` (log entry 12);
an illegal word makes the fault entry and changes nothing beside it (R93, DEDUCED, log entry 10). -/
def execute (c : Word) (s : State) : Host.Outcome State Fault Refusal :=
  if s.fault = true ∧ c ≠ sresetWord then .next s
  else match decode c with
    | .ok i => exec i s
    | .error _ => .next (faultEntry .illegalCmd c s)

/-- A read of `n` bytes at window offset `off` (R78; R63, R64). -/
def hostRead (off n : Nat) (s : State) : Host.Outcome State Fault Refusal :=
  if n ≠ 4 ∨ off % 4 ≠ 0 then .refused .notAligned32
  else match regAt s.params.mMax off with
    | none => .refused .reservedOffset
    | some r => .next { s with rdata := some (regRead r s) }

/-- A write of the `n`-byte value `v` at window offset `off` (R78; R63, R64, R68). -/
def hostWrite (off n : Nat) (v : Word) (s : State) : Host.Outcome State Fault Refusal :=
  if n ≠ 4 ∨ off % 4 ≠ 0 then .refused .notAligned32
  else match regAt s.params.mMax off with
    | none => .refused .reservedOffset
    | some .cmd => execute v s
    | some r => if s.fault then .next s else .next (regWrite r v s)

/-- `MemRead(addr, n)` at a byte address (R78: `off = addr - BASE`; log entry 13). -/
def memRead (addr n : Nat) (s : State) : Host.Outcome State Fault Refusal :=
  if s.params.base ≤ addr then hostRead (addr - s.params.base) n s else .refused .belowWindow

/-- `MemWrite(addr, n, v)` at a byte address (R78: `off = addr - BASE`). -/
def memWrite (addr n : Nat) (v : Word) (s : State) : Host.Outcome State Fault Refusal :=
  if s.params.base ≤ addr then hostWrite (addr - s.params.base) n v s else .refused .belowWindow

/-- One recorded port operation happens: the port gives the answer it has next, and the record grows. -/
def Ports.happen (p : Ports) : PortEvent → Ports
  | .read v => { p with src := p.src.tail }.record (.read v)
  | .readFail => { p with src := p.src.tail }.record .readFail
  | .write v => { p with snk := p.snk.tail }.record (.write v)
  | .writeFail v => { p with snk := p.snk.tail }.record (.writeFail v)

/-- A hardware reset in the middle of command `c`, after `k` of its port operations (R341, U15): "port traffic up to that
instant has happened and the rest has not, and the state is the reset state" (DESIGN CHOICE for the form, log entry 11). -/
def abandon (c : Word) (k : Nat) (s : State) : Host.Outcome State Fault Refusal :=
  match execute c s with
  | .next t =>
    let traffic := (t.ports.trace.drop s.ports.trace.length).take k
    .next ((resetEngine s).setPorts (traffic.foldl Ports.happen s.ports))
  | .fault r => .fault r
  | .refused r => .refused r

/-- What one host event does. -/
def hostEvent (e : HostEvent) (s : State) : Host.Outcome State Fault Refusal :=
  match e with
  | .read off n => hostRead off n s
  | .write off n v => hostWrite off n v s
  | .reset => .next (resetEngine s)
  | .resetDuring c k => abandon c k s
  | .bindSource answers => .next (s.setPorts { s.ports with src := answers })
  | .bindSink answers => .next (s.setPorts { s.ports with snk := answers })

/-- One step (R346): the host's next event; with none to come the engine waits (R341, R31). -/
def hostStep (s : State) : Host.Outcome State Fault Refusal :=
  match s.host with
  | [] => .next s
  | e :: rest => hostEvent e { s with host := rest }

/-- The state with the host's next event a write of the command word `w` to `CMD` (R34, R104). -/
def withCommand (s : State) (w : Word) : State := { s with host := .write 0x000 4 w :: s.host }

end Sys2Proof.Machine
end

