-- ==== Sys2Proof/Machine/Step.lean ====
section
/-!
DEFINITION. One step of the machine, and the placing of an instruction where the next step takes it. The engine has no program
counter and fetches nothing (R31, R74): "commands arrive only as data written to `CMD`".
-/

namespace Sys2Proof.Machine

/-- One step: the host's next event (R346; log entries 7, 14). -/
def step (s : State) : Host.Outcome State Fault Refusal := hostStep s

/-- The state whose very next step is a host write of the instruction word `w` to `CMD` (log entry 7). A command is one 32-bit
word (R90), so the bits above `nbits` are bits of the same word and are 0. -/
def State.withFetchWord (s : State) (nbits w : Nat) : State :=
  withCommand s (BitVec.ofNat 32 (w % 2 ^ nbits))

end Sys2Proof.Machine
end

