-- ==== Sys2Proof/Machine/Operations.lean ====
section
/-!
DEFINITION. The pseudo-instructions of R105 (30_encoding.md): LOADM, ENCRYPT_FILE, DECRYPT_FILE and REENCRYPT_FILE as the
sequences of host actions that realise them (R280 to R282, R285, R286, 46_operations.md). They are lists of host events and no
commands; nothing in the engine refers to them. A fault on the way leaves the later actions without effect (R283, R304).
-/

namespace Sys2Proof.Machine

/-- The host's write of a command to `CMD` (R104). -/
def command (i : Instr) : HostEvent := .write 0x000 4 (encode i)

/-- `LOADM x` (R285): the material's words, then its length. -/
def loadMaterial (x : List Byte) : List HostEvent :=
  ((List.range ((x.length + 3) / 4)).map fun q => HostEvent.write (0x400 + 4 * q) 4 (wordAt x q))
    ++ [.write 0x018 4 (BitVec.ofNat 32 x.length)]

/-- `RD STATUS`, the last action of each operation. -/
def readStatus : HostEvent := .read 0x004 4

/-- The files an operation binds to the ports (R283): what the input will answer and what the output will answer. -/
structure Files where
  input : List (Option Byte)
  output : List Bool
deriving DecidableEq, Repr

/-- `ENCRYPT_FILE(rounds, hex)` (R280). -/
def encryptFile (rounds : Word) (hex : Bool) (nonce password name : List Byte) (files : Files) : List HostEvent :=
  [.write 0x010 4 rounds] ++ loadMaterial nonce ++ [command (.nonceDerive hex .b0)]
    ++ loadMaterial password ++ [command (.genSched hex .b0), .bindSink files.output, .bindSource files.input,
      command (.hdrWrite .b0)]
    ++ loadMaterial name ++ [command (.nameEnc .b0), command (.encStream .b0), readStatus]

/-- `DECRYPT_FILE(rounds, hex)` up to `RD MLEN` (R281 steps 1 to 7); the operand `rounds` is unused (D26). -/
def decryptHead (hex : Bool) (password : List Byte) (input : List (Option Byte)) : List HostEvent :=
  [.bindSource input, command (.hdrRead .b0)] ++ loadMaterial password
    ++ [command (.genSched hex .b0), command (.pwcVerify .b0), command (.nameDec .b0), .read 0x018 4]

/-- The rest of `DECRYPT_FILE` (R281 steps 7 to 10), where `n` is the value of MLEN that `decryptHead` read last. -/
def decryptTail (n : Nat) (output : List Bool) : List HostEvent :=
  ((List.range ((n + 1 + 3) / 4)).map fun q => HostEvent.read (0x400 + 4 * q) 4)
    ++ [.bindSink output, command (.decStream .b0), readStatus]

/-- `REENCRYPT_FILE(rounds, hex)` (R282). -/
def reencryptFile (rounds : Word) (hex : Bool) (oldPassword nonce newPassword : List Byte) (files : Files) : List HostEvent :=
  [.bindSource files.input, command (.hdrRead .b0)] ++ loadMaterial oldPassword
    ++ [command (.genSched hex .b0), command (.pwcVerify .b0), .write 0x014 4 rounds]
    ++ loadMaterial nonce ++ [command (.nonceDerive hex .b1)]
    ++ loadMaterial newPassword ++ [command (.genSched hex .b1), .bindSink files.output, command (.hdrWrite .b1),
      command .reencStream, readStatus]

/-- The host's events done one after another (R72 b, R73). -/
def hostEvents : List HostEvent → State → Host.Outcome State Fault Refusal
  | [], s => .next s
  | e :: rest, s =>
    match hostEvent e s with
    | .next t => hostEvents rest t
    | .fault r => .fault r
    | .refused r => .refused r

end Sys2Proof.Machine
end

