-- ==== Sys2Proof/Safety.lean ====
section
/-!
DEFINITION. The terms the statements use: what makes a state legal (`Inv`, R39 and the rules of the fault state), what a source
port delivers before its first FAIL, and the container's block sequences as pure functions of a bank.
-/

namespace Sys2Proof

/-- The other bank. -/
def BankId.other : BankId → BankId
  | .b0 => .b1
  | .b1 => .b0

end Sys2Proof

namespace Sys2Proof.Machine

/-- R39 (10_state.md) and R24: a valid schedule belongs to a legal round count and is a result of `GenSched` for it; with
`KVALID[b] = 0` the round-key memory has no value. -/
def Bank.legal (rMax : Nat) (k : Bank) : Prop :=
  if k.kvalid then
    1 ≤ k.rounds.toNat ∧ k.rounds.toNat ≤ rMax ∧ ∃ m hex, genSched m k.rounds.toNat hex = some k.keys
  else k.keys = []

/-- R29, R32, R33, R303: outside the fault state `CAUSE` is 0; inside it `CAUSE` is one of R301's causes with the fields of
some command word, and everything R303 clears is clear. -/
def State.faultLegal (s : State) : Prop :=
  if s.fault then
    (∃ e c, s.cause = causeWord e c) ∧ s.mbuf = [] ∧ s.mlen = 0 ∧ s.blk = Block.zero ∧ s.final = false
      ∧ s.bank0.kvalid = false ∧ s.bank1.kvalid = false
  else s.cause = 0

/-- The material buffer is in canonical form and inside its `M_MAX` bytes (R27). -/
def State.mbufLegal (s : State) : Prop := Memory.wf s.mbuf = true ∧ Memory.within s.params.mMax s.mbuf = true

/-- The states a run can be in: a legal state of the engine. -/
def State.Inv (s : State) : Prop :=
  s.bank0.legal s.params.rMax ∧ s.bank1.legal s.params.rMax ∧ s.faultLegal ∧ s.mbufLegal

/-- Every piece of the engine's own state (R20) is the same; the model's own fields may differ. -/
def State.sameEngine (s t : State) : Prop :=
  s.bank0 = t.bank0 ∧ s.bank1 = t.bank1 ∧ s.blk = t.blk ∧ s.mbuf = t.mbuf ∧ s.mlen = t.mlen ∧ s.final = t.final
    ∧ s.fault = t.fault ∧ s.cause = t.cause

/-- The bytes a source will deliver before its first `FAIL`; one that is used up answers `FAIL` (log entry 4). -/
def deliver : List (Option Byte) → List Byte
  | [] => []
  | none :: _ => []
  | some v :: rest => v :: deliver rest

/-- The answers a source has left after its first `FAIL`. -/
def afterFail : List (Option Byte) → List (Option Byte)
  | [] => []
  | none :: rest => rest
  | some _ :: rest => afterFail rest

/-- The sink answers `OK` to everything: every listed answer is, and one that is used up answers `OK` (log entry 5). -/
def Ports.sinkAccepts (p : Ports) : Prop := ∀ a ∈ p.snk, a = true

/-- The 16 bytes from position `16k` on (fewer at the end). -/
def chunk (p : List Byte) (k : Nat) : List Byte := (p.drop (16 * k)).take 16

/-- The whole 16-byte blocks of a byte sequence, in order; 1 to 15 bytes at the end are dropped (D18). -/
def wholeBlocks (p : List Byte) : List (List Byte) := (List.range (p.length / 16)).map (chunk p)

/-- The plaintext blocks of R103 (30_encoding.md): the full ones, then the remainder with the marker and zeros. -/
def paddedBlocks (p : List Byte) : List (List Byte) := wholeBlocks p ++ [padBlock (p.drop (16 * (p.length / 16)))]

/-- The plaintext blocks of a name (R102). -/
def nameBlocks (name : List Byte) : List (List Byte) := (List.range (name.length / 16 + 1)).map (nameBlock name)

/-- The bank after its counter has stepped `n` times (R219). -/
def Bank.advance (k : Bank) : Nat → Bank
  | 0 => k
  | n + 1 => Bank.advance { k with ctr := ctrInc k.ctr } n

/-- Hybrid encryption of one block at the bank's counter (R191 steps 1 to 3). -/
def Bank.seal (k : Bank) (x : Block) : Block := k.enc (xorBlock x k.keystream)

/-- Hybrid decryption of one block at the bank's counter (R192 steps 1 to 3). -/
def Bank.unseal (k : Bank) (x : Block) : Block := xorBlock (k.dec x) k.keystream

/-- The ciphertext bytes of a sequence of plaintext blocks, the counter stepping from block to block (R193 b). -/
def Bank.sealAll (k : Bank) : List (List Byte) → List Byte
  | [] => []
  | p :: ps => bytesOfBlock (k.seal (blockOfBytes p)) ++ Bank.sealAll { k with ctr := ctrInc k.ctr } ps

/-- The plaintext blocks of a sequence of ciphertext blocks, the counter stepping from block to block (R193 c). -/
def Bank.unsealAll (k : Bank) : List (List Byte) → List (List Byte)
  | [] => []
  | p :: ps => bytesOfBlock (k.unseal (blockOfBytes p)) :: Bank.unsealAll { k with ctr := ctrInc k.ctr } ps

/-- The counter as a number (R23, R190). -/
def counterValue (c : Block) : Nat := c.w0.toNat + 2 ^ 32 * c.w1.toNat + 2 ^ 64 * c.w2.toNat + 2 ^ 96 * c.w3.toNat

/-- The value of hexadecimal digits, most significant first (R99, R100). -/
def hexValue (ds : List Nat) : Nat := ds.foldl (fun n d => 16 * n + d) 0

/-- The instructions that require a valid schedule, each with the banks it requires one of (R301, row `E_NOKEY`). -/
def keyedBanks : Instr → List BankId
  | .rc6Enc b | .rc6Dec b | .hybEnc b | .hybDec b | .hdrWrite b | .pwcVerify b | .nameEnc b | .nameDec b | .encStream b
  | .decStream b => [b]
  | .reencStream => [.b0, .b1]
  | .nop | .rotl | .rotr | .mclr | .genSched _ _ | .nonceDerive _ _ | .ctrInc _ | .hdrRead _ | .readBlock | .trimEmit
  | .sreset => []

/-- The bank an instruction's BANK bit names, for the instructions that use it (R91). -/
def bankUsed : Instr → Option BankId
  | .genSched _ b | .nonceDerive _ b | .rc6Enc b | .rc6Dec b | .hybEnc b | .hybDec b | .ctrInc b
  | .hdrWrite b | .hdrRead b | .pwcVerify b | .nameEnc b | .nameDec b | .encStream b | .decStream b => some b
  | .nop | .rotl | .rotr | .mclr | .readBlock | .trimEmit | .reencStream | .sreset => none

/-- From `p` to `q` the source may have been read, the sink is untouched. -/
def Ports.sourceOnly (p q : Ports) : Prop := q.snk = p.snk ∧ q.output = p.output

/-- From `p` to `q` the sink may have been written, the source is untouched. -/
def Ports.sinkOnly (p q : Ports) : Prop := q.src = p.src

/-- How many bytes arrived in this port traffic. -/
def bytesRead (traffic : List PortEvent) : Nat := traffic.countP fun e => match e with | .read _ => true | _ => false

/-- How many bytes the sink accepted in this port traffic. -/
def bytesWritten (traffic : List PortEvent) : Nat := traffic.countP fun e => match e with | .write _ => true | _ => false

/-- The register's window offset (R35's first column). -/
def Reg.offset : Reg → Nat
  | .cmd => 0x000
  | .status => 0x004
  | .cause => 0x008
  | .rounds .b0 => 0x010
  | .rounds .b1 => 0x014
  | .mlen => 0x018
  | .ctr .b0 k => 0x020 + 4 * k.val
  | .ctr .b1 k => 0x030 + 4 * k.val
  | .blk k => 0x040 + 4 * k.val
  | .mbuf n => 0x400 + 4 * n

/-- The register is in a window whose material buffer has `mMax` bytes (R35: `MBUF_n` for `n = 0..M_MAX/4 - 1`). -/
def Reg.present (mMax : Nat) (r : Reg) : Prop := ∀ n, r = .mbuf n → 4 * n + 4 ≤ mMax

/-- Bank `b` of `s` with the counter that it has in `u`. -/
def State.ctrFrom (s u : State) (b : BankId) : State := s.setBank b { s.bank b with ctr := (u.bank b).ctr }

/-- R41's table (10_state.md): `u` differs from `s` in nothing that the command's row does not list. Where a row lists
`KVALID[b]`, `S[b]` may lose its value with it (R24; log entry 2). -/
def changesOnlyRow (i : Instr) (s u : State) : Prop :=
  match i with
  | .nop => u = s
  | .rotl | .rotr => u = s.setBlk { s.blk with w0 := u.blk.w0 }
  | .mclr => u = { s with mbuf := u.mbuf, mlen := u.mlen }
  | .genSched _ b =>
    u = State.setBank { s with mbuf := u.mbuf, mlen := u.mlen } b
      { s.bank b with keys := (u.bank b).keys, kvalid := (u.bank b).kvalid }
  | .nonceDerive _ b => u = State.ctrFrom { s with mbuf := u.mbuf, mlen := u.mlen } u b
  | .rc6Enc _ | .rc6Dec _ => u = s.setBlk u.blk
  | .hybEnc b | .hybDec b => u = (s.ctrFrom u b).setBlk u.blk
  | .ctrInc b => u = s.ctrFrom u b
  | .hdrWrite b | .nameEnc b => u = ((s.ctrFrom u b).setBlk u.blk).setPorts u.ports ∧ s.ports.sinkOnly u.ports
  | .hdrRead b => u = (s.setBank b (u.bank b)).setPorts u.ports ∧ s.ports.sourceOnly u.ports
  | .pwcVerify b => u = ((s.ctrFrom u b).setBlk u.blk).setPorts u.ports ∧ s.ports.sourceOnly u.ports
  | .nameDec b =>
    u = ((State.ctrFrom { s with mbuf := u.mbuf, mlen := u.mlen } u b).setBlk u.blk).setPorts u.ports
      ∧ s.ports.sourceOnly u.ports
  | .readBlock => u = ({ s with final := u.final }.setBlk u.blk).setPorts u.ports ∧ s.ports.sourceOnly u.ports
  | .trimEmit => u = s.setPorts u.ports ∧ s.ports.sinkOnly u.ports
  | .encStream b => u = ((State.ctrFrom { s with final := u.final } u b).setBlk u.blk).setPorts u.ports
  | .decStream b => u = ((s.ctrFrom u b).setBlk u.blk).setPorts u.ports
  | .reencStream => u = (((s.ctrFrom u .b0).ctrFrom u .b1).setBlk u.blk).setPorts u.ports
  | .sreset => u = resetEngine s

/-- R310's table (60_exceptions.md): the faults each command can raise. -/
def faultsOf : Instr → List Cause
  | .nop | .rotl | .rotr | .mclr | .ctrInc _ | .readBlock | .sreset => []
  | .genSched _ _ | .nonceDerive _ _ => [.inputRounds, .roundsUnsupported, .mbufOverflow, .inputHex]
  | .rc6Enc _ | .rc6Dec _ | .hybEnc _ | .hybDec _ => [.noKey]
  | .hdrWrite _ => [.noKey, .ioWrite]
  | .hdrRead _ => [.ioRead, .fmtMagic, .fmtVersion, .fmtRounds, .roundsUnsupported]
  | .pwcVerify _ => [.noKey, .ioRead, .auth]
  | .nameEnc _ => [.noKey, .mbufOverflow, .ioWrite]
  | .nameDec _ => [.noKey, .mbufOverflow, .ioRead]
  | .trimEmit => [.fmtPad, .ioWrite]
  | .encStream _ => [.noKey, .ioWrite]
  | .decStream _ => [.noKey, .ioRead, .ioWrite, .fmtPad]
  | .reencStream => [.noKey, .ioWrite]

end Sys2Proof.Machine
end

