-- ==== Sys2Proof/Certificates/Slice0/Obligations.lean ====
section
/-!
DEFINITION. The statements for the provers, in the order of OBLIGATIONS.json. Each says what the engine does for every state, and
its docstring names the rules of spec/ it formalises.
-/

open Sys2Proof Sys2Proof.Machine

/-! ### Command words -/

/-- R90 to R92: every instruction has exactly one word, and a word decodes to an instruction only if it is that word; so no bit
of an encoding is dropped and no word has two meanings. -/
def Obligations.DecodeAndEncodeAgree : Prop := ∀ (w : Word) (i : Instr), decode w = .ok i ↔ w = encode i

/-- R92: a word names the command of `i`'s row exactly when its reserved bits are 0, its `OP` is the row's, and HEX and BANK are
0 unless the row uses them; and, as the table of R92 puts it, exactly when `c & mask = match`. -/
def Obligations.WordNamesRowExactlyByItsPattern : Prop :=
  ∀ (w : Word) (i : Instr),
    ((∃ j, opOf j = opOf i ∧ decode w = .ok j) ↔
      w.extractLsb' 10 22 = 0 ∧ w.extractLsb' 0 8 = opOf i ∧ (w.getLsbD 8 = true → opOf i ∈ hexCodes) ∧
        (w.getLsbD 9 = true → opOf i ∈ bankCodes)) ∧
    ((∃ j, opOf j = opOf i ∧ decode w = .ok j) ↔ w &&& rowMask i = rowMatch i)

/-- Words written out from R90 and R91 (R104's examples among them) and what they name; R93's illegal ones. -/
def Obligations.WrittenOutWordsDecode : Prop :=
  decode 0x00000000 = .ok .nop ∧ decode 0x00000011 = .ok (.genSched false .b0) ∧
  decode 0x00000311 = .ok (.genSched true .b1) ∧ decode 0x00000112 = .ok (.nonceDerive true .b0) ∧
  decode 0x00000231 = .ok (.hybDec .b1) ∧ decode 0x00000220 = .ok (.rc6Enc .b1) ∧
  decode 0x00000244 = .ok (.nameDec .b1) ∧ decode 0x00000054 = .ok .reencStream ∧ decode 0x000000FF = .ok .sreset ∧
  decode 0x00000400 = .error .reservedBit ∧ decode 0x00000003 = .error .unlistedOp ∧
  decode 0x00000120 = .error .hexNotUsed ∧ decode 0x00000210 = .error .bankNotUsed

/-- R93, R107: outside the fault state a word that matches a row is performed, and any other word raises `E_ILLEGAL_CMD` with
nothing done before the fault entry (R93's "changes nothing else" read with R303: DEDUCED, log entry 10). -/
def Obligations.IllegalWordsRaiseAndLegalWordsRun : Prop :=
  ∀ (c : Word) (s : State), s.fault = false →
    (CommandWord.wellFormed c = false → execute c s = .next (faultEntry .illegalCmd c s)) ∧
    (CommandWord.wellFormed c = true → ∃ i, decode c = .ok i ∧ execute c s = exec i s)

/-- R107, R34: the host's write of a command word to `CMD` (offset 0) runs exactly the decoded instruction, on the state
without that host event; in the fault state this holds of SRESET's word. -/
def Obligations.StepRunsTheDecodedCommand : Prop :=
  ∀ (s : State) (rest : List HostEvent) (c : Word) (i : Instr),
    s.host = .write 0x000 4 c :: rest → decode c = .ok i → (s.fault = false ∨ c = 0x000000FF) →
    step s = exec i { s with host := rest }

/-- R346, R341: a step is the host's next event; with none to come the engine waits. `withFetchWord` puts a command word
there (the model's own field, log entry 7). -/
def Obligations.StepTakesTheNextHostEvent : Prop :=
  (∀ (s : State) (e : HostEvent) (rest : List HostEvent), s.host = e :: rest → step s = hostEvent e { s with host := rest }) ∧
  (∀ s : State, s.host = [] → step s = .next s) ∧
  (∀ (s : State) (w : Word), step (s.withFetchWord 32 w.toNat) = execute w s)

/-! ### The primitives -/

/-- R121, R122: rotation by `n mod 32`, and which bit of `x` each bit of the result is. -/
def Obligations.RotationsPermuteTheBits : Prop :=
  ∀ (x : Word) (n : Nat),
    rotl32 x n = (if n % 32 = 0 then x else (x <<< (n % 32)) ||| (x >>> (32 - n % 32))) ∧
    rotr32 x n = (if n % 32 = 0 then x else (x >>> (n % 32)) ||| (x <<< (32 - n % 32))) ∧
    ∀ k < 32, (rotl32 x n).getLsbD k = x.getLsbD ((k + 32 - n % 32) % 32) ∧
      (rotr32 x n).getLsbD k = x.getLsbD ((k + n % 32) % 32)

/-- R123: the rotation laws. -/
def Obligations.RotationLawsHold : Prop :=
  ∀ (x y : Word) (n m : Nat),
    rotr32 (rotl32 x n) n = x ∧ rotl32 (rotr32 x n) n = x ∧ rotl32 x n = rotl32 x (n % 32) ∧
    rotl32 x n = rotr32 x ((32 - n % 32) % 32) ∧ rotl32 (rotl32 x n) m = rotl32 x (n + m) ∧
    rotl32 x 0 = x ∧ rotl32 x 32 = x ∧ rotl32 (x ^^^ y) n = rotl32 x n ^^^ rotl32 y n ∧
    (List.range 32).countP (rotl32 x n).getLsbD = (List.range 32).countP x.getLsbD

/-- R125 to R127: NOP does nothing, ROTL and ROTR rotate `BLK[0]` by `BLK[1]`; nothing else changes and nothing can fault. -/
def Obligations.NopRotlRotrResults : Prop :=
  ∀ s : State,
    exec .nop s = .next s ∧
    exec .rotl s = .next { s with blk := ⟨rotl32 s.blk.w0 s.blk.w1.toNat, s.blk.w1, s.blk.w2, s.blk.w3⟩ } ∧
    exec .rotr s = .next { s with blk := ⟨rotr32 s.blk.w0 s.blk.w1.toNat, s.blk.w1, s.blk.w2, s.blk.w3⟩ }

/-! ### The key schedule -/

/-- R148: MCLR leaves every byte of `MBUF` and `MLEN` zero and changes nothing else. -/
def Obligations.MclrClearsTheMaterial : Prop :=
  ∀ s : State, ∃ t, exec .mclr s = .next t ∧ (∀ a, Memory.read t.mbuf a = 0) ∧ t.mlen = 0 ∧
    t = { s with mbuf := t.mbuf, mlen := t.mlen }

/-- R97, R142: key bytes enter the key words little-endian, the last word zero-filled; no bytes give one zero word. -/
def Obligations.KeyWordsAreLittleEndian : Prop :=
  ∀ key : List Byte, (keyWords key).length = max 1 ((key.length + 3) / 4) ∧
    ∀ q < (keyWords key).length, ∀ m < 4, ((keyWords key).getD q 0).extractLsb' (8 * m) 8 = key.getD (4 * q + m) 0

/-- R98, R141: the three ranges of hexadecimal digits and their values, and a text's values digit by digit; raw material is its
own key bytes; in hex mode any byte that is no hexadecimal digit is rejected, and digits are packed two a byte, most significant
nibble first, a lone last digit high. -/
def Obligations.HexModePacksDigitPairs : Prop :=
  (∀ v : Byte, hexVal v =
    if 0x30 ≤ v.toNat ∧ v.toNat ≤ 0x39 then some (v.toNat - 0x30)
    else if 0x61 ≤ v.toNat ∧ v.toNat ≤ 0x66 then some (v.toNat - 0x61 + 10)
    else if 0x41 ≤ v.toNat ∧ v.toNat ≤ 0x46 then some (v.toNat - 0x41 + 10)
    else none) ∧
  (∀ (m : List Byte) (ds : List Nat), hexDigits m = some ds ↔
    ds.length = m.length ∧ ∀ q < m.length, hexVal (m.getD q 0) = some (ds.getD q 0)) ∧
  ∀ m : List Byte, keyBytes m false = some m ∧ (keyBytes m true = none ↔ ∃ v ∈ m, hexVal v = none) ∧
    ∀ key, keyBytes m true = some key → key.length = (m.length + 1) / 2 ∧
      ∀ q < key.length, (key.getD q 0).toNat =
        16 * ((hexVal (m.getD (2 * q) 0)).getD 0) +
          (if 2 * q + 1 < m.length then (hexVal (m.getD (2 * q + 1) 0)).getD 0 else 0)

/-- R143: the seed in closed form. -/
def Obligations.SeedHasItsClosedForm : Prop :=
  ∀ t i : Nat, (seed t).length = t ∧
    (i < t → (seed t).getD i 0 = BitVec.ofNat 32 (0xB7E15163 + i * 0x9E3779B9))

/-- R146: empty material gives the same schedule in both modes for every round count; for one round it is the six words the
rule lists. -/
def Obligations.EmptyMaterialHasOneSchedule : Prop :=
  (∀ r, genSched [] r false = genSched [] r true ∧ (genSched [] r false).isSome = true) ∧
  genSched [] 1 false = some [0x304f5316, 0x5650bbc6, 0x74713c14, 0xe22c5959, 0xa3a6e44f, 0xc6fb082d]

/-- R149: with a legal round count, material that fits and, in hex mode, only digits, GEN_SCHED puts the `2r+4` words of
`GenSched` into the bank, sets `KVALID[b]`, zeroises the material and changes nothing else. -/
def Obligations.GenSchedDerivesTheSchedule : Prop :=
  ∀ (hex : Bool) (b : BankId) (s : State),
    1 ≤ (s.bank b).rounds.toNat → (s.bank b).rounds.toNat ≤ s.params.rMax → s.mlen.toNat ≤ s.params.mMax →
    (hex = true → ∀ v ∈ s.material, hexVal v ≠ none) →
    ∃ sched, genSched s.material (s.bank b).rounds.toNat hex = some sched ∧
      sched.length = 2 * (s.bank b).rounds.toNat + 4 ∧
      exec (.genSched hex b) s =
        .next (State.setBank { s with mbuf := [], mlen := 0 } b { s.bank b with keys := sched, kvalid := true })

/-- R150: under the same conditions NONCE_DERIVE sets the counter to the zero block encrypted under the throwaway schedule,
zeroises the material and changes nothing else, the bank's own schedule included. -/
def Obligations.NonceDeriveSetsTheCounter : Prop :=
  ∀ (hex : Bool) (b : BankId) (s : State),
    1 ≤ (s.bank b).rounds.toNat → (s.bank b).rounds.toNat ≤ s.params.rMax → s.mlen.toNat ≤ s.params.mMax →
    (hex = true → ∀ v ∈ s.material, hexVal v ≠ none) →
    ∃ sx, genSched s.material (s.bank b).rounds.toNat hex = some sx ∧
      exec (.nonceDerive hex b) s =
        .next (State.setBank { s with mbuf := [], mlen := 0 } b
          { s.bank b with ctr := rc6Enc (keyAt sx) (s.bank b).rounds.toNat Block.zero })

/-- R147, R149, R150, R306: the faults of GEN_SCHED and NONCE_DERIVE and their priority. -/
def Obligations.KeyCommandsFaultInOrder : Prop :=
  ∀ (hex : Bool) (b : BankId) (s : State) (i : Instr), i = .genSched hex b ∨ i = .nonceDerive hex b →
    ((s.bank b).rounds = 0 → exec i s = .next (faultEntry .inputRounds (encode i) s)) ∧
    (s.params.rMax < (s.bank b).rounds.toNat → exec i s = .next (faultEntry .roundsUnsupported (encode i) s)) ∧
    (1 ≤ (s.bank b).rounds.toNat → (s.bank b).rounds.toNat ≤ s.params.rMax →
      (s.params.mMax < s.mlen.toNat → exec i s = .next (faultEntry .mbufOverflow (encode i) s)) ∧
      (s.mlen.toNat ≤ s.params.mMax → hex = true → (∃ v ∈ s.material, hexVal v = none) →
        exec i s = .next (faultEntry .inputHex (encode i) s)))

/-- R350: on every path, success or fault, GEN_SCHED and NONCE_DERIVE leave no key material behind. -/
def Obligations.KeyMaterialIsErasedAfterUse : Prop :=
  ∀ (hex : Bool) (b : BankId) (s : State) (i : Instr), i = .genSched hex b ∨ i = .nonceDerive hex b →
    ∃ t, exec i s = .next t ∧ t.mlen = 0 ∧ ∀ a, Memory.read t.mbuf a = 0

/-! ### The block transform -/

/-- R173: for every round count, every schedule and every block, decryption undoes encryption and encryption decryption. -/
def Obligations.TransformsAreInverse : Prop :=
  ∀ (k : Nat → Word) (r : Nat) (x : Block), rc6Dec k r (rc6Enc k r x) = x ∧ rc6Enc k r (rc6Dec k r x) = x

/-- R175, R176: with a valid schedule RC6_ENC and RC6_DEC put the block register through the transform and change nothing
else; "`RC6_ENC b` followed by `RC6_DEC b` with nothing between restores `BLK`", and the whole state; without a valid schedule
both raise `E_NOKEY` with nothing done. -/
def Obligations.Rc6CommandsTransformTheBlock : Prop :=
  ∀ (b : BankId) (s : State),
    ((s.bank b).kvalid = true →
      exec (.rc6Enc b) s =
        .next { s with blk := rc6Enc (keyAt (s.bank b).keys) (s.bank b).rounds.toNat s.blk } ∧
      exec (.rc6Dec b) s =
        .next { s with blk := rc6Dec (keyAt (s.bank b).keys) (s.bank b).rounds.toNat s.blk } ∧
      ∃ t, exec (.rc6Enc b) s = .next t ∧ exec (.rc6Dec b) t = .next s) ∧
    ((s.bank b).kvalid = false →
      exec (.rc6Enc b) s = .next (faultEntry .noKey (encode (.rc6Enc b)) s) ∧
      exec (.rc6Dec b) s = .next (faultEntry .noKey (encode (.rc6Dec b)) s))

/-! ### The hybrid mode -/

/-- R190: one counter step is `+1 mod 2^128`. -/
def Obligations.CounterStepIsPlusOne : Prop :=
  ∀ c : Block, counterValue (ctrInc c) = (counterValue c + 1) % 2 ^ 128

/-- R191, R192, R194 to R196: the results of HYB_ENC and HYB_DEC with a valid schedule and of CTR_INC always; nothing else
changes. -/
def Obligations.HybridCommandResults : Prop :=
  ∀ (b : BankId) (s : State),
    ((s.bank b).kvalid = true →
      exec (.hybEnc b) s = .next { s.setBank b { s.bank b with ctr := ctrInc (s.bank b).ctr } with
        blk := (s.bank b).enc (xorBlock s.blk ((s.bank b).enc (s.bank b).ctr)) } ∧
      exec (.hybDec b) s = .next { s.setBank b { s.bank b with ctr := ctrInc (s.bank b).ctr } with
        blk := xorBlock ((s.bank b).dec s.blk) ((s.bank b).enc (s.bank b).ctr) }) ∧
    exec (.ctrInc b) s = .next (s.setBank b { s.bank b with ctr := ctrInc (s.bank b).ctr })

/-- R193 (a): HYB_DEC under the same round count, schedule and counter, on either bank, returns the block HYB_ENC was given,
and both leave the counter one step on. -/
def Obligations.HybDecUndoesHybEnc : Prop :=
  ∀ (b d : BankId) (s t u : State), (s.bank b).kvalid = true → exec (.hybEnc b) s = .next t →
    u.blk = t.blk → u.bank d = s.bank b →
    exec (.hybDec d) u = .next ((u.setBank d (t.bank b)).setBlk s.blk)

/-! ### The container -/

/-- R99: the written round count is the shortest lower-case hexadecimal text of the number. -/
def Obligations.WrittenRoundCountIsShortestHex : Prop :=
  ∀ n : Word, n ≠ 0 →
    ∃ ds, hexDigits (hexDigitsOf n) = some ds ∧ hexValue ds = n.toNat ∧ ds.head? ≠ some 0 ∧ ds ≠ [] ∧
      ∀ v ∈ hexDigitsOf n, (0x30 ≤ v.toNat ∧ v.toNat ≤ 0x39) ∨ (0x61 ≤ v.toNat ∧ v.toNat ≤ 0x66)

/-- R211, R213: with a valid schedule and a sink that accepts, HDR_WRITE writes the magic, the version, the round count, the
counter as nonce and the password check, leaves the check in `BLK`, steps the counter once and changes nothing else. -/
def Obligations.HdrWriteEmitsTheHeader : Prop :=
  ∀ (b : BankId) (s : State), (s.bank b).kvalid = true → s.ports.sinkAccepts →
    ∃ t, exec (.hdrWrite b) s = .next t ∧
      t = ((s.setBank b { s.bank b with ctr := ctrInc (s.bank b).ctr }).setBlk ((s.bank b).seal Block.zero)).setPorts t.ports ∧
      t.ports.src = s.ports.src ∧
      t.ports.output = s.ports.output ++ (s.params.magic.toList ++ [s.params.version] ++ hexDigitsOf (s.bank b).rounds ++ [0x00]
        ++ bytesOfBlock (s.bank b).ctr ++ bytesOfBlock ((s.bank b).seal Block.zero))

/-- R100, R212: given the magic, the version, a round-count text of digits of either case with a legal value, its terminator and
16 nonce bytes, HDR_READ sets the round count and the counter, leaves the bank without a schedule, consumes exactly these bytes
and changes nothing else. That `S[b]` then is "no value" and that a count of 2^32 or more is stored modulo 2^32 are log entries
2 and 9. -/
def Obligations.HdrReadLoadsTheHeader : Prop :=
  ∀ (b : BankId) (s : State) (text nonce more : List Byte) (ds : List Nat),
    hexDigits text = some ds → ds ≠ [] → 1 ≤ hexValue ds → hexValue ds ≤ s.params.rMax → nonce.length = 16 →
    deliver s.ports.src = s.params.magic.toList ++ [s.params.version] ++ text ++ [0x00] ++ nonce ++ more →
    ∃ t, exec (.hdrRead b) s = .next t ∧
      t = (s.setBank b { rounds := BitVec.ofNat 32 (hexValue ds), ctr := blockOfBytes nonce, keys := [], kvalid := false
        }).setPorts t.ports ∧
      t.ports.src = s.ports.src.drop (26 + text.length) ∧ t.ports.snk = s.ports.snk ∧ t.ports.output = s.ports.output

/-- R212, R306: the first fault HDR_READ meets, and how much of the input it has consumed: a wrong magic byte, a wrong version, a
byte in the count that is no digit, an empty or zero count, a count above `R_MAX`. Input that ends inside the header raises
`E_IO_READ`; then `ROUNDS[b]` is written only if the count had passed its checks, and `CTR[b]` is not. That a count
of 2^32 or more, under an `R_MAX` that admits it, is stored modulo 2^32 is log entry 9 (DEDUCED). -/
def Obligations.HdrReadFaults : Prop :=
  ∀ (b : BankId) (s : State) (more : List Byte),
    let raises := fun (e : Cause) (n : Nat) => ∃ q : Ports, q.src = s.ports.src.drop n ∧ q.output = s.ports.output ∧
      exec (.hdrRead b) s = .next (faultEntry e (encode (.hdrRead b)) (s.setPorts q))
    let ends := fun (u : State) => ∃ q : Ports, q.src = afterFail s.ports.src ∧ q.output = s.ports.output ∧
      exec (.hdrRead b) s = .next (faultEntry .ioRead (encode (.hdrRead b)) (u.setPorts q))
    (∀ k v, k < 8 → v ≠ s.params.magic.toList.getD k 0 →
      deliver s.ports.src = s.params.magic.toList.take k ++ [v] ++ more → raises .fmtMagic (k + 1)) ∧
    (∀ v, v ≠ s.params.version → deliver s.ports.src = s.params.magic.toList ++ [v] ++ more → raises .fmtVersion 9) ∧
    (∀ text ds v, hexDigits text = some ds → v ≠ 0 → hexVal v = none →
      deliver s.ports.src = s.params.magic.toList ++ [s.params.version] ++ text ++ [v] ++ more →
      raises .fmtRounds (10 + text.length)) ∧
    (∀ text ds, hexDigits text = some ds → hexValue ds = 0 →
      deliver s.ports.src = s.params.magic.toList ++ [s.params.version] ++ text ++ [0x00] ++ more →
      raises .fmtRounds (10 + text.length)) ∧
    (∀ text ds, hexDigits text = some ds → s.params.rMax < hexValue ds →
      deliver s.ports.src = s.params.magic.toList ++ [s.params.version] ++ text ++ [0x00] ++ more →
      raises .roundsUnsupported (10 + text.length)) ∧
    (∀ k < 8, deliver s.ports.src = s.params.magic.toList.take k → ends s) ∧
    (∀ text ds, hexDigits text = some ds →
      (deliver s.ports.src = s.params.magic.toList ∨ deliver s.ports.src = s.params.magic.toList ++ [s.params.version] ++ text) →
      ends s) ∧
    (∀ text ds nonce, hexDigits text = some ds → 1 ≤ hexValue ds → hexValue ds ≤ s.params.rMax → nonce.length < 16 →
      deliver s.ports.src = s.params.magic.toList ++ [s.params.version] ++ text ++ [0x00] ++ nonce →
      ends (s.setBank b { s.bank b with rounds := BitVec.ofNat 32 (hexValue ds) }))

/-- R214, R213: PWC_VERIFY reads 16 bytes and compares them with the check of the bank's own schedule and counter. Equal: it
completes, the counter one step on. Different in any bit: `E_AUTH`, the counter one step on. Too few bytes: `E_IO_READ`, the
counter where it was. -/
def Obligations.PwcVerifyComparesTheCheck : Prop :=
  ∀ (b : BankId) (s : State), (s.bank b).kvalid = true →
    let stepped := s.setBank b { s.bank b with ctr := ctrInc (s.bank b).ctr }
    (∀ p more, p = bytesOfBlock ((s.bank b).seal Block.zero) → deliver s.ports.src = p ++ more →
      ∃ q, exec (.pwcVerify b) s = .next ((stepped.setBlk ((s.bank b).seal Block.zero)).setPorts q) ∧
        q.src = s.ports.src.drop 16 ∧ q.snk = s.ports.snk ∧ q.output = s.ports.output) ∧
    (∀ p more, p.length = 16 → p ≠ bytesOfBlock ((s.bank b).seal Block.zero) → deliver s.ports.src = p ++ more →
      ∃ q, exec (.pwcVerify b) s = .next (faultEntry .auth (encode (.pwcVerify b)) (stepped.setPorts q)) ∧
        q.src = s.ports.src.drop 16 ∧ q.output = s.ports.output) ∧
    ((deliver s.ports.src).length < 16 →
      ∃ q, exec (.pwcVerify b) s = .next (faultEntry .ioRead (encode (.pwcVerify b)) (s.setPorts q)) ∧
        q.src = afterFail s.ports.src ∧ q.output = s.ports.output)

/-- R211, R212, R214, R219: a header that HDR_WRITE wrote is read back by HDR_READ, which restores the round count and the nonce,
and passes PWC_VERIFY once the same schedule is in the bank, which then is where HDR_WRITE left it. -/
def Obligations.OwnHeaderIsReadBackAndAuthenticated : Prop :=
  ∀ (b d : BankId) (s u : State) (more : List Byte),
    (s.bank b).kvalid = true → s.ports.sinkAccepts → 1 ≤ (s.bank b).rounds.toNat →
    (s.bank b).rounds.toNat ≤ u.params.rMax → u.params = s.params →
    ∃ t, exec (.hdrWrite b) s = .next t ∧
      ∀ header, t.ports.output = s.ports.output ++ header → deliver u.ports.src = header ++ more →
        ∃ v, exec (.hdrRead d) u = .next v ∧ (v.bank d).rounds = (s.bank b).rounds ∧ (v.bank d).ctr = (s.bank b).ctr ∧
          ∃ w, exec (.pwcVerify d) (v.setBank d (s.bank b)) = .next w ∧ w.fault = v.fault ∧ w.bank d = t.bank b ∧
            deliver w.ports.src = more

/-- R216, R102: with a valid schedule, a length that fits and a sink that accepts, NAME_ENC writes the sealed name blocks of the
name, steps the counter once a block, leaves the last ciphertext block in `BLK` and changes nothing else, `MBUF` and `MLEN`
included. -/
def Obligations.NameEncWritesTheNameBlocks : Prop :=
  ∀ (b : BankId) (s : State), (s.bank b).kvalid = true → s.mlen.toNat ≤ s.params.mMax → s.ports.sinkAccepts →
    ∃ t, exec (.nameEnc b) s = .next t ∧
      t = ((s.setBank b ((s.bank b).advance (s.name.length / 16 + 1))).setBlk
        (((s.bank b).advance (s.name.length / 16)).seal (blockOfBytes (nameBlock s.name (s.name.length / 16))))).setPorts t.ports ∧
      t.ports.src = s.ports.src ∧ t.ports.output = s.ports.output ++ (s.bank b).sealAll (nameBlocks s.name)

/-- R217, R102: NAME_DEC on the sealed blocks of a text whose first zero byte stands in its last block, where anything may
follow it, and which fits `MBUF`: the name is what stands before that byte, `MLEN` its length, `MBUF` holds the text as
decrypted, followed by zeros, `BLK` the last block decrypted, the counter has stepped once a block, exactly these blocks are
consumed and nothing else has changed. NAME_ENC's blocks of a name are such a text, with zeros after the name. -/
def Obligations.NameDecRecoversTheName : Prop :=
  ∀ (b : BankId) (s : State) (name rest more : List Byte), (s.bank b).kvalid = true →
    (∀ v ∈ name, v ≠ 0) → 16 * (name.length / 16 + 1) ≤ s.params.mMax → name.length < 2 ^ 32 →
    (name ++ 0 :: rest).length = 16 * (name.length / 16 + 1) →
    ((∀ v ∈ rest, v = 0) → wholeBlocks (name ++ 0 :: rest) = nameBlocks name) ∧
    (deliver s.ports.src = (s.bank b).sealAll (wholeBlocks (name ++ 0 :: rest)) ++ more →
      ∃ t, exec (.nameDec b) s = .next t ∧ t.mlen.toNat = name.length ∧
        (∀ a, Memory.read t.mbuf a = (name ++ 0 :: rest).getD a 0) ∧
        t = { ((s.setBank b ((s.bank b).advance (name.length / 16 + 1))).setBlk
          (blockOfBytes ((name ++ 0 :: rest).drop (16 * (name.length / 16))))).setPorts t.ports with mbuf := t.mbuf, mlen := t.mlen } ∧
        t.ports.src = s.ports.src.drop (16 * (name.length / 16 + 1)) ∧ t.ports.snk = s.ports.snk ∧
        t.ports.output = s.ports.output)

/-- R217: what ends NAME_DEC without a name. After `n` blocks that decrypt to no zero byte: if the next block does not fit
`MBUF`, `E_MBUF_OVERFLOW` with nothing more read; if it fits and the input ends before it is whole, `E_IO_READ`. -/
def Obligations.NameDecFaults : Prop :=
  ∀ (b : BankId) (s : State) (n : Nat), (s.bank b).kvalid = true → 16 * n ≤ s.params.mMax →
    16 * n ≤ (deliver s.ports.src).length →
    (∀ p ∈ (s.bank b).unsealAll (wholeBlocks ((deliver s.ports.src).take (16 * n))), ∀ v ∈ p, v ≠ 0) →
    (s.params.mMax < 16 * n + 16 →
      ∃ q, exec (.nameDec b) s = .next (faultEntry .mbufOverflow (encode (.nameDec b))
        ((s.setBank b ((s.bank b).advance n)).setPorts q)) ∧ q.src = s.ports.src.drop (16 * n)) ∧
    (16 * n + 16 ≤ s.params.mMax → (deliver s.ports.src).length < 16 * n + 16 →
      ∃ q, exec (.nameDec b) s = .next (faultEntry .ioRead (encode (.nameDec b))
        ((s.setBank b ((s.bank b).advance n)).setPorts q)) ∧ q.src = afterFail s.ports.src)

/-! ### The streams -/

/-- R251, R250: READ_BLOCK on 16 bytes or more, and on fewer before the `FAIL`; and R95, how a block stands for 16 bytes: byte
`4k+m` is bits `8m+7:8m` of word `k`, and the two conversions are inverse to each other (R96 uses the same two for the nonce). -/
def Obligations.ReadBlockFillsAndPads : Prop :=
  (∀ x : Block, (bytesOfBlock x).length = 16 ∧ blockOfBytes (bytesOfBlock x) = x ∧
    ∀ k < 4, ∀ m < 4, (bytesOfBlock x).getD (4 * k + m) 0 = ([x.w0, x.w1, x.w2, x.w3].getD k 0).extractLsb' (8 * m) 8) ∧
  (∀ p : List Byte, p.length = 16 → bytesOfBlock (blockOfBytes p) = p) ∧
  ∀ s : State, ∃ q, q.snk = s.ports.snk ∧ q.output = s.ports.output ∧
    (16 ≤ (deliver s.ports.src).length → q.src = s.ports.src.drop 16 ∧
      exec .readBlock s =
        .next (State.setPorts { s with blk := blockOfBytes ((deliver s.ports.src).take 16), final := false } q)) ∧
    ((deliver s.ports.src).length < 16 → q.src = afterFail s.ports.src ∧
      exec .readBlock s =
        .next (State.setPorts { s with blk := blockOfBytes (padBlock (deliver s.ports.src)), final := true } q))

/-- R252: padding is the marker 0x80 and zeros to the end of the block, trimming undoes it for every content; trimming drops the
last nonzero byte whatever it is, with what follows it; only a block of zeros cannot be trimmed. -/
def Obligations.TrimUndoesPad : Prop :=
  (∀ p : List Byte, p.length < 16 →
    padBlock p = p ++ 0x80 :: List.replicate (15 - p.length) 0 ∧ (padBlock p).length = 16 ∧ trim (padBlock p) = some p) ∧
  (∀ d : List Byte, trim d = none ↔ ∀ v ∈ d, v = 0) ∧
  (∀ d r : List Byte, trim d = some r ↔ ∃ v n, v ≠ 0 ∧ d = r ++ v :: List.replicate n 0)

/-- R253: TRIM_EMIT writes the trimmed block and changes nothing else; a block of zeros raises `E_FMT_PAD`. -/
def Obligations.TrimEmitWritesTheTrimmedBlock : Prop :=
  ∀ s : State,
    (∀ d, trim (bytesOfBlock s.blk) = some d → s.ports.sinkAccepts →
      ∃ q, exec .trimEmit s = .next (s.setPorts q) ∧ q.src = s.ports.src ∧ q.output = s.ports.output ++ d) ∧
    (s.blk = Block.zero → exec .trimEmit s = .next (faultEntry .fmtPad (encode .trimEmit) s))

/-- R254, R103: with a valid schedule and a sink that accepts, ENC_STREAM writes the sealed padded blocks of everything the
source delivers, `floor(n/16) + 1` of them and so `16 * (floor(n/16) + 1)` bytes, consumes the input and its `FAIL`, ends with
`FINAL = 1` and the last ciphertext block in `BLK`, and changes nothing else. -/
def Obligations.EncStreamSealsThePaddedInput : Prop :=
  ∀ (b : BankId) (s : State), (s.bank b).kvalid = true → s.ports.sinkAccepts →
    let p := deliver s.ports.src
    ∃ t, exec (.encStream b) s = .next t ∧
      t.ports.output = s.ports.output ++ (s.bank b).sealAll (paddedBlocks p) ∧
      ((s.bank b).sealAll (paddedBlocks p)).length = 16 * (p.length / 16 + 1) ∧ t.ports.src = afterFail s.ports.src ∧
      t = ({ s.setBank b ((s.bank b).advance (p.length / 16 + 1)) with final := true }.setBlk
        (((s.bank b).advance (p.length / 16)).seal (blockOfBytes (padBlock (p.drop (16 * (p.length / 16))))))).setPorts t.ports

/-- R255: with a valid schedule and a sink that accepts, DEC_STREAM writes every whole block but the last as decrypted and the
last one trimmed, drops 1 to 15 stray bytes, leaves the last block untrimmed in `BLK` and changes nothing else; a last block of
zeros raises `E_FMT_PAD`, an input without a whole block `E_IO_READ`. -/
def Obligations.DecStreamUnsealsAndTrims : Prop :=
  ∀ (b : BankId) (s : State), (s.bank b).kvalid = true → s.ports.sinkAccepts →
    let n := (deliver s.ports.src).length / 16
    let ps := (s.bank b).unsealAll (wholeBlocks (deliver s.ports.src))
    let last := ps.getD (n - 1) []
    (1 ≤ n → ∀ d, trim last = some d →
      ∃ t, exec (.decStream b) s = .next t ∧ t.ports.output = s.ports.output ++ (ps.take (n - 1)).flatten ++ d ∧
        t.ports.src = afterFail s.ports.src ∧
        t = ((s.setBank b ((s.bank b).advance n)).setBlk (blockOfBytes last)).setPorts t.ports) ∧
    (1 ≤ n → trim last = none →
      ∃ q, exec (.decStream b) s = .next (faultEntry .fmtPad (encode (.decStream b))
        ((s.setBank b ((s.bank b).advance n)).setPorts q)) ∧
        q.output = s.ports.output ++ (ps.take (n - 1)).flatten ∧ q.src = afterFail s.ports.src) ∧
    (n = 0 →
      ∃ q, exec (.decStream b) s = .next (faultEntry .ioRead (encode (.decStream b)) (s.setPorts q)) ∧
        q.output = s.ports.output ∧ q.src = afterFail s.ports.src)

/-- R257 (a): what ENC_STREAM writes for any plaintext, the empty one included, DEC_STREAM turns back into exactly that plaintext,
whatever 1 to 15 bytes follow, on a bank with the same round count, schedule and starting counter. -/
def Obligations.DecStreamRecoversThePlaintext : Prop :=
  ∀ (b d : BankId) (s u : State) (stray : List Byte),
    (s.bank b).kvalid = true → s.ports.sinkAccepts → u.ports.sinkAccepts → u.bank d = s.bank b → stray.length < 16 →
    ∃ t, exec (.encStream b) s = .next t ∧
      ∀ out, t.ports.output = s.ports.output ++ out → deliver u.ports.src = out ++ stray →
        ∃ v, exec (.decStream d) u = .next v ∧ v.ports.output = u.ports.output ++ deliver s.ports.src ∧
          v.bank d = t.bank b ∧ v.fault = u.fault

/-- R256: with both schedules valid and a sink that accepts, REENC_STREAM writes, for every whole block of the input, the block
decrypted under bank 0 and encrypted under bank 1, drops 1 to 15 stray bytes, steps both counters once a block, leaves the
last re-encrypted block in `BLK` and changes nothing else; no whole block is no error and leaves `BLK`. -/
def Obligations.ReencStreamRekeysEveryBlock : Prop :=
  ∀ s : State, s.bank0.kvalid = true → s.bank1.kvalid = true → s.ports.sinkAccepts →
    let cs := wholeBlocks (deliver s.ports.src)
    ∃ t, exec .reencStream s = .next t ∧
      t.ports.output = s.ports.output ++ s.bank1.sealAll (s.bank0.unsealAll cs) ∧ t.ports.src = afterFail s.ports.src ∧
      t = { s with bank0 := s.bank0.advance cs.length, bank1 := s.bank1.advance cs.length, blk := t.blk, ports := t.ports } ∧
      (cs = [] → t.blk = s.blk) ∧
      (∀ n, cs.length = n + 1 →
        t.blk = (s.bank1.advance n).seal ((s.bank0.advance n).unseal (blockOfBytes (cs.getD n []))))

/-- R257 (d): re-encrypting what bank 0 sealed gives what bank 1 would have sealed from the same blocks. -/
def Obligations.ReencryptionEqualsEncryption : Prop :=
  ∀ (s : State) (ps : List (List Byte)) (stray : List Byte),
    s.bank0.kvalid = true → s.bank1.kvalid = true → s.ports.sinkAccepts → (∀ p ∈ ps, p.length = 16) → stray.length < 16 →
    deliver s.ports.src = s.bank0.sealAll ps ++ stray →
    ∃ t, exec .reencStream s = .next t ∧ t.ports.output = s.ports.output ++ s.bank1.sealAll ps

/-- R37, R255: DEC_STREAM hands the sink no byte of plaintext block `N`, counted from 0, before the source has delivered all 16
bytes of block `N+1`, so `N+2` whole blocks, or has answered `FAIL`. -/
def Obligations.DecStreamWritesOnlyAfterLookahead : Prop :=
  ∀ (b : BankId) (s t : State) (pre post : List PortEvent) (v : Byte), exec (.decStream b) s = .next t →
    t.ports.trace = s.ports.trace ++ pre ++ .write v :: post →
    .readFail ∈ pre ∨ 16 * (bytesWritten pre / 16 + 2) ≤ bytesRead pre

/-- R69: after a `FAIL` of the source no command reads again. -/
def Obligations.NoCommandReadsAfterFail : Prop :=
  ∀ (i : Instr) (s t : State) (pre post : List PortEvent), exec i s = .next t →
    t.ports.trace = s.ports.trace ++ pre ++ .readFail :: post →
    .readFail ∉ post ∧ ∀ v, .read v ∉ post

/-- R70: a `FAIL` of the sink raises `E_IO_WRITE` there and then: it is the command's last port operation, and what the sink
accepted before stays. -/
def Obligations.SinkFailureEndsTheCommand : Prop :=
  ∀ (i : Instr) (s t : State) (pre post : List PortEvent) (v : Byte), exec i s = .next t →
    t.ports.trace = s.ports.trace ++ pre ++ .writeFail v :: post →
    post = [] ∧ t.fault = true ∧ t.cause = causeWord .ioWrite (encode i)

/-! ### Faults -/

/-- R303: the state right after `raise E_X` in the execution of command word `c`. -/
def Obligations.FaultEntryState : Prop :=
  ∀ (e : Cause) (c : Word) (s : State), let t := faultEntry e c s
    t.fault = true ∧ t.cause.extractLsb' 0 8 = causeCode e ∧ t.cause.extractLsb' 8 8 = c.extractLsb' 0 8 ∧
    t.cause.getLsbD 16 = c.getLsbD 9 ∧ t.cause.getLsbD 17 = c.getLsbD 8 ∧ t.cause.extractLsb' 18 14 = 0 ∧
    (∀ a, Memory.read t.mbuf a = 0) ∧ t.mlen = 0 ∧ t.blk = ⟨0, 0, 0, 0⟩ ∧ t.final = false ∧
    (∀ b, (t.bank b).kvalid = false ∧ (t.bank b).rounds = (s.bank b).rounds ∧ (t.bank b).ctr = (s.bank b).ctr) ∧
    t.ports = s.ports

/-- R24, R25, R301: a command that needs a schedule its bank does not have raises `E_NOKEY` before it does anything. -/
def Obligations.CommandsWithoutScheduleRaiseNoKey : Prop :=
  ∀ (i : Instr) (s : State), (∃ b ∈ keyedBanks i, (s.bank b).kvalid = false) →
    exec i s = .next (faultEntry .noKey (encode i) s)

/-- R41, R310, R303: every command ends (for the stream commands because a source that is used up answers `FAIL`, log entry 4,
DESIGN CHOICE: R347 makes the finite input the host's duty); on success it has changed nothing but what its row of R41 lists; if
it raises, it raises one of the faults of its row of R310, having changed nothing but what its row of R41 lists, and the fault
entry follows. Where the row lists `KVALID[b]`, `S[b]` may lose its value with it (the model's choice, log entry 2). -/
def Obligations.CommandsChangeOnlyTheirRow : Prop :=
  ∀ (i : Instr) (s : State), ∃ u, changesOnlyRow i s u ∧
    (exec i s = .next u ∨ ∃ e ∈ faultsOf i, exec i s = .next (faultEntry e (encode i) u))

/-- R21: a command on bank `b` reads nothing of the other bank and changes nothing of it but, if it raises, its validity: with
another content of the other bank it does the same to everything else. -/
def Obligations.BanksShareNothing : Prop :=
  ∀ (i : Instr) (b : BankId) (s t u : State) (k : Bank), bankUsed i = some b → exec i s = .next t →
    exec i (s.setBank b.other k) = .next u →
    u = t.setBank b.other (u.bank b.other) ∧
      (u.bank b.other = k ∨ u.fault = true ∧ u.bank b.other = k.invalidate)

/-- R68, R304: in the fault state every register can be read, and every write is ignored but SRESET's word to `CMD`. -/
def Obligations.FaultStateIgnoresWrites : Prop :=
  ∀ s : State, s.fault = true → ∀ (off : Nat) (r : Reg), off % 4 = 0 → regAt s.params.mMax off = some r →
    hostRead off 4 s = .next { s with rdata := some (regRead r s) } ∧
    ∀ v, ¬ (r = .cmd ∧ v = 0x000000FF) → hostWrite off 4 v s = .next s

/-! ### The register window -/

/-- R35, R65, R32, R78: the host's read at the offset of each register returns that register and changes nothing else, and
outside the fault state its write stores there; registers that can be written read back what was written, the read-only ones
ignore a write, `CMD` reads 0. The two lists say of each offset but `ROUNDSb`'s writes (RoundsWriteEndsTheSession) and
`MBUF_n`'s (MbufWindowIsLittleEndian) what stands there. STATUS shows the four flags, and the reserved bits of STATUS (in every
state) and of CAUSE (in every state a run can be in) read 0. -/
def Obligations.RegistersReadBack : Prop :=
  ∀ (s : State) (v : Word),
    (∀ r : Reg, r.present s.params.mMax →
      hostRead r.offset 4 s = .next { s with rdata := some (regRead r s) } ∧
      (s.fault = false → r ≠ .cmd → hostWrite r.offset 4 v s = .next (regWrite r v s)) ∧
      (s.fault = false → r ≠ .cmd → r ≠ .status → r ≠ .cause → Memory.wf s.mbuf = true →
        ∃ t, hostWrite r.offset 4 v s = .next t ∧ hostRead r.offset 4 t = .next { t with rdata := some v })) ∧
    (∀ place ∈ [(0x000, 0), (0x008, s.cause), (0x010, s.bank0.rounds), (0x014, s.bank1.rounds), (0x018, s.mlen),
        (0x020, s.bank0.ctr.w0), (0x024, s.bank0.ctr.w1), (0x028, s.bank0.ctr.w2), (0x02C, s.bank0.ctr.w3),
        (0x030, s.bank1.ctr.w0), (0x034, s.bank1.ctr.w1), (0x038, s.bank1.ctr.w2), (0x03C, s.bank1.ctr.w3),
        (0x040, s.blk.w0), (0x044, s.blk.w1), (0x048, s.blk.w2), (0x04C, s.blk.w3)],
      hostRead place.1 4 s = .next { s with rdata := some place.2 }) ∧
    (s.fault = false → ∀ place ∈ [(0x018, { s with mlen := v }),
        (0x020, { s with bank0 := { s.bank0 with ctr := { s.bank0.ctr with w0 := v } } }),
        (0x024, { s with bank0 := { s.bank0 with ctr := { s.bank0.ctr with w1 := v } } }),
        (0x028, { s with bank0 := { s.bank0 with ctr := { s.bank0.ctr with w2 := v } } }),
        (0x02C, { s with bank0 := { s.bank0 with ctr := { s.bank0.ctr with w3 := v } } }),
        (0x030, { s with bank1 := { s.bank1 with ctr := { s.bank1.ctr with w0 := v } } }),
        (0x034, { s with bank1 := { s.bank1 with ctr := { s.bank1.ctr with w1 := v } } }),
        (0x038, { s with bank1 := { s.bank1 with ctr := { s.bank1.ctr with w2 := v } } }),
        (0x03C, { s with bank1 := { s.bank1 with ctr := { s.bank1.ctr with w3 := v } } }),
        (0x040, { s with blk := { s.blk with w0 := v } }), (0x044, { s with blk := { s.blk with w1 := v } }),
        (0x048, { s with blk := { s.blk with w2 := v } }), (0x04C, { s with blk := { s.blk with w3 := v } })],
      hostWrite place.1 4 v s = .next place.2) ∧
    (hostWrite 0x004 4 v s = .next s ∧ hostWrite 0x008 4 v s = .next s) ∧
    (∃ w, hostRead 0x004 4 s = .next { s with rdata := some w } ∧ w.getLsbD 0 = s.fault ∧ w.getLsbD 1 = s.final ∧
      w.getLsbD 2 = s.bank0.kvalid ∧ w.getLsbD 3 = s.bank1.kvalid ∧ w.extractLsb' 4 28 = 0) ∧
    (s.Inv → (regRead .cause s).extractLsb' 18 14 = 0)

/-- R66: a host write to one register other than `CMD` (which performs a command) changes what the host reads from no other
register, but for STATUS after a write to `ROUNDSb` (R67). -/
def Obligations.RegisterWritesAreIndependent : Prop :=
  ∀ (s : State) (r q : Reg) (v : Word), s.fault = false → Memory.wf s.mbuf = true →
    r.present s.params.mMax → q.present s.params.mMax → r ≠ .cmd → r ≠ q → (q = .status → ∀ b, r ≠ .rounds b) →
    ∃ t, hostWrite r.offset 4 v s = .next t ∧ hostRead q.offset 4 t = .next { t with rdata := some (regRead q s) }

/-- R67: a host write of any value to `ROUNDSb` stores it and clears `KVALID[b]`. -/
def Obligations.RoundsWriteEndsTheSession : Prop :=
  ∀ (s : State) (v : Word), s.fault = false →
    ∃ t u, hostWrite 0x010 4 v s = .next t ∧ hostWrite 0x014 4 v s = .next u ∧
      t.bank0.rounds = v ∧ t.bank0.kvalid = false ∧ t.bank0.ctr = s.bank0.ctr ∧ t = { s with bank0 := t.bank0 } ∧
      u.bank1.rounds = v ∧ u.bank1.kvalid = false ∧ u.bank1.ctr = s.bank1.ctr ∧ u = { s with bank1 := u.bank1 }

/-- R63, R64, R78: an access at byte address `BASE + off` is the access at window offset `off` (log entry 13); one that is not
an aligned 32-bit one, or that is at a reserved offset or beyond the end, is refused, and every other access in the window gets
a next state. -/
def Obligations.OnlyAlignedRegisterAccessesAreAdmitted : Prop :=
  ∀ (s : State) (off n : Nat) (v : Word),
    (memRead (s.params.base + off) n s = hostRead off n s ∧ memWrite (s.params.base + off) n v s = hostWrite off n v s) ∧
    ((n ≠ 4 ∨ off % 4 ≠ 0) → hostRead off n s = .refused .notAligned32 ∧ hostWrite off n v s = .refused .notAligned32) ∧
    (n = 4 → off % 4 = 0 → s.params.mMax % 4 = 0 →
      (off = 0x00C ∨ off = 0x01C ∨ (0x050 ≤ off ∧ off ≤ 0x3FC) ∨ 0x400 + s.params.mMax ≤ off →
        hostRead off n s = .refused .reservedOffset ∧ hostWrite off n v s = .refused .reservedOffset) ∧
      (¬ (off = 0x00C ∨ off = 0x01C ∨ (0x050 ≤ off ∧ off ≤ 0x3FC) ∨ 0x400 + s.params.mMax ≤ off) →
        (∃ t, hostRead off n s = .next t) ∧ ∃ t, hostWrite off n v s = .next t))

/-- R62: the word at offset `0x400 + 4n` is `MBUF[4n..4n+3]`, lowest byte first; a write stores its four bytes and leaves every
other byte. -/
def Obligations.MbufWindowIsLittleEndian : Prop :=
  ∀ (s : State) (n : Nat) (v : Word), Memory.wf s.mbuf = true → s.fault = false → 4 * n + 4 ≤ s.params.mMax →
    (∃ w, hostRead (0x400 + 4 * n) 4 s = .next { s with rdata := some w } ∧
      ∀ m < 4, w.extractLsb' (8 * m) 8 = Memory.read s.mbuf (4 * n + m)) ∧
    ∃ t, hostWrite (0x400 + 4 * n) 4 v s = .next t ∧ t = { s with mbuf := t.mbuf } ∧
      ∀ a, Memory.read t.mbuf a = if 4 * n ≤ a ∧ a < 4 * n + 4 then v.extractLsb' (8 * (a - 4 * n)) 8 else Memory.read s.mbuf a

/-- R285: `LOADM x` outside the fault state, for material that fits, is a sequence of host accesses after which the material is
`x` and nothing but `MBUF` and `MLEN` has changed. -/
def Obligations.LoadmPlacesTheMaterial : Prop :=
  ∀ (s : State) (x : List Byte), s.fault = false → Memory.wf s.mbuf = true → s.params.mMax % 4 = 0 → x.length ≤ s.params.mMax →
    x.length < 2 ^ 32 →
    ∃ t, hostEvents (loadMaterial x) s = .next t ∧ t.material = x ∧ t = { s with mbuf := t.mbuf, mlen := t.mlen } ∧
      t.mlen.toNat = x.length

/-- R24, R309: the round keys are in no address space the host can read: what any read returns does not depend on them. -/
def Obligations.NoReadReturnsRoundKeys : Prop :=
  ∀ (s : State) (b : BankId) (keys : List Word) (r : Reg),
    regRead r (s.setBank b { s.bank b with keys := keys }) = regRead r s

/-! ### Reset -/

/-- R38: the state after reset; `S[b]` has no value (log entry 2), and the implementation's parameters meet R7's constraints (by
their construction, log entry 3). -/
def Obligations.StateAfterReset : Prop :=
  let s := State.reset
  (∀ b, (s.bank b).rounds = 0 ∧ (s.bank b).ctr = ⟨0, 0, 0, 0⟩ ∧ (s.bank b).kvalid = false) ∧ s.blk = ⟨0, 0, 0, 0⟩ ∧
  (∀ a, Memory.read s.mbuf a = 0) ∧ s.mlen = 0 ∧ s.final = false ∧ s.fault = false ∧ s.cause = 0 ∧
  (∀ b, (s.bank b).keys = []) ∧ Params.wellFormed s.params = true

/-- R342, R340, R341: SRESET, from the fault state too, and the hardware reset put every piece of the engine's state to its reset
value, and leave the ports, the parameters and the host's coming events. -/
def Obligations.ResetsGiveTheResetState : Prop :=
  ∀ s : State, ∃ t, exec .sreset s = .next t ∧ hostEvent .reset s = .next t ∧ execute 0x000000FF s = .next t ∧
    t.sameEngine State.reset ∧ t.ports = s.ports ∧ t.params = s.params ∧ t.host = s.host

/-- R341, U15: a hardware reset in the middle of a command leaves the reset state, with the first `k` of the command's port
operations done and no other; `k` beyond their number means all (the model's form, log entry 11). -/
def Obligations.ResetDuringACommand : Prop :=
  ∀ (c : Word) (k : Nat) (s : State), ∃ t u traffic, execute c s = .next u ∧ hostEvent (.resetDuring c k) s = .next t ∧
    t.sameEngine State.reset ∧ t.params = s.params ∧ t.host = s.host ∧
    u.ports.trace = s.ports.trace ++ traffic ∧ t.ports.trace = s.ports.trace ++ traffic.take k ∧
    (k = 0 → t.ports = s.ports) ∧ (traffic.length ≤ k → t.ports = u.ports)

/-- The reset state meets the invariant (R38, R39; `S[b]` as "no value" is log entry 2). -/
def Obligations.ResetMeetsTheInvariant : Prop := State.reset.Inv

/-- R39, R24, R29, R303 and the canonical form of `MBUF`: every step keeps the invariant. That a bank with
`KVALID[b] = 0` holds no schedule is the model's choice (log entry 2). -/
def Obligations.EveryStepKeepsTheInvariant : Prop :=
  ∀ s t : State, s.Inv → step s = .next t → t.Inv
end

