-- ==== Sys2Proof/Laws/State.lean ====
section
/-!
SUPPORT. One lemma per field per update of the state, so that no later proof unfolds a record update.
-/

namespace Sys2Proof.Machine

/-! ### `setBank` -/

@[simp] theorem bank_setBank_same (s : State) (b : BankId) (k : Bank) : (s.setBank b k).bank b = k := by
  cases b <;> rfl
@[simp] theorem bank_setBank_other (s : State) (b : BankId) (k : Bank) : (s.setBank b k).bank b.other = s.bank b.other := by
  cases b <;> rfl
@[simp] theorem bank_setBank_of_other (s : State) (b : BankId) (k : Bank) : (s.setBank b.other k).bank b = s.bank b := by
  cases b <;> rfl
@[simp] theorem bank_b0 (s : State) : s.bank .b0 = s.bank0 := rfl
@[simp] theorem bank_b1 (s : State) : s.bank .b1 = s.bank1 := rfl
@[simp] theorem setBank_blk (s : State) (b : BankId) (k : Bank) : (s.setBank b k).blk = s.blk := by cases b <;> rfl
@[simp] theorem setBank_mbuf (s : State) (b : BankId) (k : Bank) : (s.setBank b k).mbuf = s.mbuf := by cases b <;> rfl
@[simp] theorem setBank_mlen (s : State) (b : BankId) (k : Bank) : (s.setBank b k).mlen = s.mlen := by cases b <;> rfl
@[simp] theorem setBank_final (s : State) (b : BankId) (k : Bank) : (s.setBank b k).final = s.final := by cases b <;> rfl
@[simp] theorem setBank_fault (s : State) (b : BankId) (k : Bank) : (s.setBank b k).fault = s.fault := by cases b <;> rfl
@[simp] theorem setBank_cause (s : State) (b : BankId) (k : Bank) : (s.setBank b k).cause = s.cause := by cases b <;> rfl
@[simp] theorem setBank_params (s : State) (b : BankId) (k : Bank) : (s.setBank b k).params = s.params := by cases b <;> rfl
@[simp] theorem setBank_ports (s : State) (b : BankId) (k : Bank) : (s.setBank b k).ports = s.ports := by cases b <;> rfl
@[simp] theorem setBank_host (s : State) (b : BankId) (k : Bank) : (s.setBank b k).host = s.host := by cases b <;> rfl
@[simp] theorem setBank_rdata (s : State) (b : BankId) (k : Bank) : (s.setBank b k).rdata = s.rdata := by cases b <;> rfl
@[simp] theorem setBank_material (s : State) (b : BankId) (k : Bank) : (s.setBank b k).material = s.material := by
  cases b <;> rfl
@[simp] theorem setBank_setBank (s : State) (b : BankId) (k l : Bank) : (s.setBank b k).setBank b l = s.setBank b l := by
  cases b <;> rfl
@[simp] theorem setBank_bank (s : State) (b : BankId) : s.setBank b (s.bank b) = s := by cases b <;> rfl

/-! ### `setBlk` -/

@[simp] theorem setBlk_bank0 (s : State) (y : Block) : (s.setBlk y).bank0 = s.bank0 := rfl
@[simp] theorem setBlk_bank1 (s : State) (y : Block) : (s.setBlk y).bank1 = s.bank1 := rfl
@[simp] theorem setBlk_blk (s : State) (y : Block) : (s.setBlk y).blk = y := rfl
@[simp] theorem setBlk_mbuf (s : State) (y : Block) : (s.setBlk y).mbuf = s.mbuf := rfl
@[simp] theorem setBlk_mlen (s : State) (y : Block) : (s.setBlk y).mlen = s.mlen := rfl
@[simp] theorem setBlk_final (s : State) (y : Block) : (s.setBlk y).final = s.final := rfl
@[simp] theorem setBlk_fault (s : State) (y : Block) : (s.setBlk y).fault = s.fault := rfl
@[simp] theorem setBlk_cause (s : State) (y : Block) : (s.setBlk y).cause = s.cause := rfl
@[simp] theorem setBlk_params (s : State) (y : Block) : (s.setBlk y).params = s.params := rfl
@[simp] theorem setBlk_ports (s : State) (y : Block) : (s.setBlk y).ports = s.ports := rfl
@[simp] theorem setBlk_host (s : State) (y : Block) : (s.setBlk y).host = s.host := rfl
@[simp] theorem setBlk_rdata (s : State) (y : Block) : (s.setBlk y).rdata = s.rdata := rfl
@[simp] theorem setBlk_bank (s : State) (y : Block) (b : BankId) : (s.setBlk y).bank b = s.bank b := by cases b <;> rfl
@[simp] theorem setBlk_material (s : State) (y : Block) : (s.setBlk y).material = s.material := rfl
@[simp] theorem setBlk_setBlk (s : State) (y x : Block) : (s.setBlk y).setBlk x = s.setBlk x := rfl
@[simp] theorem setBlk_setBank (s : State) (y : Block) (b : BankId) (k : Bank) :
    (s.setBlk y).setBank b k = (s.setBank b k).setBlk y := by cases b <;> rfl

/-! ### `setPorts` -/

@[simp] theorem setPorts_bank0 (s : State) (p : Ports) : (s.setPorts p).bank0 = s.bank0 := rfl
@[simp] theorem setPorts_bank1 (s : State) (p : Ports) : (s.setPorts p).bank1 = s.bank1 := rfl
@[simp] theorem setPorts_blk (s : State) (p : Ports) : (s.setPorts p).blk = s.blk := rfl
@[simp] theorem setPorts_mbuf (s : State) (p : Ports) : (s.setPorts p).mbuf = s.mbuf := rfl
@[simp] theorem setPorts_mlen (s : State) (p : Ports) : (s.setPorts p).mlen = s.mlen := rfl
@[simp] theorem setPorts_final (s : State) (p : Ports) : (s.setPorts p).final = s.final := rfl
@[simp] theorem setPorts_fault (s : State) (p : Ports) : (s.setPorts p).fault = s.fault := rfl
@[simp] theorem setPorts_cause (s : State) (p : Ports) : (s.setPorts p).cause = s.cause := rfl
@[simp] theorem setPorts_params (s : State) (p : Ports) : (s.setPorts p).params = s.params := rfl
@[simp] theorem setPorts_ports (s : State) (p : Ports) : (s.setPorts p).ports = p := rfl
@[simp] theorem setPorts_host (s : State) (p : Ports) : (s.setPorts p).host = s.host := rfl
@[simp] theorem setPorts_rdata (s : State) (p : Ports) : (s.setPorts p).rdata = s.rdata := rfl
@[simp] theorem setPorts_bank (s : State) (p : Ports) (b : BankId) : (s.setPorts p).bank b = s.bank b := by cases b <;> rfl
@[simp] theorem setPorts_material (s : State) (p : Ports) : (s.setPorts p).material = s.material := rfl
@[simp] theorem setPorts_setPorts (s : State) (p x : Ports) : (s.setPorts p).setPorts x = s.setPorts x := rfl
@[simp] theorem setPorts_setBank (s : State) (p : Ports) (b : BankId) (k : Bank) :
    (s.setPorts p).setBank b k = (s.setBank b k).setPorts p := by cases b <;> rfl
@[simp] theorem setPorts_setBlk (s : State) (p : Ports) (y : Block) : (s.setPorts p).setBlk y = (s.setBlk y).setPorts p := rfl
@[simp] theorem setPorts_ports_self (s : State) : s.setPorts s.ports = s := rfl
@[simp] theorem setBlk_blk_self (s : State) : s.setBlk s.blk = s := rfl

/-! ### An update of another field does not touch the banks -/

@[simp] theorem bank_mbuf_update (s : State) (b : BankId) (m : List Host.Cell) :
    State.bank { s with mbuf := m } b = s.bank b := by cases b <;> rfl
@[simp] theorem bank_mlen_update (s : State) (b : BankId) (n : Word) : State.bank { s with mlen := n } b = s.bank b := by
  cases b <;> rfl
@[simp] theorem bank_final_update (s : State) (b : BankId) (f : Bool) : State.bank { s with final := f } b = s.bank b := by
  cases b <;> rfl
@[simp] theorem bank_host_update (s : State) (b : BankId) (h : List HostEvent) :
    State.bank { s with host := h } b = s.bank b := by cases b <;> rfl
@[simp] theorem bank_rdata_update (s : State) (b : BankId) (r : Option Word) :
    State.bank { s with rdata := r } b = s.bank b := by cases b <;> rfl

/-! ### `Bank.invalidate` -/

@[simp] theorem invalidate_rounds (k : Bank) : k.invalidate.rounds = k.rounds := rfl
@[simp] theorem invalidate_ctr (k : Bank) : k.invalidate.ctr = k.ctr := rfl
@[simp] theorem invalidate_keys (k : Bank) : k.invalidate.keys = [] := rfl
@[simp] theorem invalidate_kvalid (k : Bank) : k.invalidate.kvalid = false := rfl

/-! ### `clearMaterial` -/

@[simp] theorem clearMaterial_bank (s : State) (b : BankId) : s.clearMaterial.bank b = s.bank b := by cases b <;> rfl
@[simp] theorem clearMaterial_blk (s : State) : s.clearMaterial.blk = s.blk := rfl
@[simp] theorem clearMaterial_mbuf (s : State) : s.clearMaterial.mbuf = [] := rfl
@[simp] theorem clearMaterial_mlen (s : State) : s.clearMaterial.mlen = 0 := rfl
@[simp] theorem clearMaterial_final (s : State) : s.clearMaterial.final = s.final := rfl
@[simp] theorem clearMaterial_fault (s : State) : s.clearMaterial.fault = s.fault := rfl
@[simp] theorem clearMaterial_cause (s : State) : s.clearMaterial.cause = s.cause := rfl
@[simp] theorem clearMaterial_params (s : State) : s.clearMaterial.params = s.params := rfl
@[simp] theorem clearMaterial_ports (s : State) : s.clearMaterial.ports = s.ports := rfl
@[simp] theorem clearMaterial_host (s : State) : s.clearMaterial.host = s.host := rfl
@[simp] theorem clearMaterial_rdata (s : State) : s.clearMaterial.rdata = s.rdata := rfl

/-! ### `faultEntry` (R303) -/

@[simp] theorem faultEntry_fault (e : Cause) (c : Word) (s : State) : (faultEntry e c s).fault = true := rfl
@[simp] theorem faultEntry_cause (e : Cause) (c : Word) (s : State) : (faultEntry e c s).cause = causeWord e c := rfl
@[simp] theorem faultEntry_mbuf (e : Cause) (c : Word) (s : State) : (faultEntry e c s).mbuf = [] := rfl
@[simp] theorem faultEntry_mlen (e : Cause) (c : Word) (s : State) : (faultEntry e c s).mlen = 0 := rfl
@[simp] theorem faultEntry_blk (e : Cause) (c : Word) (s : State) : (faultEntry e c s).blk = Block.zero := rfl
@[simp] theorem faultEntry_final (e : Cause) (c : Word) (s : State) : (faultEntry e c s).final = false := rfl
@[simp] theorem faultEntry_bank (e : Cause) (c : Word) (s : State) (b : BankId) :
    (faultEntry e c s).bank b = (s.bank b).invalidate := by cases b <;> rfl
@[simp] theorem faultEntry_bank0 (e : Cause) (c : Word) (s : State) : (faultEntry e c s).bank0 = s.bank0.invalidate := rfl
@[simp] theorem faultEntry_bank1 (e : Cause) (c : Word) (s : State) : (faultEntry e c s).bank1 = s.bank1.invalidate := rfl
@[simp] theorem faultEntry_params (e : Cause) (c : Word) (s : State) : (faultEntry e c s).params = s.params := rfl
@[simp] theorem faultEntry_ports (e : Cause) (c : Word) (s : State) : (faultEntry e c s).ports = s.ports := rfl
@[simp] theorem faultEntry_host (e : Cause) (c : Word) (s : State) : (faultEntry e c s).host = s.host := rfl
@[simp] theorem faultEntry_rdata (e : Cause) (c : Word) (s : State) : (faultEntry e c s).rdata = s.rdata := rfl

/-! ### `resetEngine` (R342) -/

@[simp] theorem resetEngine_bank (s : State) (b : BankId) : (resetEngine s).bank b = Bank.reset := by cases b <;> rfl
@[simp] theorem resetEngine_bank0 (s : State) : (resetEngine s).bank0 = Bank.reset := rfl
@[simp] theorem resetEngine_bank1 (s : State) : (resetEngine s).bank1 = Bank.reset := rfl
@[simp] theorem resetEngine_blk (s : State) : (resetEngine s).blk = Block.zero := rfl
@[simp] theorem resetEngine_mbuf (s : State) : (resetEngine s).mbuf = [] := rfl
@[simp] theorem resetEngine_mlen (s : State) : (resetEngine s).mlen = 0 := rfl
@[simp] theorem resetEngine_final (s : State) : (resetEngine s).final = false := rfl
@[simp] theorem resetEngine_fault (s : State) : (resetEngine s).fault = false := rfl
@[simp] theorem resetEngine_cause (s : State) : (resetEngine s).cause = 0 := rfl
@[simp] theorem resetEngine_params (s : State) : (resetEngine s).params = s.params := rfl
@[simp] theorem resetEngine_ports (s : State) : (resetEngine s).ports = s.ports := rfl
@[simp] theorem resetEngine_host (s : State) : (resetEngine s).host = s.host := rfl
@[simp] theorem resetEngine_rdata (s : State) : (resetEngine s).rdata = s.rdata := rfl

/-! ### `stepCtr`, `hybEncBlk`, `hybDecBlk` (R190 to R192) -/

@[simp] theorem stepCtr_bank_same (s : State) (b : BankId) :
    (s.stepCtr b).bank b = { s.bank b with ctr := ctrInc (s.bank b).ctr } := by cases b <;> rfl
@[simp] theorem stepCtr_bank_other (s : State) (b : BankId) : (s.stepCtr b).bank b.other = s.bank b.other := by
  cases b <;> rfl

/-- Everything `HybEncBlk(b)` does (R191): the block is sealed at the bank's counter, the counter steps. -/
theorem hybEncBlk_eq (b : BankId) (s : State) :
    hybEncBlk b s = (s.setBank b ((s.bank b).advance 1)).setBlk ((s.bank b).seal s.blk) := by cases b <;> rfl

/-- Everything `HybDecBlk(b)` does (R192): the block is unsealed at the bank's counter, the counter steps. -/
theorem hybDecBlk_eq (b : BankId) (s : State) :
    hybDecBlk b s = (s.setBank b ((s.bank b).advance 1)).setBlk ((s.bank b).unseal s.blk) := by cases b <;> rfl

/-! ### `Run` and `complete` -/

@[simp] theorem bind_ok {α β : Type} (a : α) (s : State) (f : α → State → Run β) : (Run.ok a s).bind f = f a s := rfl
@[simp] theorem bind_raised {α β : Type} (e : Cause) (s : State) (f : α → State → Run β) :
    (Run.raised e s).bind f = .raised e s := rfl
@[simp] theorem require_true (e : Cause) (s : State) : require true e s = .ok () s := rfl
@[simp] theorem require_false (e : Cause) (s : State) : require false e s = .raised e s := rfl
@[simp] theorem complete_ok (i : Instr) (s : State) : complete i (.ok () s) = .next s := rfl
@[simp] theorem complete_raised (i : Instr) (e : Cause) (s : State) :
    complete i (.raised e s) = .next (faultEntry e (encode i) s) := rfl

/-- A command body with key on hand passes its key check. -/
theorem requireKey_of_kvalid {b : BankId} {s : State} (h : (s.bank b).kvalid = true) : requireKey b s = .ok () s := by
  simp [requireKey, h]

/-- A command body without key raises `E_NOKEY` before anything else. -/
theorem requireKey_of_not_kvalid {b : BankId} {s : State} (h : (s.bank b).kvalid = false) :
    requireKey b s = .raised .noKey s := by simp [requireKey, h]

end Sys2Proof.Machine
end

