-- ==== Sys2Proof/Laws/Bytes.lean ====
section
/-!
SUPPORT. Words, blocks and bytes (R95): the conversions are inverse to each other.
-/

namespace Sys2Proof.Machine

@[simp] theorem byteOfWord_wordOfBytes_0 (a b c d : Byte) : byteOfWord (wordOfBytes a b c d) 0 = a := by
  ext i hi
  simp [byteOfWord, wordOfBytes]
  interval_cases i <;> simp

@[simp] theorem byteOfWord_wordOfBytes_1 (a b c d : Byte) : byteOfWord (wordOfBytes a b c d) 1 = b := by
  ext i hi
  simp [byteOfWord, wordOfBytes]
  interval_cases i <;> simp

@[simp] theorem byteOfWord_wordOfBytes_2 (a b c d : Byte) : byteOfWord (wordOfBytes a b c d) 2 = c := by
  ext i hi
  simp [byteOfWord, wordOfBytes]
  interval_cases i <;> simp

@[simp] theorem byteOfWord_wordOfBytes_3 (a b c d : Byte) : byteOfWord (wordOfBytes a b c d) 3 = d := by
  ext i hi
  simp [byteOfWord, wordOfBytes]
  interval_cases i <;> simp

/-- A word is made of its bytes. -/
@[simp] theorem wordOfBytes_byteOfWord (w : Word) :
    wordOfBytes (byteOfWord w 0) (byteOfWord w 1) (byteOfWord w 2) (byteOfWord w 3) = w := by
  ext i hi
  simp [byteOfWord, wordOfBytes]
  interval_cases i <;> simp

@[simp] theorem bytesOfWord_length (w : Word) : (bytesOfWord w).length = 4 := rfl

@[simp] theorem bytesOfBlock_length (x : Block) : (bytesOfBlock x).length = 16 := rfl

/-- The bytes of a block give the block back (R95). -/
@[simp] theorem blockOfBytes_bytesOfBlock (x : Block) : blockOfBytes (bytesOfBlock x) = x := by
  cases x
  simp [blockOfBytes, wordAt, bytesOfBlock, bytesOfWord]

theorem bytesOfWord_wordOfBytes (a b c d : Byte) : bytesOfWord (wordOfBytes a b c d) = [a, b, c, d] := by
  simp [bytesOfWord]

/-- A list of 16 bytes, written out. -/
theorem eq_of_length_16 {p : List Byte} (h : p.length = 16) :
    p = [p.getD 0 0, p.getD 1 0, p.getD 2 0, p.getD 3 0, p.getD 4 0, p.getD 5 0, p.getD 6 0, p.getD 7 0,
      p.getD 8 0, p.getD 9 0, p.getD 10 0, p.getD 11 0, p.getD 12 0, p.getD 13 0, p.getD 14 0, p.getD 15 0] := by
  match p, h with
  | [_, _, _, _, _, _, _, _, _, _, _, _, _, _, _, _], _ => rfl

/-- The block of 16 bytes gives the bytes back (R95). -/
theorem bytesOfBlock_blockOfBytes {p : List Byte} (h : p.length = 16) : bytesOfBlock (blockOfBytes p) = p := by
  conv_rhs => rw [eq_of_length_16 h]
  simp only [bytesOfBlock, blockOfBytes, wordAt, bytesOfWord_wordOfBytes]
  rfl

/-- Two byte sequences of 16 with the same block are the same. -/
theorem blockOfBytes_injective {p q : List Byte} (hp : p.length = 16) (hq : q.length = 16)
    (h : blockOfBytes p = blockOfBytes q) : p = q := by
  rw [← bytesOfBlock_blockOfBytes hp, ← bytesOfBlock_blockOfBytes hq, h]

/-- Byte `m` of word `k` of a byte sequence is its byte `4k + m`, 0 beyond the end (R95, R97). -/
theorem byteOfWord_wordAt (p : List Byte) (k : Nat) {m : Nat} (hm : m < 4) : byteOfWord (wordAt p k) m = p.getD (4 * k + m) 0 := by
  unfold wordAt
  interval_cases m <;> simp

/-- A text of digits has one value a byte. -/
theorem hexDigits_length {text : List Byte} {ds : List Nat} (h : hexDigits text = some ds) : ds.length = text.length := by
  induction text generalizing ds with
  | nil => simp [hexDigits] at h; subst h; rfl
  | cons v text ih =>
    simp only [hexDigits] at h
    cases hv : hexVal v with
    | none => simp [hv] at h
    | some d =>
      cases ht : hexDigits text with
      | none => simp [hv, ht] at h
      | some rest => simp [hv, ht] at h; subst h; simp [ih ht]

/-- The terminator of a round-count text is no digit (R100). -/
theorem hexVal_zero : hexVal 0 = none := by decide

end Sys2Proof.Machine
end

