-- ==== Sys2Proof/Laws/Blocks.lean ====
section
/-!
SUPPORT. The block sequences of the container (R102, R103, R219) and their sealed forms: how each begins, and how long it is.
-/

namespace Sys2Proof.Machine

/-! ### Counter steps (R219) -/

theorem advance_succ (k : Bank) (n : Nat) : k.advance (n + 1) = (k.advance 1).advance n := rfl

theorem advance_add (k : Bank) (n m : Nat) : (k.advance n).advance m = k.advance (n + m) := by
  induction n generalizing k with
  | zero => simp [Bank.advance]
  | succ n ih => rw [Nat.succ_add]; simp only [Bank.advance, ih]

/-- Stepping the counter changes nothing else of the bank. -/
theorem advance_eq (k : Bank) (n : Nat) : k.advance n = { k with ctr := (k.advance n).ctr } := by
  induction n generalizing k with
  | zero => rfl
  | succ n ih => rw [Bank.advance, ih]

/-! ### Cutting a byte sequence into blocks -/

theorem wholeBlocks_cons {p : List Byte} (h : 16 ≤ p.length) : wholeBlocks p = p.take 16 :: wholeBlocks (p.drop 16) := by
  have e : p.length / 16 = (p.length - 16) / 16 + 1 := by omega
  unfold wholeBlocks
  rw [e, List.range_succ_eq_map, List.map_cons, List.map_map, List.length_drop]
  congr 1
  apply List.map_congr_left
  intro k _
  simp only [chunk, Function.comp, List.drop_drop, Nat.mul_succ, Nat.add_comm]

theorem wholeBlocks_short {p : List Byte} (h : p.length < 16) : wholeBlocks p = [] := by
  unfold wholeBlocks; rw [Nat.div_eq_of_lt h]; rfl

theorem wholeBlocks_length (p : List Byte) : (wholeBlocks p).length = p.length / 16 := by simp [wholeBlocks]

theorem wholeBlocks_append {p q : List Byte} (h : p.length = 16) : wholeBlocks (p ++ q) = p :: wholeBlocks q := by
  rw [wholeBlocks_cons (by simp [h]), ← h, List.take_left, List.drop_left]

theorem paddedBlocks_cons {p : List Byte} (h : 16 ≤ p.length) : paddedBlocks p = p.take 16 :: paddedBlocks (p.drop 16) := by
  have e : 16 * (p.length / 16) = 16 + 16 * ((p.length - 16) / 16) := by omega
  unfold paddedBlocks
  rw [wholeBlocks_cons h, List.cons_append, e, List.length_drop, List.drop_drop]

theorem paddedBlocks_short {p : List Byte} (h : p.length < 16) : paddedBlocks p = [padBlock p] := by
  unfold paddedBlocks; rw [wholeBlocks_short h, Nat.div_eq_of_lt h]; rfl

theorem paddedBlocks_length (p : List Byte) : (paddedBlocks p).length = p.length / 16 + 1 := by
  simp [paddedBlocks, wholeBlocks_length]

/-- The whole blocks and the remainder are the sequence. -/
theorem wholeBlocks_flatten (p : List Byte) : (wholeBlocks p).flatten ++ p.drop (16 * (p.length / 16)) = p := by
  obtain ⟨n, hn⟩ : ∃ n, p.length / 16 = n := ⟨_, rfl⟩
  induction n generalizing p with
  | zero => rw [wholeBlocks_short (by omega), hn]; rfl
  | succ n ih =>
    have hl : 16 ≤ p.length := by omega
    have rest := ih (p.drop 16) (by simp; omega)
    have e : 16 * (p.length / 16) = 16 + 16 * ((p.drop 16).length / 16) := by simp; omega
    rw [wholeBlocks_cons hl, List.flatten_cons, e, ← List.drop_drop, List.append_assoc, rest, List.take_append_drop]

@[simp] theorem nameBlock_length (name : List Byte) (k : Nat) : (nameBlock name k).length = 16 := by simp [nameBlock]

theorem nameBlock_getD (name : List Byte) (k : Nat) {m : Nat} (hm : m < 16) :
    (nameBlock name k).getD m 0 = name.getD (16 * k + m) 0 := by
  simp [nameBlock, List.getD, hm]

/-! ### Sealing and unsealing block by block -/

theorem sealAll_cons (k : Bank) (p : List Byte) (ps : List (List Byte)) :
    k.sealAll (p :: ps) = bytesOfBlock (k.seal (blockOfBytes p)) ++ (k.advance 1).sealAll ps := rfl

theorem unsealAll_cons (k : Bank) (p : List Byte) (ps : List (List Byte)) :
    k.unsealAll (p :: ps) = bytesOfBlock (k.unseal (blockOfBytes p)) :: (k.advance 1).unsealAll ps := rfl

theorem sealAll_length (k : Bank) (ps : List (List Byte)) : (k.sealAll ps).length = 16 * ps.length := by
  induction ps generalizing k with
  | nil => rfl
  | cons p ps ih => rw [sealAll_cons, List.length_append, ih, bytesOfBlock_length, List.length_cons]; omega

theorem unsealAll_length (k : Bank) (ps : List (List Byte)) : (k.unsealAll ps).length = ps.length := by
  induction ps generalizing k with
  | nil => rfl
  | cons p ps ih => simp [unsealAll_cons, ih]

theorem length_of_mem_unsealAll {k : Bank} {ps : List (List Byte)} {p : List Byte} (h : p ∈ k.unsealAll ps) : p.length = 16 := by
  induction ps generalizing k with
  | nil => simp [Bank.unsealAll] at h
  | cons q ps ih =>
    rw [unsealAll_cons] at h
    rcases List.mem_cons.1 h with rfl | h
    · rfl
    · exact ih h

end Sys2Proof.Machine
end

