-- ==== Sys2Proof/Laws/Memory.lean ====
section
/-!
SUPPORT. The laws of the material buffer: a read after a write, and that every operation keeps the canonical form and the bound.
-/

namespace Sys2Proof.Machine

theorem wfFrom_mono {lo hi : Nat} {m : List Host.Cell} (h : Memory.wfFrom hi m = true) (hl : lo ≤ hi) :
    Memory.wfFrom lo m = true := by
  cases m with
  | nil => rfl
  | cons c rest =>
    obtain ⟨x, u⟩ := c
    simp only [Memory.wfFrom, Bool.and_eq_true, decide_eq_true_eq] at h ⊢
    exact ⟨⟨by omega, h.1.2⟩, h.2⟩

/-- Below the least listed index everything reads 0. -/
theorem read_below {lo a : Nat} {m : List Host.Cell} (h : Memory.wfFrom lo m = true) (ha : a < lo) :
    Memory.read m a = 0 := by
  induction m generalizing lo with
  | nil => rfl
  | cons c rest ih =>
    obtain ⟨x, u⟩ := c
    simp only [Memory.wfFrom, Bool.and_eq_true, decide_eq_true_eq] at h
    have hx : a ≠ x := by omega
    simp only [Memory.read, hx, if_false]
    exact ih h.2 (by omega)

/-- A write keeps the canonical form. -/
theorem write_wfFrom {lo a : Nat} {m : List Host.Cell} (v : Byte) (h : Memory.wfFrom lo m = true) (ha : lo ≤ a) :
    Memory.wfFrom lo (Memory.write m a v) = true := by
  induction m generalizing lo with
  | nil =>
    simp only [Memory.write]
    split
    · rfl
    · simp_all [Memory.wfFrom]
  | cons c rest ih =>
    obtain ⟨x, u⟩ := c
    simp only [Memory.wfFrom, Bool.and_eq_true, decide_eq_true_eq] at h
    obtain ⟨⟨hx, hu⟩, hr⟩ := h
    simp only [Memory.write]
    split
    · split
      · simp only [Memory.wfFrom, Bool.and_eq_true, decide_eq_true_eq]
        exact ⟨⟨hx, hu⟩, hr⟩
      · simp only [Memory.wfFrom, Bool.and_eq_true, decide_eq_true_eq]
        exact ⟨⟨ha, by assumption⟩, ⟨by omega, hu⟩, hr⟩
    · split
      · split
        · exact wfFrom_mono hr (by omega)
        · simp_all [Memory.wfFrom]
      · simp only [Memory.wfFrom, Bool.and_eq_true, decide_eq_true_eq]
        exact ⟨⟨hx, hu⟩, ih hr (by omega)⟩

theorem write_wf {m : List Host.Cell} (a : Nat) (v : Byte) (h : Memory.wf m = true) : Memory.wf (Memory.write m a v) = true :=
  write_wfFrom v h (Nat.zero_le a)

/-- A read after a write: the value written at its index, every other index as before. -/
theorem read_write_from {lo a : Nat} {m : List Host.Cell} (v : Byte) (i : Nat) (h : Memory.wfFrom lo m = true) (ha : lo ≤ a) :
    Memory.read (Memory.write m a v) i = if i = a then v else Memory.read m i := by
  induction m generalizing lo with
  | nil =>
    simp only [Memory.write]
    split <;> split <;> simp_all [Memory.read]
  | cons c rest ih =>
    obtain ⟨x, u⟩ := c
    simp only [Memory.wfFrom, Bool.and_eq_true, decide_eq_true_eq] at h
    obtain ⟨⟨hx, hu⟩, hr⟩ := h
    simp only [Memory.write]
    split
    · next hax =>
      split
      · next hv =>
        split
        · next hi =>
          subst hi hv
          have : i ≠ x := by omega
          simp only [Memory.read, this, if_false]
          exact read_below hr (by omega)
        · rfl
      · simp [Memory.read]
    · split
      · next hax =>
        subst hax
        split
        · next hv =>
          subst hv
          by_cases hi : i = a
          · subst hi
            simp only [if_true]
            exact read_below hr (by omega)
          · simp [Memory.read, hi]
        · by_cases hi : i = a <;> simp [Memory.read, hi]
      · have hne : x ≠ a := by omega
        simp only [Memory.read, ih hr (by omega)]
        by_cases hi : i = x
        · subst hi
          simp [hne]
        · simp [hi]

theorem read_write {m : List Host.Cell} (a : Nat) (v : Byte) (i : Nat) (h : Memory.wf m = true) :
    Memory.read (Memory.write m a v) i = if i = a then v else Memory.read m i :=
  read_write_from v i h (Nat.zero_le a)

theorem writeBytes_wf {m : List Host.Cell} (a : Nat) (vs : List Byte) (h : Memory.wf m = true) :
    Memory.wf (Memory.writeBytes m a vs) = true := by
  induction vs generalizing m a with
  | nil => exact h
  | cons v vs ih => exact ih (a + 1) (write_wf a v h)

/-- A read after a run of writes: the byte written at its index, every other index as before. -/
theorem read_writeBytes {m : List Host.Cell} (a : Nat) (vs : List Byte) (i : Nat) (h : Memory.wf m = true) :
    Memory.read (Memory.writeBytes m a vs) i =
      if a ≤ i ∧ i < a + vs.length then vs.getD (i - a) 0 else Memory.read m i := by
  induction vs generalizing m a with
  | nil => simp [Memory.writeBytes]
  | cons v vs ih =>
    simp only [Memory.writeBytes]
    rw [ih (a + 1) (write_wf a v h), read_write a v i h]
    by_cases h1 : i = a
    · subst h1
      simp
    · by_cases h2 : a ≤ i ∧ i < a + (v :: vs).length
      · have h3 : a + 1 ≤ i ∧ i < a + 1 + vs.length := by simp only [List.length_cons] at h2; omega
        have h4 : i - a = (i - (a + 1)) + 1 := by omega
        simp only [h2, h3, h4, and_self, if_true, List.getD_cons_succ]
      · have h3 : ¬(a + 1 ≤ i ∧ i < a + 1 + vs.length) := by simp only [List.length_cons] at h2; omega
        simp only [h2, h3, h1, if_false]

/-- A read after a write of a whole word: the word's bytes, lowest first (R62), every other index as before. -/
theorem read_writeWord {m : List Host.Cell} (a : Nat) (v : Word) (i : Nat) (h : Memory.wf m = true) :
    Memory.read (Memory.writeBytes m a (bytesOfWord v)) i =
      if a ≤ i ∧ i < a + 4 then byteOfWord v (i - a) else Memory.read m i := by
  rw [read_writeBytes _ _ _ h]
  by_cases hi : a ≤ i ∧ i < a + 4
  · have hi' : a ≤ i ∧ i < a + (bytesOfWord v).length := hi
    rw [if_pos hi, if_pos hi']
    obtain ⟨j, rfl⟩ : ∃ j, i = a + j := ⟨i - a, by omega⟩
    have hj : j < 4 := by omega
    rw [Nat.add_sub_cancel_left]
    interval_cases j <;> rfl
  · have hi' : ¬ (a ≤ i ∧ i < a + (bytesOfWord v).length) := hi
    rw [if_neg hi, if_neg hi']

theorem within_cons (n x : Nat) (u : Byte) (m : List Host.Cell) :
    Memory.within n ((x, u) :: m) = true ↔ x < n ∧ Memory.within n m = true := by
  simp [Memory.within]

/-- A write below the bound keeps every listed index below the bound. -/
theorem write_within {n a : Nat} {m : List Host.Cell} (v : Byte) (h : Memory.within n m = true) (ha : a < n) :
    Memory.within n (Memory.write m a v) = true := by
  induction m with
  | nil =>
    simp only [Memory.write]
    split
    · rfl
    · exact (within_cons n a v []).2 ⟨ha, rfl⟩
  | cons c rest ih =>
    obtain ⟨x, u⟩ := c
    have hx := (within_cons n x u rest).1 h
    simp only [Memory.write]
    split
    · split
      · exact h
      · exact (within_cons _ _ _ _).2 ⟨ha, h⟩
    · split
      · split
        · exact hx.2
        · exact (within_cons _ _ _ _).2 ⟨ha, hx.2⟩
      · exact (within_cons _ _ _ _).2 ⟨hx.1, ih hx.2⟩

theorem writeBytes_within {n a : Nat} {m : List Host.Cell} (vs : List Byte) (h : Memory.within n m = true)
    (ha : a + vs.length ≤ n) : Memory.within n (Memory.writeBytes m a vs) = true := by
  induction vs generalizing m a with
  | nil => exact h
  | cons v vs ih =>
    simp only [List.length_cons] at ha
    exact ih (write_within v h (by omega)) (by omega)

/-- Reset memory is in canonical form. -/
theorem reset_mbuf_wf : Memory.wf State.reset.mbuf = true := rfl

end Sys2Proof.Machine
end

