-- ==== Sys2Proof/Laws/Ports.lean ====
section
/-!
SUPPORT. One lemma for each port operation that says everything it can do: which bytes move, what the ports have left, what the
record of traffic holds, and that nothing else changes.
-/

namespace Sys2Proof.Machine

/-! ### What a source delivers -/

@[simp] theorem deliver_nil : deliver [] = [] := rfl
@[simp] theorem deliver_fail (r : List (Option Byte)) : deliver (none :: r) = [] := rfl
@[simp] theorem deliver_byte (v : Byte) (r : List (Option Byte)) : deliver (some v :: r) = v :: deliver r := rfl

theorem deliver_append (p : List Byte) (r : List (Option Byte)) : deliver (p.map some ++ r) = p ++ deliver r := by
  induction p with
  | nil => rfl
  | cons v p ih => simp [ih]

theorem deliver_length_le (l : List (Option Byte)) : (deliver l).length ≤ l.length := by
  induction l with
  | nil => exact Nat.le_refl _
  | cons o l ih => cases o <;> simp [ih]

/-- The source behind the first `n` bytes it delivers. -/
theorem deliver_drop {n : Nat} {l : List (Option Byte)} (h : n ≤ (deliver l).length) :
    deliver (l.drop n) = (deliver l).drop n := by
  induction n generalizing l with
  | zero => rfl
  | succ n ih =>
    match l with
    | [] => simp at h
    | none :: r => simp at h
    | some v :: r => simpa using ih (by simpa using h)

theorem afterFail_drop {n : Nat} {l : List (Option Byte)} (h : n ≤ (deliver l).length) :
    afterFail (l.drop n) = afterFail l := by
  induction n generalizing l with
  | zero => rfl
  | succ n ih =>
    match l with
    | [] => simp at h
    | none :: r => simp at h
    | some v :: r => simpa [afterFail] using ih (by simpa using h)

@[simp] theorem acceptedByte_write (v : Byte) : acceptedByte (.write v) = some v := rfl
@[simp] theorem acceptedByte_writeFail (v : Byte) : acceptedByte (.writeFail v) = none := rfl
@[simp] theorem acceptedByte_read (v : Byte) : acceptedByte (.read v) = none := rfl
@[simp] theorem acceptedByte_readFail : acceptedByte .readFail = none := rfl

theorem accepted_map_write (vs : List Byte) : (vs.map PortEvent.write).filterMap acceptedByte = vs := by
  induction vs with
  | nil => rfl
  | cons v vs ih => simp [ih]

theorem accepted_map_read (vs : List Byte) : (vs.map PortEvent.read).filterMap acceptedByte = [] := by
  induction vs with
  | nil => rfl
  | cons v vs _ => simp

/-! ### Reading -/

/-- The ports after up to `n` reads that stop at the first `FAIL`. -/
def Ports.afterRead (p : Ports) (n : Nat) : Ports :=
  if n ≤ (deliver p.src).length then
    { p with src := p.src.drop n, trace := p.trace ++ ((deliver p.src).take n).map .read }
  else
    { p with src := afterFail p.src, trace := p.trace ++ (deliver p.src).map .read ++ [.readFail] }

@[simp] theorem afterRead_zero (p : Ports) : p.afterRead 0 = p := by simp [Ports.afterRead]

@[simp] theorem afterRead_snk (p : Ports) (n : Nat) : (p.afterRead n).snk = p.snk := by
  unfold Ports.afterRead; split <;> rfl

theorem afterRead_src_le {p : Ports} {n : Nat} (h : n ≤ (deliver p.src).length) :
    (p.afterRead n).src = p.src.drop n := by simp [Ports.afterRead, h]

theorem afterRead_src_gt {p : Ports} {n : Nat} (h : (deliver p.src).length < n) : (p.afterRead n).src = afterFail p.src := by
  simp [Ports.afterRead, Nat.not_le.2 h]

/-- What the source still delivers after `n` reads that all arrived. -/
theorem deliver_afterRead {p : Ports} {n : Nat} (h : n ≤ (deliver p.src).length) :
    deliver (p.afterRead n).src = (deliver p.src).drop n := by
  rw [afterRead_src_le h, deliver_drop h]

@[simp] theorem afterRead_output (p : Ports) (n : Nat) : (p.afterRead n).output = p.output := by
  unfold Ports.afterRead Ports.output
  split <;> simp only [List.filterMap_append, accepted_map_read, List.append_nil, List.filterMap_cons, acceptedByte_readFail,
    List.filterMap_nil]

theorem afterRead_succ_some (p : Ports) (v : Byte) (rest : List (Option Byte)) (n : Nat) (h : p.src = some v :: rest) :
    ({ p with src := rest }.record (.read v)).afterRead n = p.afterRead (n + 1) := by
  cases p with
  | mk src snk trace =>
    subst h
    simp only [Ports.afterRead, Ports.record, deliver_byte, List.length_cons, Nat.add_le_add_iff_right, List.drop_succ_cons,
      List.take_succ_cons, List.map_cons, List.append_assoc, List.nil_append, afterFail, List.cons_append]

/-- Everything up to `n` reads do (R250): the bytes that arrive before the first `FAIL`, at most `n`; only the ports change. -/
theorem readUpTo_eq (n : Nat) (s : State) :
    readUpTo n s = ((deliver s.ports.src).take n, s.setPorts (s.ports.afterRead n)) := by
  induction n generalizing s with
  | zero => simp [readUpTo]
  | succ n ih =>
    simp only [readUpTo, srcRead]
    match h : s.ports.src with
    | [] => simp [Ports.afterRead, Ports.record, h, afterFail]
    | none :: r => simp [Ports.afterRead, Ports.record, h, afterFail]
    | some v :: r =>
      simp only [ih, setPorts_ports, setPorts_setPorts]
      rw [afterRead_succ_some s.ports v r n h]
      simp [Ports.record]

/-- Everything `TryReadBlock` does (R250). -/
theorem tryReadBlock_eq (s : State) :
    tryReadBlock s = ((deliver s.ports.src).take 16, s.setPorts (s.ports.afterRead 16)) := readUpTo_eq 16 s

/-- Everything `n` required reads do: all `n` bytes, or `E_IO_READ` at the `FAIL`; only the ports change. -/
theorem srcBytes_eq (n : Nat) (s : State) :
    srcBytes n s =
      if n ≤ (deliver s.ports.src).length then
        .ok ((deliver s.ports.src).take n) (s.setPorts (s.ports.afterRead n))
      else .raised .ioRead (s.setPorts (s.ports.afterRead n)) := by
  induction n generalizing s with
  | zero => simp [srcBytes]
  | succ n ih =>
    simp only [srcBytes, srcByte, srcRead]
    match h : s.ports.src with
    | [] => simp [Ports.afterRead, Ports.record, h, afterFail]
    | none :: r => simp [Ports.afterRead, Ports.record, h, afterFail]
    | some v :: r =>
      simp only [bind_ok, ih, setPorts_ports, setPorts_setPorts]
      rw [afterRead_succ_some s.ports v r n h]
      simp only [Ports.record, deliver_byte, List.length_cons, Nat.add_le_add_iff_right, List.take_succ_cons]
      by_cases hn : n ≤ (deliver r).length <;> simp [hn]

/-- Everything one required read does. -/
theorem srcByte_eq (s : State) :
    srcByte s =
      match deliver s.ports.src with
      | [] => .raised .ioRead (s.setPorts (s.ports.afterRead 1))
      | v :: _ => .ok v (s.setPorts (s.ports.afterRead 1)) := by
  simp only [srcByte, srcRead]
  match h : s.ports.src with
  | [] => simp [Ports.afterRead, Ports.record, h, afterFail]
  | none :: r => simp [Ports.afterRead, Ports.record, h, afterFail]
  | some v :: r => simp [Ports.afterRead, Ports.record, h]

theorem srcByte_of_cons {s : State} {v : Byte} {rest : List Byte} (h : deliver s.ports.src = v :: rest) :
    srcByte s = .ok v (s.setPorts (s.ports.afterRead 1)) := by rw [srcByte_eq, h]

theorem srcByte_of_nil {s : State} (h : deliver s.ports.src = []) :
    srcByte s = .raised .ioRead (s.setPorts (s.ports.afterRead 1)) := by rw [srcByte_eq, h]

/-- Reading `m` more after `n` that all arrived is reading `n + m`. -/
theorem afterRead_add {p : Ports} {n : Nat} (m : Nat) (h : n ≤ (deliver p.src).length) :
    (p.afterRead n).afterRead m = p.afterRead (n + m) := by
  have hd := deliver_drop h
  have hf := afterFail_drop h
  simp only [Ports.afterRead, h, if_true, hd, hf, List.length_drop]
  by_cases h2 : n + m ≤ (deliver p.src).length
  · have h3 : m ≤ (deliver p.src).length - n := by omega
    simp only [h2, h3, if_true, List.drop_drop, List.append_assoc, ← List.map_append]
    rw [List.take_add]
  · have h3 : ¬ m ≤ (deliver p.src).length - n := by omega
    simp only [h2, h3, if_false, List.append_assoc]
    rw [← List.append_assoc (List.map _ _) (List.map _ _), ← List.map_append, List.take_append_drop]

/-! ### Writing -/

/-- The ports after the sink has taken the bytes `vs`. -/
def Ports.afterWrites (p : Ports) (vs : List Byte) : Ports :=
  { p with snk := p.snk.drop vs.length, trace := p.trace ++ vs.map .write }

@[simp] theorem afterWrites_src (p : Ports) (vs : List Byte) : (p.afterWrites vs).src = p.src := rfl

@[simp] theorem afterWrites_nil (p : Ports) : p.afterWrites [] = p := by simp [Ports.afterWrites]

@[simp] theorem afterWrites_output (p : Ports) (vs : List Byte) : (p.afterWrites vs).output = p.output ++ vs := by
  simp only [Ports.output, Ports.afterWrites, List.filterMap_append, accepted_map_write]

theorem afterWrites_append (p : Ports) (vs ws : List Byte) :
    (p.afterWrites vs).afterWrites ws = p.afterWrites (vs ++ ws) := by
  simp [Ports.afterWrites, List.drop_drop]

theorem sinkAccepts_afterWrites {p : Ports} (h : p.sinkAccepts) (vs : List Byte) : (p.afterWrites vs).sinkAccepts :=
  fun a ha => h a (List.mem_of_mem_drop ha)

theorem sinkAccepts_afterRead {p : Ports} (h : p.sinkAccepts) (n : Nat) : (p.afterRead n).sinkAccepts := by
  intro a ha
  rw [afterRead_snk] at ha
  exact h a ha

theorem snkByte_accepts (v : Byte) (s : State) (h : s.ports.sinkAccepts) :
    snkByte v s = .ok () (s.setPorts (s.ports.afterWrites [v])) := by
  simp only [snkByte, snkWrite]
  match hs : s.ports.snk with
  | [] => simp [Ports.afterWrites, Ports.record, hs]
  | true :: r => simp [Ports.afterWrites, Ports.record, hs]
  | false :: r => exact absurd (h false (by simp [hs])) (by decide)

/-- A sink that accepts takes all bytes, in order; only the ports change. -/
theorem snkBytes_accepts (vs : List Byte) (s : State) (h : s.ports.sinkAccepts) :
    snkBytes vs s = .ok () (s.setPorts (s.ports.afterWrites vs)) := by
  induction vs generalizing s with
  | nil => simp [snkBytes]
  | cons v vs ih =>
    simp only [snkBytes, snkByte_accepts v s h, bind_ok]
    rw [ih _ (sinkAccepts_afterWrites h [v])]
    simp [afterWrites_append]

/-! ### The record of traffic -/

/-- The ports `q` are reached from `p` by some traffic, which the record shows (R72 c). -/
def Ports.Runs (p q : Ports) : Prop := ∃ evs : List PortEvent, q = evs.foldl Ports.happen p

theorem trace_foldl (evs : List PortEvent) (p : Ports) : (evs.foldl Ports.happen p).trace = p.trace ++ evs := by
  induction evs generalizing p with
  | nil => simp
  | cons e evs ih => cases e <;> simp [ih, Ports.happen, Ports.record]

theorem Ports.Runs.refl (p : Ports) : p.Runs p := ⟨[], rfl⟩

theorem Ports.Runs.trans {p q r : Ports} (h : p.Runs q) (k : q.Runs r) : p.Runs r := by
  obtain ⟨a, rfl⟩ := h
  obtain ⟨b, rfl⟩ := k
  exact ⟨a ++ b, by simp [List.foldl_append]⟩

theorem runs_happen (p : Ports) (e : PortEvent) : p.Runs (p.happen e) := ⟨[e], rfl⟩

/-- Whatever a read does to the ports is traffic. -/
theorem srcRead_runs (s : State) : ∃ q, (srcRead s).2 = s.setPorts q ∧ s.ports.Runs q := by
  simp only [srcRead]
  match h : s.ports.src with
  | [] => exact ⟨_, rfl, ⟨[.readFail], by simp [Ports.happen, Ports.record, h]⟩⟩
  | none :: r => exact ⟨_, rfl, ⟨[.readFail], by simp [Ports.happen, Ports.record, h]⟩⟩
  | some v :: r => exact ⟨_, rfl, ⟨[.read v], by simp [Ports.happen, Ports.record, h]⟩⟩

theorem readUpTo_runs (n : Nat) (s : State) : ∃ q, (readUpTo n s).2 = s.setPorts q ∧ s.ports.Runs q := by
  induction n generalizing s with
  | zero => exact ⟨s.ports, rfl, .refl _⟩
  | succ n ih =>
    obtain ⟨q, h1, h2⟩ := srcRead_runs s
    simp only [readUpTo]
    split
    · next t h => exact ⟨q, by rw [← h1, h], h2⟩
    · next v t h =>
      obtain ⟨q', h3, h4⟩ := ih t
      have ht : t = s.setPorts q := by rw [← h1, h]
      subst ht
      exact ⟨q', h3, h2.trans h4⟩

theorem afterRead_runs (p : Ports) (n : Nat) : p.Runs (p.afterRead n) := by
  obtain ⟨q, h1, h2⟩ := readUpTo_runs n (State.reset.setPorts p)
  rw [readUpTo_eq] at h1
  have : p.afterRead n = q := congrArg State.ports h1
  exact this ▸ h2

/-- Whatever the sink answers: the bytes are all taken, or `E_IO_WRITE` is raised with a first part of them taken; only the
ports change, and no answer of the source is used. -/
theorem snkBytes_cases (vs : List Byte) (s : State) :
    (∃ q, snkBytes vs s = .ok () (s.setPorts q) ∧ s.ports.Runs q ∧ q.src = s.ports.src ∧
      q.output = s.ports.output ++ vs) ∨
    (∃ q n, snkBytes vs s = .raised .ioWrite (s.setPorts q) ∧ s.ports.Runs q ∧ q.src = s.ports.src ∧ n < vs.length ∧
      q.output = s.ports.output ++ vs.take n) := by
  induction vs generalizing s with
  | nil => exact .inl ⟨s.ports, by simp [snkBytes], .refl _, rfl, by simp⟩
  | cons v vs ih =>
    have step : ∀ r : List Bool, s.ports.snk.tail = r →
        s.ports.happen (.write v) = { s.ports with snk := r }.record (.write v) := by
      intro r h; simp [Ports.happen, Ports.record, h]
    have fwd : ∀ p : Ports, s.ports.happen (.write v) = p → snkByte v s = .ok () (s.setPorts p) →
        (∃ q, snkBytes (v :: vs) s = .ok () (s.setPorts q) ∧ s.ports.Runs q ∧ q.src = s.ports.src ∧
          q.output = s.ports.output ++ v :: vs) ∨
        (∃ q n, snkBytes (v :: vs) s = .raised .ioWrite (s.setPorts q) ∧ s.ports.Runs q ∧ q.src = s.ports.src ∧
          n < (v :: vs).length ∧ q.output = s.ports.output ++ (v :: vs).take n) := by
      intro p hp hb
      have hsrc : p.src = s.ports.src := by rw [← hp]; rfl
      have hout : p.output = s.ports.output ++ [v] := by rw [← hp]; simp [Ports.happen, Ports.record, Ports.output]
      have hrun : s.ports.Runs p := hp ▸ runs_happen _ _
      obtain ⟨q, h1, h0, h2, h3⟩ | ⟨q, n, h1, h0, h2, h4, h3⟩ := ih (s.setPorts p)
      · exact .inl ⟨q, by simp [snkBytes, hb, h1], hrun.trans h0, by simp [h2, hsrc], by simp [h3, hout]⟩
      · exact .inr ⟨q, n + 1, by simp [snkBytes, hb, h1], hrun.trans h0, by simp [h2, hsrc], by simpa using h4,
          by simp [h3, hout]⟩
    match hs : s.ports.snk with
    | [] => exact fwd _ (step [] (by simp [hs])) (by simp [snkByte, snkWrite, hs, Ports.record])
    | true :: r => exact fwd _ (step r (by simp [hs])) (by simp [snkByte, snkWrite, hs])
    | false :: r =>
      exact .inr ⟨s.ports.happen (.writeFail v), 0, by simp [snkBytes, snkByte, snkWrite, hs, Ports.happen, Ports.record],
        runs_happen _ _, rfl, by simp, by simp [Ports.happen, Ports.record, Ports.output]⟩

/-- Bytes that an accepting sink takes are traffic. -/
theorem afterWrites_runs (p : Ports) (vs : List Byte) : p.Runs (p.afterWrites vs) := by
  induction vs generalizing p with
  | nil => simpa using Ports.Runs.refl p
  | cons v vs ih =>
    have h : p.afterWrites (v :: vs) = (p.happen (.write v)).afterWrites vs := by
      simp [Ports.afterWrites, Ports.happen, Ports.record]
    exact h ▸ (runs_happen p (.write v)).trans (ih _)

end Sys2Proof.Machine
end

