-- ==== Sys2Proof/Laws/Loops.lean ====
section
/-!
SUPPORT. What the loops of the container and stream commands do: the magic and the round-count text of HDR_READ (R212), the name
blocks (R216, R217), and the three stream loops on a sink that accepts (R254 to R256). Each loop's fuel, `readBound`, suffices.
-/

namespace Sys2Proof.Machine

/-! ### `readBound` -/

/-- The bound of a loop that reads one byte each time round, after `n` rounds. -/
theorem readBound_split {s : State} {n : Nat} (h : n ≤ (deliver s.ports.src).length) :
    ∃ f, readBound s = (f + 1) + n := by
  have := deliver_length_le s.ports.src
  exact ⟨s.ports.src.length - n, by unfold readBound; omega⟩

/-- The bound of a loop that reads a block each time round. -/
theorem blocks_lt_readBound (s : State) : (deliver s.ports.src).length / 16 < readBound s := by
  have := deliver_length_le s.ports.src
  unfold readBound; omega

/-! ### The magic (R212) -/

theorem readMagic_ok {ms rest : List Byte} {s : State} (h : deliver s.ports.src = ms ++ rest) :
    readMagic ms s = .ok () (s.setPorts (s.ports.afterRead ms.length)) := by
  induction ms generalizing s with
  | nil => simp [readMagic]
  | cons m ms ih =>
    rw [List.cons_append] at h
    have hl : 1 ≤ (deliver s.ports.src).length := by simp [h]
    simp only [readMagic, srcByte_of_cons h, bind_ok, beq_self_eq_true, require_true]
    rw [ih (by simp [deliver_afterRead hl, h])]
    simp [afterRead_add _ hl, Nat.add_comm]

/-- The first byte that differs ends the reading (D37). -/
theorem readMagic_bad {ms rest : List Byte} {k : Nat} {v : Byte} {s : State} (hk : k < ms.length) (hv : v ≠ ms.getD k 0)
    (h : deliver s.ports.src = ms.take k ++ v :: rest) :
    readMagic ms s = .raised .fmtMagic (s.setPorts (s.ports.afterRead (k + 1))) := by
  induction ms generalizing s k with
  | nil => simp at hk
  | cons m ms ih =>
    cases k with
    | zero =>
      have h' : deliver s.ports.src = v :: rest := by simpa using h
      have hne : (v == m) = false := by simpa using hv
      simp only [readMagic, srcByte_of_cons h', bind_ok, hne, require_false, bind_raised]
    | succ k =>
      have h' : deliver s.ports.src = m :: (ms.take k ++ v :: rest) := by simpa using h
      have hl : 1 ≤ (deliver s.ports.src).length := by simp [h']
      simp only [readMagic, srcByte_of_cons h', bind_ok, beq_self_eq_true, require_true]
      rw [ih (by simpa using hk) (by simpa using hv) (by simp [deliver_afterRead hl, h'])]
      simp [afterRead_add _ hl, Nat.add_comm]

/-- Input that ends inside the magic. -/
theorem readMagic_end {ms : List Byte} {k : Nat} {s : State} (hk : k < ms.length) (h : deliver s.ports.src = ms.take k) :
    readMagic ms s = .raised .ioRead (s.setPorts (s.ports.afterRead (k + 1))) := by
  induction ms generalizing s k with
  | nil => simp at hk
  | cons m ms ih =>
    cases k with
    | zero =>
      have h' : deliver s.ports.src = [] := by simpa using h
      simp only [readMagic, srcByte_of_nil h', bind_raised]
    | succ k =>
      have h' : deliver s.ports.src = m :: ms.take k := by simpa using h
      have hl : 1 ≤ (deliver s.ports.src).length := by simp [h']
      simp only [readMagic, srcByte_of_cons h', bind_ok, beq_self_eq_true, require_true]
      rw [ih (by simpa using hk) (by simp [deliver_afterRead hl, h'])]
      simp [afterRead_add _ hl, Nat.add_comm]

/-! ### The round-count text (R100, R212) -/

/-- Digits are read one by one into the value. -/
theorem readCount_digits {text rest : List Byte} {ds : List Nat} (hd : hexDigits text = some ds) (fuel n q : Nat) {s : State}
    (h : deliver s.ports.src = text ++ rest) :
    readCount (fuel + text.length) n q s =
      readCount fuel (ds.foldl (fun n d => 16 * n + d) n) (q + ds.length) (s.setPorts (s.ports.afterRead text.length)) := by
  induction text generalizing s n q ds with
  | nil => simp [hexDigits] at hd; subst hd; simp
  | cons v text ih =>
    simp only [hexDigits] at hd
    cases hv : hexVal v with
    | none => simp [hv] at hd
    | some d =>
      cases ht : hexDigits text with
      | none => simp [hv, ht] at hd
      | some ds' =>
        simp [hv, ht] at hd; subst hd
        rw [List.cons_append] at h
        have hne : v ≠ 0 := by rintro rfl; rw [hexVal_zero] at hv; cases hv
        have hl : 1 ≤ (deliver s.ports.src).length := by simp [h]
        have e : fuel + (v :: text).length = (fuel + text.length) + 1 := by rw [List.length_cons]; omega
        rw [e]
        simp only [readCount, srcByte_of_cons h, bind_ok, hne, if_false, hv]
        rw [ih ht _ _ (by simp [deliver_afterRead hl, h])]
        simp [afterRead_add _ hl, Nat.add_comm, Nat.add_left_comm]

/-! ### Name blocks (R216, R217) -/

/-- NAME_ENC's loop on a sink that accepts: the sealed name blocks, one counter step a block, the last one in `BLK`. -/
theorem nameEncLoop_accepts (b : BankId) (name : List Byte) (n k : Nat) {s : State} (ha : s.ports.sinkAccepts) :
    ∃ q x, nameEncLoop b name n k s = .ok () (((s.setBank b ((s.bank b).advance n)).setBlk x).setPorts q) ∧
      (∀ m, n = m + 1 → x = ((s.bank b).advance m).seal (blockOfBytes (nameBlock name (k + m)))) ∧ (n = 0 → x = s.blk) ∧
      q.src = s.ports.src ∧
      q.output = s.ports.output ++ (s.bank b).sealAll ((List.range n).map fun j => nameBlock name (k + j)) := by
  induction n generalizing k s with
  | zero =>
    exact ⟨s.ports, s.blk, by simp [nameEncLoop, Bank.advance], by omega, fun _ => rfl, rfl, by simp [Bank.sealAll]⟩
  | succ n ih =>
    simp only [nameEncLoop, hybEncBlk_eq, snkBlock]
    rw [snkBytes_accepts _ _ (by simpa using ha)]
    simp only [bind_ok]
    have step : ∀ t : State, t.ports.sinkAccepts → t.ports.src = s.ports.src → t.bank b = (s.bank b).advance 1 →
        t.ports.output = s.ports.output ++ bytesOfBlock ((s.bank b).seal (blockOfBytes (nameBlock name k))) →
        t.blk = (s.bank b).seal (blockOfBytes (nameBlock name k)) →
        (∀ l x q, ((t.setBank b l).setBlk x).setPorts q = ((s.setBank b l).setBlk x).setPorts q) →
        ∃ q x, nameEncLoop b name n (k + 1) t = .ok () (((s.setBank b ((s.bank b).advance (n + 1))).setBlk x).setPorts q) ∧
          (∀ m, n + 1 = m + 1 → x = ((s.bank b).advance m).seal (blockOfBytes (nameBlock name (k + m)))) ∧
          (n + 1 = 0 → x = s.blk) ∧ q.src = s.ports.src ∧
          q.output = s.ports.output ++ (s.bank b).sealAll ((List.range (n + 1)).map fun j => nameBlock name (k + j)) := by
      intro t ht hsrc hbank hout hblk hframe
      obtain ⟨q, x, h1, hx, hx0, h2, h3⟩ := ih (k + 1) ht
      refine ⟨q, x, by rw [h1, hframe, hbank, advance_add, Nat.add_comm 1], ?_, by simp, by rw [h2, hsrc], ?_⟩
      · intro m hm
        obtain rfl : n = m := by omega
        cases n with
        | zero => rw [hx0 rfl, hblk]; rfl
        | succ n =>
          rw [hx n rfl, hbank, advance_add, Nat.add_comm 1 n, show k + 1 + n = k + (n + 1) by omega]
      rw [h3, hout, hbank, List.range_succ_eq_map, List.map_cons, sealAll_cons, List.map_map, List.append_assoc]
      congr 3
      apply List.map_congr_left
      intro j _
      show nameBlock name (k + 1 + j) = nameBlock name (k + (j + 1))
      congr 1; omega
    apply step
    · simpa using sinkAccepts_afterWrites ha _
    · simp
    · simp
    · simp
    · rfl
    · intro l x q; cases b <;> rfl

/-- One time round NAME_DEC's loop, on a block that fits and arrives. -/
theorem nameDecLoop_step (b : BankId) (fuel pos : Nat) {s : State} (hfit : pos + 16 ≤ s.params.mMax)
    (hl : 16 ≤ (deliver s.ports.src).length) :
    let x := (s.bank b).unseal (blockOfBytes ((deliver s.ports.src).take 16))
    let t := { ((s.setBank b ((s.bank b).advance 1)).setBlk x).setPorts (s.ports.afterRead 16) with
      mbuf := Memory.writeBytes s.mbuf pos (bytesOfBlock x) }
    nameDecLoop b (fuel + 1) pos s =
      if (bytesOfBlock x).any (· == 0) then
        .ok () { t with mlen := BitVec.ofNat 32 (pos + ((bytesOfBlock x).takeWhile (· != 0)).length) }
      else nameDecLoop b fuel (pos + 16) t := by
  intro x t
  have hx : x = (hybDecBlk b ((s.setPorts (s.ports.afterRead 16)).setBlk (blockOfBytes ((deliver s.ports.src).take 16)))).blk := by
    rw [hybDecBlk_eq]; cases b <;> rfl
  have ht : t = { hybDecBlk b ((s.setPorts (s.ports.afterRead 16)).setBlk (blockOfBytes ((deliver s.ports.src).take 16))) with
      mbuf := Memory.writeBytes (hybDecBlk b
        ((s.setPorts (s.ports.afterRead 16)).setBlk (blockOfBytes ((deliver s.ports.src).take 16)))).mbuf pos (bytesOfBlock x) } := by
    rw [hybDecBlk_eq]; cases b <;> rfl
  simp only [nameDecLoop, hfit, decide_true, require_true, bind_ok, srcBytes_eq, hl, if_true]
  rw [ht, hx]

/-! ### One block from the source (R251) -/

theorem loadBlock_full {s : State} (h : 16 ≤ (deliver s.ports.src).length) :
    loadBlock s =
      State.setPorts { s with final := false, blk := blockOfBytes ((deliver s.ports.src).take 16) } (s.ports.afterRead 16) := by
  have hn : ((deliver s.ports.src).take 16).length = 16 := by simp; omega
  simp only [loadBlock, tryReadBlock_eq, hn, if_true]; rfl

theorem loadBlock_short {s : State} (h : (deliver s.ports.src).length < 16) :
    loadBlock s =
      State.setPorts { s with final := true, blk := blockOfBytes (padBlock (deliver s.ports.src)) } (s.ports.afterRead 16) := by
  have hn : ¬ (deliver s.ports.src).length = 16 := by omega
  have ht : (deliver s.ports.src).take 16 = deliver s.ports.src := List.take_of_length_le (by omega)
  simp only [loadBlock, tryReadBlock_eq, ht, hn, if_false]; rfl

/-! ### The stream loops on a sink that accepts (R254 to R256) -/

/-- ENC_STREAM's loop: the sealed padded blocks of all the source delivers. -/
theorem encLoop_accepts (b : BankId) {n fuel : Nat} {s : State} (ha : s.ports.sinkAccepts)
    (hn : (deliver s.ports.src).length / 16 = n) (hf : n < fuel) :
    ∃ q, encLoop b fuel s =
        .ok () ((State.setBlk { s.setBank b ((s.bank b).advance (n + 1)) with final := true }
          (((s.bank b).advance n).seal (blockOfBytes (padBlock ((deliver s.ports.src).drop (16 * n)))))).setPorts q) ∧
      q.sinkAccepts ∧ q.src = afterFail s.ports.src ∧
      q.output = s.ports.output ++ (s.bank b).sealAll (paddedBlocks (deliver s.ports.src)) := by
  induction n generalizing s fuel with
  | zero =>
    obtain ⟨fuel, rfl⟩ : ∃ f, fuel = f + 1 := ⟨fuel - 1, by omega⟩
    have hl : (deliver s.ports.src).length < 16 := by omega
    simp only [encLoop, loadBlock_short hl, hybEncBlk_eq, snkBlock]
    rw [snkBytes_accepts _ _ (by simpa using sinkAccepts_afterRead ha 16)]
    simp only [bind_ok, setPorts_final, setBlk_final, setBank_final, if_true]
    refine ⟨(s.ports.afterRead 16).afterWrites
      (bytesOfBlock ((s.bank b).seal (blockOfBytes (padBlock (deliver s.ports.src))))), ?_, ?_, ?_, ?_⟩
    · cases b <;> simp <;> rfl
    · exact sinkAccepts_afterWrites (sinkAccepts_afterRead ha _) _
    · simp [afterRead_src_gt hl]
    · simp [paddedBlocks_short hl, Bank.sealAll]
  | succ n ih =>
    obtain ⟨fuel, rfl⟩ : ∃ f, fuel = f + 1 := ⟨fuel - 1, by omega⟩
    have hl : 16 ≤ (deliver s.ports.src).length := by omega
    have step : ∀ t : State, t.ports.sinkAccepts → deliver t.ports.src = (deliver s.ports.src).drop 16 →
        afterFail t.ports.src = afterFail s.ports.src → t.bank b = (s.bank b).advance 1 →
        t.ports.output = s.ports.output ++ bytesOfBlock ((s.bank b).seal (blockOfBytes ((deliver s.ports.src).take 16))) →
        (∀ l x q, (State.setBlk { t.setBank b l with final := true } x).setPorts q
          = (State.setBlk { s.setBank b l with final := true } x).setPorts q) →
        ∃ q, encLoop b fuel t =
            .ok () ((State.setBlk { s.setBank b ((s.bank b).advance (n + 1 + 1)) with final := true }
              (((s.bank b).advance (n + 1)).seal
                (blockOfBytes (padBlock ((deliver s.ports.src).drop (16 * (n + 1))))))).setPorts q) ∧
          q.sinkAccepts ∧ q.src = afterFail s.ports.src ∧
          q.output = s.ports.output ++ (s.bank b).sealAll (paddedBlocks (deliver s.ports.src)) := by
      intro t hsnk hsrc hfail hbank hout hframe
      obtain ⟨q, h1, h2, h3, h4⟩ := ih hsnk (fuel := fuel) (by rw [hsrc, List.length_drop]; omega) (by omega)
      have e1 : 1 + (n + 1) = n + 1 + 1 := by omega
      have e2 : 1 + n = n + 1 := by omega
      have e3 : 16 + 16 * n = 16 * (n + 1) := by omega
      refine ⟨q, ?_, h2, by rw [h3, hfail], ?_⟩
      · rw [h1, hframe, hbank, hsrc, List.drop_drop, advance_add, advance_add, e1, e2, e3]
      · rw [h4, hout, hbank, hsrc, paddedBlocks_cons hl, sealAll_cons, List.append_assoc]
    simp only [encLoop, loadBlock_full hl, hybEncBlk_eq, snkBlock]
    rw [snkBytes_accepts _ _ (by simpa using sinkAccepts_afterRead ha 16)]
    simp only [bind_ok, setPorts_final, setBlk_final, setBank_final, Bool.false_eq_true, if_false]
    apply step
    · rw [setPorts_ports]; apply sinkAccepts_afterWrites; simpa using sinkAccepts_afterRead ha 16
    · simp [deliver_afterRead hl]
    · simp [afterRead_src_le hl, afterFail_drop hl]
    · cases b <;> rfl
    · simp; cases b <;> rfl
    · intro l x q; cases b <;> rfl

/-- DEC_STREAM's loop, with `cur` read and not yet decrypted: all blocks but the last written, the last one left to trim. -/
theorem decLoop_accepts (b : BankId) {n fuel : Nat} (cur : List Byte) {s : State} (ha : s.ports.sinkAccepts)
    (hn : (deliver s.ports.src).length / 16 = n) (hf : n < fuel) :
    ∃ q, decLoop b fuel cur s =
        emitTrimmed (((s.setBank b ((s.bank b).advance (n + 1))).setBlk
          (blockOfBytes (((s.bank b).unsealAll (cur :: wholeBlocks (deliver s.ports.src))).getD n []))).setPorts q) ∧
      q.sinkAccepts ∧ q.src = afterFail s.ports.src ∧
      q.output = s.ports.output ++ (((s.bank b).unsealAll (cur :: wholeBlocks (deliver s.ports.src))).take n).flatten := by
  induction n generalizing s fuel cur with
  | zero =>
    obtain ⟨fuel, rfl⟩ : ∃ f, fuel = f + 1 := ⟨fuel - 1, by omega⟩
    have hl : (deliver s.ports.src).length < 16 := by omega
    have hne : ¬ ((deliver s.ports.src).take 16).length = 16 := by simp; omega
    simp only [decLoop, tryReadBlock_eq, hne, if_false, hybDecBlk_eq]
    refine ⟨s.ports.afterRead 16, ?_, sinkAccepts_afterRead ha _, by simp [afterRead_src_gt hl], by simp⟩
    simp [unsealAll_cons, Bank.advance]
  | succ n ih =>
    obtain ⟨fuel, rfl⟩ : ∃ f, fuel = f + 1 := ⟨fuel - 1, by omega⟩
    have hl : 16 ≤ (deliver s.ports.src).length := by omega
    have hne : ((deliver s.ports.src).take 16).length = 16 := by simp; omega
    have step : ∀ t : State, t.ports.sinkAccepts → deliver t.ports.src = (deliver s.ports.src).drop 16 →
        afterFail t.ports.src = afterFail s.ports.src → t.bank b = (s.bank b).advance 1 →
        t.ports.output = s.ports.output ++ bytesOfBlock ((s.bank b).unseal (blockOfBytes cur)) →
        (∀ l x q, ((t.setBank b l).setBlk x).setPorts q = ((s.setBank b l).setBlk x).setPorts q) →
        ∃ q, decLoop b fuel ((deliver s.ports.src).take 16) t =
            emitTrimmed (((s.setBank b ((s.bank b).advance (n + 1 + 1))).setBlk (blockOfBytes
              (((s.bank b).unsealAll (cur :: wholeBlocks (deliver s.ports.src))).getD (n + 1) []))).setPorts q) ∧
          q.sinkAccepts ∧ q.src = afterFail s.ports.src ∧
          q.output = s.ports.output ++
            (((s.bank b).unsealAll (cur :: wholeBlocks (deliver s.ports.src))).take (n + 1)).flatten := by
      intro t hsnk hsrc hfail hbank hout hframe
      obtain ⟨q, h1, h2, h3, h4⟩ := ih (fuel := fuel) ((deliver s.ports.src).take 16) hsnk
        (by rw [hsrc, List.length_drop]; omega) (by omega)
      have e1 : 1 + (n + 1) = n + 1 + 1 := by omega
      refine ⟨q, ?_, h2, by rw [h3, hfail], ?_⟩
      · rw [h1, hframe, hbank, hsrc, advance_add, e1, unsealAll_cons _ cur, List.getD_cons_succ, ← wholeBlocks_cons hl]
      · rw [h4, hout, hbank, hsrc, unsealAll_cons _ cur, ← wholeBlocks_cons hl, List.take_succ_cons, List.flatten_cons,
          List.append_assoc]
    simp only [decLoop, tryReadBlock_eq, hne, if_true, hybDecBlk_eq, snkBlock]
    rw [snkBytes_accepts _ _ (by simpa using sinkAccepts_afterRead ha 16)]
    simp only [bind_ok]
    apply step
    · rw [setPorts_ports]; apply sinkAccepts_afterWrites; simpa using sinkAccepts_afterRead ha 16
    · simp [deliver_afterRead hl]
    · simp [afterRead_src_le hl, afterFail_drop hl]
    · cases b <;> rfl
    · simp
    · intro l x q; cases b <;> rfl

/-- REENC_STREAM's loop: every whole block unsealed under bank 0 and sealed under bank 1, the last one left in `BLK`. -/
theorem reencLoop_accepts {n fuel : Nat} {s : State} (ha : s.ports.sinkAccepts)
    (hn : (deliver s.ports.src).length / 16 = n) (hf : n < fuel) :
    ∃ q x, reencLoop fuel s =
        .ok () { s with bank0 := s.bank0.advance n, bank1 := s.bank1.advance n, blk := x, ports := q } ∧
      (n = 0 → x = s.blk) ∧
      (∀ m, n = m + 1 → x = (s.bank1.advance m).seal ((s.bank0.advance m).unseal
        (blockOfBytes ((wholeBlocks (deliver s.ports.src)).getD m [])))) ∧ q.src = afterFail s.ports.src ∧
      q.output = s.ports.output ++ s.bank1.sealAll (s.bank0.unsealAll (wholeBlocks (deliver s.ports.src))) := by
  induction n generalizing s fuel with
  | zero =>
    obtain ⟨fuel, rfl⟩ : ∃ f, fuel = f + 1 := ⟨fuel - 1, by omega⟩
    have hl : (deliver s.ports.src).length < 16 := by omega
    have hne : ¬ ((deliver s.ports.src).take 16).length = 16 := by simp; omega
    simp only [reencLoop, tryReadBlock_eq, hne, if_false]
    exact ⟨s.ports.afterRead 16, s.blk, rfl, fun _ => rfl, by omega, by simp [afterRead_src_gt hl],
      by simp [wholeBlocks_short hl, Bank.unsealAll, Bank.sealAll]⟩
  | succ n ih =>
    obtain ⟨fuel, rfl⟩ : ∃ f, fuel = f + 1 := ⟨fuel - 1, by omega⟩
    have hl : 16 ≤ (deliver s.ports.src).length := by omega
    have hne : ((deliver s.ports.src).take 16).length = 16 := by simp; omega
    have step : ∀ t : State, t.ports.sinkAccepts → deliver t.ports.src = (deliver s.ports.src).drop 16 →
        afterFail t.ports.src = afterFail s.ports.src → t.bank0 = s.bank0.advance 1 → t.bank1 = s.bank1.advance 1 →
        t.ports.output = s.ports.output ++
          bytesOfBlock (s.bank1.seal (s.bank0.unseal (blockOfBytes ((deliver s.ports.src).take 16)))) →
        t.blk = s.bank1.seal (s.bank0.unseal (blockOfBytes ((deliver s.ports.src).take 16))) →
        (∀ k l x q, { t with bank0 := k, bank1 := l, blk := x, ports := q }
          = { s with bank0 := k, bank1 := l, blk := x, ports := q }) →
        ∃ q x, reencLoop fuel t =
            .ok () { s with bank0 := s.bank0.advance (n + 1), bank1 := s.bank1.advance (n + 1), blk := x, ports := q } ∧
          (n + 1 = 0 → x = s.blk) ∧
          (∀ m, n + 1 = m + 1 → x = (s.bank1.advance m).seal ((s.bank0.advance m).unseal
            (blockOfBytes ((wholeBlocks (deliver s.ports.src)).getD m [])))) ∧ q.src = afterFail s.ports.src ∧
          q.output = s.ports.output ++ s.bank1.sealAll (s.bank0.unsealAll (wholeBlocks (deliver s.ports.src))) := by
      intro t hsnk hsrc hfail hb0 hb1 hout hblk hframe
      obtain ⟨q, x, h1, hx0, hx, h3, h4⟩ := ih hsnk (fuel := fuel) (by rw [hsrc, List.length_drop]; omega) (by omega)
      refine ⟨q, x, ?_, by simp, ?_, by rw [h3, hfail], ?_⟩
      · rw [h1, hframe, hb0, hb1, advance_add, advance_add, Nat.add_comm 1 n]
      · intro m hm
        obtain rfl : n = m := by omega
        rw [wholeBlocks_cons hl]
        cases n with
        | zero => rw [hx0 rfl, hblk]; rfl
        | succ n => rw [hx n rfl, hb0, hb1, hsrc, advance_add, advance_add, Nat.add_comm 1 n, List.getD_cons_succ]
      · rw [h4, hout, hb0, hb1, hsrc, wholeBlocks_cons hl, unsealAll_cons, sealAll_cons, blockOfBytes_bytesOfBlock,
          List.append_assoc]
    simp only [reencLoop, tryReadBlock_eq, hne, if_true, hybDecBlk_eq, hybEncBlk_eq, snkBlock]
    rw [snkBytes_accepts _ _ (by simpa using sinkAccepts_afterRead ha 16)]
    simp only [bind_ok]
    apply step
    · rw [setPorts_ports]; apply sinkAccepts_afterWrites; simpa using sinkAccepts_afterRead ha 16
    · simp [deliver_afterRead hl]
    · simp [afterRead_src_le hl, afterFail_drop hl]
    · rfl
    · rfl
    · simp [State.bank, State.setBank]
    · rfl
    · intro k l x q; rfl

end Sys2Proof.Machine
end

