-- ==== Sys2Proof/Laws/Frame.lean ====
section
/-!
SUPPORT. What a part of a command body may change, and which faults it may raise: `Changes c s u` says that `u` differs from `s`
only in the pieces `c` names; `Framed c E s r` says so of the state a part ends in, and that it raises only faults of `E`. One
lemma for each shared operation and loop; `framed_bind` composes them.
-/

namespace Sys2Proof.Machine

/-- The state in which a part of a body ends, successfully or not. -/
def Run.last {α : Type} : Run α → State
  | .ok _ s => s
  | .raised _ s => s

/-- The pieces of state an operation may change. -/
structure Touched where
  material : Bool := false
  final : Bool := false
  blk : Bool := false
  src : Bool := false
  snk : Bool := false
  /-- The banks of which it may change the counter. -/
  ctr : BankId → Bool := fun _ => false
  /-- The banks of which it may change everything. -/
  bank : BankId → Bool := fun _ => false

/-- Bank `b` only. -/
def only (b : BankId) : BankId → Bool := fun x => x == b

@[simp] theorem only_self (b : BankId) : only b b = true := by simp [only]

/-- `u` differs from `s` only in the pieces `c` names. -/
structure Changes (c : Touched) (s u : State) : Prop where
  fault : u.fault = s.fault
  cause : u.cause = s.cause
  params : u.params = s.params
  host : u.host = s.host
  rdata : u.rdata = s.rdata
  material : c.material = false → u.mbuf = s.mbuf ∧ u.mlen = s.mlen
  final : c.final = false → u.final = s.final
  blk : c.blk = false → u.blk = s.blk
  src : c.src = false → u.ports.src = s.ports.src
  snk : c.snk = false → u.ports.snk = s.ports.snk ∧ u.ports.output = s.ports.output
  ports : c.src = false → c.snk = false → u.ports = s.ports
  ctr : ∀ b, c.bank b = false → u.bank b = { s.bank b with ctr := (u.bank b).ctr }
  bank : ∀ b, c.bank b = false → c.ctr b = false → u.bank b = s.bank b

theorem Changes.refl (c : Touched) (s : State) : Changes c s s :=
  ⟨rfl, rfl, rfl, rfl, rfl, fun _ => ⟨rfl, rfl⟩, fun _ => rfl, fun _ => rfl, fun _ => rfl, fun _ => ⟨rfl, rfl⟩,
    fun _ _ => rfl, fun _ _ => rfl, fun _ _ _ => rfl⟩

theorem Changes.trans {c : Touched} {s t u : State} (h : Changes c s t) (k : Changes c t u) : Changes c s u where
  fault := k.fault.trans h.fault
  cause := k.cause.trans h.cause
  params := k.params.trans h.params
  host := k.host.trans h.host
  rdata := k.rdata.trans h.rdata
  material hc := ⟨(k.material hc).1.trans (h.material hc).1, (k.material hc).2.trans (h.material hc).2⟩
  final hc := (k.final hc).trans (h.final hc)
  blk hc := (k.blk hc).trans (h.blk hc)
  src hc := (k.src hc).trans (h.src hc)
  snk hc := ⟨(k.snk hc).1.trans (h.snk hc).1, (k.snk hc).2.trans (h.snk hc).2⟩
  ports h1 h2 := (k.ports h1 h2).trans (h.ports h1 h2)
  ctr b hb := by rw [k.ctr b hb, h.ctr b hb]
  bank b h1 h2 := (k.bank b h1 h2).trans (h.bank b h1 h2)

/-! ### The state operations -/

theorem changes_read {c : Touched} (hc : c.src = true) (s : State) (n : Nat) : Changes c s (s.setPorts (s.ports.afterRead n)) := by
  constructor <;> simp [hc]

theorem changes_sink {c : Touched} (hc : c.snk = true) {s : State} {q : Ports} (hq : q.src = s.ports.src) :
    Changes c s (s.setPorts q) := by
  constructor <;> simp [hc, hq]

theorem changes_blk {c : Touched} (hc : c.blk = true) (s : State) (x : Block) : Changes c s (s.setBlk x) := by
  constructor <;> simp [hc]

theorem changes_material {c : Touched} (hc : c.material = true) (s : State) (m : List Host.Cell) (n : Word) :
    Changes c s { s with mbuf := m, mlen := n } where
  fault := rfl
  cause := rfl
  params := rfl
  host := rfl
  rdata := rfl
  material h := by rw [hc] at h; cases h
  final _ := rfl
  blk _ := rfl
  src _ := rfl
  snk _ := ⟨rfl, rfl⟩
  ports _ _ := rfl
  ctr b _ := by cases b <;> rfl
  bank b _ _ := by cases b <;> rfl

theorem changes_final {c : Touched} (hc : c.final = true) (s : State) (f : Bool) : Changes c s { s with final := f } where
  fault := rfl
  cause := rfl
  params := rfl
  host := rfl
  rdata := rfl
  material _ := ⟨rfl, rfl⟩
  final h := by rw [hc] at h; cases h
  blk _ := rfl
  src _ := rfl
  snk _ := ⟨rfl, rfl⟩
  ports _ _ := rfl
  ctr b _ := by cases b <;> rfl
  bank b _ _ := by cases b <;> rfl

theorem changes_ctr {c : Touched} {b : BankId} (hc : c.ctr b = true) (s : State) (x : Block) :
    Changes c s (s.setBank b { s.bank b with ctr := x }) := by
  constructor <;> (try simp)
  · intro d _; cases b <;> cases d <;> rfl
  · intro d _ hd; cases b <;> cases d <;> first | rfl | (rw [hc] at hd; cases hd)

theorem changes_bank {c : Touched} {b : BankId} (hc : c.bank b = true) (s : State) (k : Bank) : Changes c s (s.setBank b k) := by
  constructor <;> (try simp)
  · intro d hd; cases b <;> cases d <;> first | rfl | (rw [hc] at hd; cases hd)
  · intro d hd _; cases b <;> cases d <;> first | rfl | (rw [hc] at hd; cases hd)

theorem changes_hybEncBlk {c : Touched} {b : BankId} (hblk : c.blk = true) (hctr : c.ctr b = true) (s : State) :
    Changes c s (hybEncBlk b s) := by
  rw [hybEncBlk_eq]
  exact (changes_ctr hctr s (ctrInc (s.bank b).ctr)).trans (changes_blk hblk _ _)

theorem changes_hybDecBlk {c : Touched} {b : BankId} (hblk : c.blk = true) (hctr : c.ctr b = true) (s : State) :
    Changes c s (hybDecBlk b s) := by
  rw [hybDecBlk_eq]
  exact (changes_ctr hctr s (ctrInc (s.bank b).ctr)).trans (changes_blk hblk _ _)

theorem changes_loadBlock {c : Touched} (hfinal : c.final = true) (hblk : c.blk = true) (hsrc : c.src = true) (s : State) :
    Changes c s (loadBlock s) := by
  by_cases h : 16 ≤ (deliver s.ports.src).length
  · rw [loadBlock_full h]
    exact ((changes_final hfinal s false).trans (changes_blk hblk _ _)).trans (changes_read hsrc _ 16)
  · rw [loadBlock_short (by omega)]
    exact ((changes_final hfinal s true).trans (changes_blk hblk _ _)).trans (changes_read hsrc _ 16)

/-! ### Parts of a body -/

/-- The part changes only what `c` names and raises only faults of `E`. -/
def Framed {α : Type} (c : Touched) (E : List Cause) (s : State) (r : Run α) : Prop :=
  Changes c s r.last ∧ ∀ e t, r = .raised e t → e ∈ E

theorem framed_ok {α : Type} {c : Touched} {E : List Cause} {s t : State} {a : α} (h : Changes c s t) :
    Framed c E s (Run.ok a t) := ⟨h, by intro e u hu; cases hu⟩

theorem framed_raised {α : Type} {c : Touched} {E : List Cause} {s t : State} {e : Cause} (h : Changes c s t) (he : e ∈ E) :
    Framed (α := α) c E s (.raised e t) := ⟨h, by intro e' u hu; cases hu; exact he⟩

theorem framed_bind {α β : Type} {c : Touched} {E : List Cause} {s : State} {r : Run α} {f : α → State → Run β}
    (h : Framed c E s r) (hf : ∀ a t, r = .ok a t → Framed c E t (f a t)) : Framed c E s (r.bind f) := by
  cases r with
  | ok a t => exact ⟨h.1.trans (hf a t rfl).1, (hf a t rfl).2⟩
  | raised e t => exact ⟨h.1, fun e' u hu => h.2 e' u (by cases hu; rfl)⟩

/-- A part that runs after a change. -/
theorem framed_after {α : Type} {c : Touched} {E : List Cause} {s t : State} {r : Run α} (h : Changes c s t)
    (hr : Framed c E t r) : Framed c E s r := ⟨h.trans hr.1, hr.2⟩

theorem framed_require {c : Touched} {E : List Cause} {s : State} {e : Cause} (x : Bool) (he : e ∈ E) :
    Framed c E s (require x e s) := by
  cases x
  · exact framed_raised (.refl _ _) he
  · exact framed_ok (.refl _ _)

section
variable {c : Touched} {E : List Cause}

theorem framed_srcBytes (hsrc : c.src = true) (he : .ioRead ∈ E) (n : Nat) (s : State) : Framed c E s (srcBytes n s) := by
  rw [srcBytes_eq]; split
  · exact framed_ok (changes_read hsrc _ _)
  · exact framed_raised (changes_read hsrc _ _) he

theorem framed_srcByte (hsrc : c.src = true) (he : .ioRead ∈ E) (s : State) : Framed c E s (srcByte s) := by
  rw [srcByte_eq]; split
  · exact framed_raised (changes_read hsrc _ _) he
  · exact framed_ok (changes_read hsrc _ _)

theorem framed_snkBytes (hsnk : c.snk = true) (he : .ioWrite ∈ E) (vs : List Byte) (s : State) :
    Framed c E s (snkBytes vs s) := by
  rcases snkBytes_cases vs s with ⟨q, h, _, hq, _⟩ | ⟨q, n, h, _, hq, _⟩
  · rw [h]; exact framed_ok (changes_sink hsnk hq)
  · rw [h]; exact framed_raised (changes_sink hsnk hq) he

theorem framed_snkBlock (hsnk : c.snk = true) (he : .ioWrite ∈ E) (s : State) : Framed c E s (snkBlock s) :=
  framed_snkBytes hsnk he _ _

theorem framed_scheduleFromMaterial (hex : Bool) (b : BankId) (s : State) (h1 : .inputRounds ∈ E) (h2 : .roundsUnsupported ∈ E)
    (h3 : .mbufOverflow ∈ E) (h4 : .inputHex ∈ E) : Framed c E s (scheduleFromMaterial hex b s) := by
  refine framed_bind (framed_bind (framed_require _ h1) fun _ t _ => framed_require _ h2) fun _ t _ => ?_
  refine framed_bind (framed_require _ h3) fun _ u _ => ?_
  split
  · exact framed_raised (.refl _ _) h4
  · exact framed_ok (.refl _ _)

theorem framed_readMagic (hsrc : c.src = true) (he : .ioRead ∈ E) (hm : .fmtMagic ∈ E) (ms : List Byte) (s : State) :
    Framed c E s (readMagic ms s) := by
  induction ms generalizing s with
  | nil => exact framed_ok (.refl _ _)
  | cons m ms ih =>
    exact framed_bind (framed_srcByte hsrc he s) fun v t _ => framed_bind (framed_require _ hm) fun _ u _ => ih u

theorem framed_readCount (hsrc : c.src = true) (he : .ioRead ∈ E) (hr : .fmtRounds ∈ E) (f n q : Nat) (s : State) :
    Framed c E s (readCount f n q s) := by
  induction f generalizing n q s with
  | zero => exact framed_raised (.refl _ _) he
  | succ f ih =>
    refine framed_bind (framed_srcByte hsrc he s) fun v t _ => ?_
    split
    · exact framed_ok (.refl _ _)
    · split
      · exact framed_raised (.refl _ _) hr
      · exact ih _ _ _

theorem framed_checkCount (h1 : .fmtRounds ∈ E) (h2 : .roundsUnsupported ∈ E) (n q : Nat) (s : State) :
    Framed c E s (checkCount n q s) :=
  framed_bind (framed_require _ h1) fun _ _ _ => framed_bind (framed_require _ h1) fun _ _ _ => framed_require _ h2

theorem framed_nameEncLoop {b : BankId} (hblk : c.blk = true) (hctr : c.ctr b = true) (hsnk : c.snk = true) (he : .ioWrite ∈ E)
    (name : List Byte) (n k : Nat) (s : State) : Framed c E s (nameEncLoop b name n k s) := by
  induction n generalizing k s with
  | zero => exact framed_ok (.refl _ _)
  | succ n ih =>
    exact framed_bind (framed_after ((changes_blk hblk _ _).trans (changes_hybEncBlk hblk hctr _)) (framed_snkBlock hsnk he _))
      fun _ t _ => ih _ _

theorem framed_nameDecLoop {b : BankId} (hblk : c.blk = true) (hctr : c.ctr b = true) (hsrc : c.src = true)
    (hmat : c.material = true) (he : .ioRead ∈ E) (ho : .mbufOverflow ∈ E) (f pos : Nat) (s : State) :
    Framed c E s (nameDecLoop b f pos s) := by
  induction f generalizing pos s with
  | zero => exact framed_raised (.refl _ _) he
  | succ f ih =>
    refine framed_bind (framed_require _ ho) fun _ s1 _ => ?_
    refine framed_bind (framed_srcBytes hsrc he _ _) fun p s2 _ => ?_
    have block := (changes_blk hblk s2 (blockOfBytes p)).trans (changes_hybDecBlk hblk hctr _)
    simp only
    split
    · exact framed_ok (block.trans (changes_material hmat _ _ _))
    · exact framed_after (block.trans (changes_material hmat _ _ _)) (ih _ _)

theorem framed_encLoop {b : BankId} (hblk : c.blk = true) (hctr : c.ctr b = true) (hsrc : c.src = true) (hfinal : c.final = true)
    (hsnk : c.snk = true) (he : .ioWrite ∈ E) (f : Nat) (s : State) : Framed c E s (encLoop b f s) := by
  induction f generalizing s with
  | zero => exact framed_ok (.refl _ _)
  | succ f ih =>
    refine framed_bind (framed_after ((changes_loadBlock hfinal hblk hsrc _).trans (changes_hybEncBlk hblk hctr _))
      (framed_snkBlock hsnk he _)) fun _ t _ => ?_
    split
    · exact framed_ok (.refl _ _)
    · exact ih _

theorem framed_emitTrimmed (hsnk : c.snk = true) (he : .ioWrite ∈ E) (hp : .fmtPad ∈ E) (s : State) :
    Framed c E s (emitTrimmed s) := by
  unfold emitTrimmed; split
  · exact framed_raised (.refl _ _) hp
  · exact framed_snkBytes hsnk he _ _

theorem framed_decLoop {b : BankId} (hblk : c.blk = true) (hctr : c.ctr b = true) (hsrc : c.src = true) (hsnk : c.snk = true)
    (he : .ioWrite ∈ E) (hp : .fmtPad ∈ E) (f : Nat) (cur : List Byte) (s : State) : Framed c E s (decLoop b f cur s) := by
  induction f generalizing cur s with
  | zero => exact framed_ok (.refl _ _)
  | succ f ih =>
    have block := ((changes_read hsrc s 16).trans (changes_blk hblk _ (blockOfBytes cur))).trans (changes_hybDecBlk hblk hctr _)
    simp only [decLoop, tryReadBlock_eq]
    split
    · exact framed_bind (framed_after block (framed_snkBlock hsnk he _)) fun _ t _ => ih _ _
    · exact framed_after block (framed_emitTrimmed hsnk he hp _)

theorem framed_reencLoop (hblk : c.blk = true) (hctr : ∀ b, c.ctr b = true) (hsrc : c.src = true) (hsnk : c.snk = true)
    (he : .ioWrite ∈ E) (f : Nat) (s : State) : Framed c E s (reencLoop f s) := by
  induction f generalizing s with
  | zero => exact framed_ok (.refl _ _)
  | succ f ih =>
    simp only [reencLoop, tryReadBlock_eq]
    split
    · refine framed_bind (framed_after (((changes_read hsrc s 16).trans (changes_blk hblk _ _)).trans
        ((changes_hybDecBlk hblk (hctr .b0) _).trans (changes_hybEncBlk hblk (hctr .b1) _))) (framed_snkBlock hsnk he _)) ?_
      exact fun _ t _ => ih _
    · exact framed_ok (changes_read hsrc _ _)

end

end Sys2Proof.Machine
end

