-- ==== Sys2Proof/Laws/OtherBank.lean ====
section
/-!
SUPPORT. The banks are independent (R21): `Blind b k g` says that the part `g` of a body for bank `b` does the same, and ends in the
same way, whatever the other bank holds, and leaves it. One lemma for each operation and loop; `blind_bind` composes them.
-/

namespace Sys2Proof.Machine

/-- The part's result with another last state. -/
def Run.mapState {α : Type} (φ : State → State) : Run α → Run α
  | .ok a s => .ok a (φ s)
  | .raised e s => .raised e (φ s)

/-- The state with `k` in the bank that is not `b`. -/
def withOther (b : BankId) (k : Bank) (s : State) : State := s.setBank b.other k

/-- See the head of this file. -/
def Blind {α : Type} (b : BankId) (k : Bank) (g : State → Run α) : Prop :=
  ∀ s, g (withOther b k s) = (g s).mapState (withOther b k)

section
variable (b : BankId) (k : Bank)

@[simp] theorem withOther_bank (s : State) : (withOther b k s).bank b = s.bank b := by simp [withOther]
@[simp] theorem withOther_blk (s : State) : (withOther b k s).blk = s.blk := by simp [withOther]
@[simp] theorem withOther_mbuf (s : State) : (withOther b k s).mbuf = s.mbuf := by simp [withOther]
@[simp] theorem withOther_mlen (s : State) : (withOther b k s).mlen = s.mlen := by simp [withOther]
@[simp] theorem withOther_final (s : State) : (withOther b k s).final = s.final := by simp [withOther]
@[simp] theorem withOther_params (s : State) : (withOther b k s).params = s.params := by simp [withOther]
@[simp] theorem withOther_ports (s : State) : (withOther b k s).ports = s.ports := by simp [withOther]
@[simp] theorem withOther_material (s : State) : (withOther b k s).material = s.material := by simp [withOther]
@[simp] theorem withOther_readBound (s : State) : readBound (withOther b k s) = readBound s := by simp [readBound]

theorem withOther_setPorts (s : State) (q : Ports) : (withOther b k s).setPorts q = withOther b k (s.setPorts q) := by
  cases b <;> rfl
theorem withOther_setBlk (s : State) (x : Block) : (withOther b k s).setBlk x = withOther b k (s.setBlk x) := by cases b <;> rfl
theorem withOther_setBank (s : State) (l : Bank) : (withOther b k s).setBank b l = withOther b k (s.setBank b l) := by
  cases b <;> rfl
theorem withOther_clearMaterial (s : State) : (withOther b k s).clearMaterial = withOther b k s.clearMaterial := by
  cases b <;> rfl
theorem withOther_hybEncBlk (s : State) : hybEncBlk b (withOther b k s) = withOther b k (hybEncBlk b s) := by cases b <;> rfl
theorem withOther_hybDecBlk (s : State) : hybDecBlk b (withOther b k s) = withOther b k (hybDecBlk b s) := by cases b <;> rfl

theorem withOther_loadBlock (s : State) : loadBlock (withOther b k s) = withOther b k (loadBlock s) := by
  simp only [loadBlock, tryReadBlock_eq, withOther_ports, withOther_setPorts]
  split <;> cases b <;> rfl

variable {b k}

theorem blind_bind {α β : Type} {g : State → Run α} {f : α → State → Run β} (hg : Blind b k g) (hf : ∀ a, Blind b k (f a)) :
    Blind b k fun s => (g s).bind f := by
  intro s
  simp only [hg s]
  cases g s with
  | ok a t => exact hf a t
  | raised e t => rfl

theorem blind_require {c : State → Bool} {e : Cause} (hc : ∀ s, c (withOther b k s) = c s) :
    Blind b k fun s => require (c s) e s := by
  intro s
  simp only [hc s]
  cases c s <;> rfl

theorem blind_requireKey : Blind b k (requireKey b) := blind_require fun s => by simp

theorem blind_checkMlen : Blind b k checkMlen := blind_require fun s => by simp

theorem blind_checkRounds : Blind b k (checkRounds b) :=
  blind_bind (blind_require fun s => by simp) fun _ => blind_require fun s => by simp

theorem blind_scheduleFromMaterial (hex : Bool) : Blind b k (scheduleFromMaterial hex b) := by
  refine blind_bind blind_checkRounds fun _ => blind_bind blind_checkMlen fun _ s => ?_
  simp only [withOther_material, withOther_bank]
  split <;> rfl

theorem blind_srcBytes (n : Nat) : Blind b k (srcBytes n) := by
  intro s; simp only [srcBytes_eq, withOther_ports, withOther_setPorts]; split <;> rfl

theorem blind_srcByte : Blind b k srcByte := by
  intro s; simp only [srcByte_eq, withOther_ports, withOther_setPorts]; split <;> rfl

theorem blind_snkByte (v : Byte) : Blind b k (snkByte v) := by
  intro s
  simp only [snkByte, snkWrite, withOther_ports, withOther_setPorts]
  match s.ports.snk with
  | [] => rfl
  | true :: _ => rfl
  | false :: _ => rfl

theorem blind_snkBytes (vs : List Byte) : Blind b k (snkBytes vs) := by
  induction vs with
  | nil => intro s; rfl
  | cons v vs ih => exact blind_bind (blind_snkByte v) fun _ => ih

theorem blind_snkBlock : Blind b k snkBlock := by
  intro s; unfold snkBlock; rw [withOther_blk]; exact blind_snkBytes _ s

theorem blind_readMagic (ms : List Byte) : Blind b k (readMagic ms) := by
  induction ms with
  | nil => intro s; rfl
  | cons m ms ih => exact blind_bind blind_srcByte fun v => blind_bind (blind_require fun _ => rfl) fun _ => ih

theorem blind_readCount (f n q : Nat) : Blind b k (readCount f n q) := by
  induction f generalizing n q with
  | zero => intro s; rfl
  | succ f ih =>
    refine blind_bind blind_srcByte fun v => ?_
    intro s
    split
    · rfl
    · split
      · rfl
      · exact ih _ _ s

theorem blind_checkCount (n q : Nat) : Blind b k (checkCount n q) :=
  blind_bind (blind_require fun _ => rfl) fun _ => blind_bind (blind_require fun _ => rfl) fun _ =>
    blind_require fun s => by simp

theorem blind_nameEncLoop (name : List Byte) (n j : Nat) : Blind b k (nameEncLoop b name n j) := by
  induction n generalizing j with
  | zero => intro s; rfl
  | succ n ih =>
    intro s
    simp only [nameEncLoop, withOther_setBlk, withOther_hybEncBlk]
    exact blind_bind (blind_snkBlock (b := b) (k := k)) (fun _ => ih (j + 1)) _

theorem blind_nameDecLoop (f pos : Nat) : Blind b k (nameDecLoop b f pos) := by
  induction f generalizing pos with
  | zero => intro s; rfl
  | succ f ih =>
    refine blind_bind (blind_require fun s => by simp) fun _ => blind_bind (blind_srcBytes 16) fun p s => ?_
    simp only [withOther_setBlk, withOther_hybDecBlk, withOther_mbuf]
    generalize hybDecBlk b _ = t
    rw [withOther_blk]
    generalize Memory.writeBytes _ _ _ = m
    split
    · cases b <;> rfl
    · rw [← ih]; congr 1; cases b <;> rfl

theorem blind_encLoop (f : Nat) : Blind b k (encLoop b f) := by
  induction f with
  | zero => intro s; rfl
  | succ f ih =>
    intro s
    simp only [encLoop, withOther_loadBlock, withOther_hybEncBlk]
    refine blind_bind (blind_snkBlock (b := b) (k := k)) (fun _ t => ?_) _
    rw [withOther_final]
    split
    · rfl
    · exact ih _

theorem blind_emitTrimmed : Blind b k emitTrimmed := by
  intro s
  unfold emitTrimmed; rw [withOther_blk]
  split
  · rfl
  · exact blind_snkBytes _ s

theorem blind_decLoop (f : Nat) (cur : List Byte) : Blind b k (decLoop b f cur) := by
  induction f generalizing cur with
  | zero => intro s; rfl
  | succ f ih =>
    intro s
    simp only [decLoop, tryReadBlock_eq, withOther_ports, withOther_setPorts, withOther_setBlk, withOther_hybDecBlk]
    split
    · exact blind_bind (blind_snkBlock (b := b) (k := k)) (fun _ => ih _) _
    · exact blind_emitTrimmed _

end

end Sys2Proof.Machine
end

