-- ==== Sys2Proof/Laws/PerInstr.lean ====
section
/-!
SUPPORT. The statement made for each instruction as syntax: its word matches its own row of R92 (30_encoding.md), `c & mask = match`.
-/

namespace Sys2Proof.Laws.RowMatch

/-- The instruction's word has its row's pattern under its row's mask (R92). -/
def Statement (i : Instr) : Prop := encode i &&& rowMask i = rowMatch i

theorem nop : Statement .nop := by unfold Statement; decide +kernel
theorem rotl : Statement .rotl := by unfold Statement; decide +kernel
theorem rotr : Statement .rotr := by unfold Statement; decide +kernel
theorem mclr : Statement .mclr := by unfold Statement; decide +kernel
theorem genSched (hex : Bool) (b : BankId) : Statement (.genSched hex b) := by unfold Statement; cases hex <;> cases b <;> decide +kernel
theorem nonceDerive (hex : Bool) (b : BankId) : Statement (.nonceDerive hex b) := by unfold Statement; cases hex <;> cases b <;> decide +kernel
theorem rc6Enc (b : BankId) : Statement (.rc6Enc b) := by unfold Statement; cases b <;> decide +kernel
theorem rc6Dec (b : BankId) : Statement (.rc6Dec b) := by unfold Statement; cases b <;> decide +kernel
theorem hybEnc (b : BankId) : Statement (.hybEnc b) := by unfold Statement; cases b <;> decide +kernel
theorem hybDec (b : BankId) : Statement (.hybDec b) := by unfold Statement; cases b <;> decide +kernel
theorem ctrInc (b : BankId) : Statement (.ctrInc b) := by unfold Statement; cases b <;> decide +kernel
theorem hdrWrite (b : BankId) : Statement (.hdrWrite b) := by unfold Statement; cases b <;> decide +kernel
theorem hdrRead (b : BankId) : Statement (.hdrRead b) := by unfold Statement; cases b <;> decide +kernel
theorem pwcVerify (b : BankId) : Statement (.pwcVerify b) := by unfold Statement; cases b <;> decide +kernel
theorem nameEnc (b : BankId) : Statement (.nameEnc b) := by unfold Statement; cases b <;> decide +kernel
theorem nameDec (b : BankId) : Statement (.nameDec b) := by unfold Statement; cases b <;> decide +kernel
theorem readBlock : Statement .readBlock := by unfold Statement; decide +kernel
theorem trimEmit : Statement .trimEmit := by unfold Statement; decide +kernel
theorem encStream (b : BankId) : Statement (.encStream b) := by unfold Statement; cases b <;> decide +kernel
theorem decStream (b : BankId) : Statement (.decStream b) := by unfold Statement; cases b <;> decide +kernel
theorem reencStream : Statement .reencStream := by unfold Statement; decide +kernel
theorem sreset : Statement .sreset := by unfold Statement; decide +kernel

end Sys2Proof.Laws.RowMatch
end

