-- ==== Sys2Proof/Laws/Traffic.lean ====
section
/-!
SUPPORT. The port traffic of command bodies (R69, R70, R72 c): `Traffic s r` says that the part `r`, started in `s`, did some port
operations, read nothing after a `FAIL` of the source, and stopped with `E_IO_WRITE` right at a `FAIL` of the sink; `Steady s r`
says besides that no port failed if the part succeeded, so that more may follow. One lemma for each port operation and loop.
-/

namespace Sys2Proof.Machine

/-! ### Event lists -/

/-- After a `FAIL` of the source there is no further read. -/
def QuietAfterFail (evs : List PortEvent) : Prop :=
  ∀ pre post, evs = pre ++ .readFail :: post → .readFail ∉ post ∧ ∀ v, .read v ∉ post

/-- A `FAIL` of the sink is the last event, and then `P`. -/
def EndsAtSinkFail (evs : List PortEvent) (P : Prop) : Prop :=
  ∀ pre v post, evs = pre ++ .writeFail v :: post → post = [] ∧ P

/-- No port failed. -/
def Unfailed (evs : List PortEvent) : Prop := .readFail ∉ evs ∧ ∀ v, .writeFail v ∉ evs

/-- Nothing was read. -/
def WritesOnly (evs : List PortEvent) : Prop := ∀ e ∈ evs, (∃ v, e = .write v) ∨ ∃ v, e = .writeFail v

theorem quiet_of_unfailed {a : List PortEvent} (h : .readFail ∉ a) : QuietAfterFail a := by
  intro pre post e; subst e; exact absurd (by simp) h

theorem quiet_append_left {a b : List PortEvent} (h : .readFail ∉ a) (hb : QuietAfterFail b) : QuietAfterFail (a ++ b) := by
  intro pre post e
  rcases List.append_eq_append_iff.1 e with ⟨c, rfl, hc⟩ | ⟨c, rfl, hc⟩
  · exact hb c post hc
  · cases c with
    | nil => exact hb [] post (by simpa using hc.symm)
    | cons x c => simp at hc; exact absurd (by simp [← hc.1]) h

theorem quiet_append_writes {a b : List PortEvent} (ha : QuietAfterFail a) (hb : WritesOnly b) : QuietAfterFail (a ++ b) := by
  have noFail : .readFail ∉ b := fun h => by simpa using hb _ h
  have noRead : ∀ v, .read v ∉ b := fun v h => by simpa using hb _ h
  intro pre post e
  rcases List.append_eq_append_iff.1 e with ⟨c, rfl, hc⟩ | ⟨c, rfl, hc⟩
  · exact absurd (by simp [hc]) noFail
  · cases c with
    | nil => simp at hc; exact absurd (by simp [← hc]) noFail
    | cons x c =>
      simp at hc
      obtain ⟨rfl, rfl⟩ := hc
      obtain ⟨h1, h2⟩ := ha pre c rfl
      exact ⟨by simp [h1, noFail], fun v => by simp [h2 v, noRead v]⟩

theorem quiet_of_writes {b : List PortEvent} (hb : WritesOnly b) : QuietAfterFail b :=
  quiet_append_writes (a := []) (quiet_of_unfailed (by simp)) hb

theorem sinkFail_of_unfailed {a : List PortEvent} {P : Prop} (h : ∀ v, .writeFail v ∉ a) : EndsAtSinkFail a P := by
  intro pre v post e; subst e; exact absurd (by simp) (h v)

theorem sinkFail_append {a b : List PortEvent} {P : Prop} (h : ∀ v, .writeFail v ∉ a) (hb : EndsAtSinkFail b P) :
    EndsAtSinkFail (a ++ b) P := by
  intro pre v post e
  rcases List.append_eq_append_iff.1 e with ⟨c, rfl, hc⟩ | ⟨c, rfl, hc⟩
  · exact hb c v post hc
  · cases c with
    | nil => exact hb [] v post (by simpa using hc.symm)
    | cons x c => simp at hc; exact absurd (by simp [← hc.1]) (h v)

/-! ### Parts of a body -/

/-- The part succeeded. -/
def Run.succeeded {α : Type} : Run α → Prop
  | .ok _ _ => True
  | .raised _ _ => False

/-- The part raised `E_IO_WRITE`. -/
def Run.sinkFailed {α : Type} : Run α → Prop
  | .ok _ _ => False
  | .raised e _ => e = .ioWrite

/-- See the head of this file. -/
def Traffic {α : Type} (s : State) (r : Run α) : Prop :=
  ∃ evs : List PortEvent, r.last.ports = evs.foldl Ports.happen s.ports ∧ QuietAfterFail evs ∧
    EndsAtSinkFail evs r.sinkFailed

/-- See the head of this file. -/
def Steady {α : Type} (s : State) (r : Run α) : Prop :=
  ∃ evs : List PortEvent, r.last.ports = evs.foldl Ports.happen s.ports ∧ QuietAfterFail evs ∧
    EndsAtSinkFail evs r.sinkFailed ∧ (r.succeeded → Unfailed evs)

theorem Steady.traffic {α : Type} {s : State} {r : Run α} (h : Steady s r) : Traffic s r := by
  obtain ⟨evs, h1, h2, h3, _⟩ := h
  exact ⟨evs, h1, h2, h3⟩

/-- A part that leaves the ports alone. -/
theorem steady_same {α : Type} {s : State} {r : Run α} (h : r.last.ports = s.ports) : Steady s r :=
  ⟨[], h, quiet_of_unfailed (by simp), sinkFail_of_unfailed (by simp), fun _ => ⟨by simp, by simp⟩⟩

/-- A part that runs after a change that leaves the ports alone. -/
theorem steady_after {α : Type} {s t : State} {r : Run α} (h : t.ports = s.ports) (hr : Steady t r) : Steady s r := by
  unfold Steady at *; rwa [← h]

theorem traffic_after {α : Type} {s t : State} {r : Run α} (h : t.ports = s.ports) (hr : Traffic t r) : Traffic s r := by
  unfold Traffic at *; rwa [← h]

theorem steady_bind {α β : Type} {s : State} {r : Run α} {f : α → State → Run β} (h : Steady s r)
    (hf : ∀ a t, r = .ok a t → Steady t (f a t)) : Steady s (r.bind f) := by
  obtain ⟨evs, h1, h2, h3, h4⟩ := h
  cases r with
  | ok a t =>
    obtain ⟨more, k1, k2, k3, k4⟩ := hf a t rfl
    obtain ⟨u1, u2⟩ := h4 trivial
    refine ⟨evs ++ more, by rw [List.foldl_append, ← h1]; exact k1, quiet_append_left u1 k2, sinkFail_append u2 k3, fun hs => ?_⟩
    exact ⟨by simp [u1, (k4 hs).1], fun v => by simp [u2 v, (k4 hs).2 v]⟩
  | raised e t => exact ⟨evs, h1, h2, h3, fun hs => hs.elim⟩

theorem traffic_bind {α β : Type} {s : State} {r : Run α} {f : α → State → Run β} (h : Steady s r)
    (hf : ∀ a t, r = .ok a t → Traffic t (f a t)) : Traffic s (r.bind f) := by
  obtain ⟨evs, h1, h2, h3, h4⟩ := h
  cases r with
  | ok a t =>
    obtain ⟨more, k1, k2, k3⟩ := hf a t rfl
    obtain ⟨u1, u2⟩ := h4 trivial
    exact ⟨evs ++ more, by rw [List.foldl_append, ← h1]; exact k1, quiet_append_left u1 k2, sinkFail_append u2 k3⟩
  | raised e t => exact ⟨evs, h1, h2, h3⟩

theorem steady_require {s : State} (x : Bool) (e : Cause) : Steady s (require x e s) := by
  apply steady_same; cases x <;> rfl

/-! ### The port operations -/

/-- The events of up to `n` reads. -/
theorem afterRead_events (p : Ports) (n : Nat) :
    ∃ evs : List PortEvent, p.afterRead n = evs.foldl Ports.happen p ∧ QuietAfterFail evs ∧ (∀ v, .writeFail v ∉ evs) ∧
      (∀ v, .write v ∉ evs) ∧ (n ≤ (deliver p.src).length → .readFail ∉ evs) ∧
      ((deliver p.src).length < n → .readFail ∈ evs) ∧ bytesRead evs = min n (deliver p.src).length := by
  obtain ⟨evs, h⟩ := afterRead_runs p n
  have trace := trace_foldl evs p
  rw [← h] at trace
  have count : ∀ l : List Byte, bytesRead (l.map .read) = l.length := by
    intro l; induction l with
    | nil => rfl
    | cons a l _ => simp [bytesRead]
  refine ⟨evs, h, ?_⟩
  by_cases hn : n ≤ (deliver p.src).length
  · have e : evs = ((deliver p.src).take n).map .read := by
      simp [Ports.afterRead, hn] at trace; simpa using trace.symm
    rw [e]
    refine ⟨quiet_of_unfailed ?_, ?_, ?_, ?_, fun h => absurd h (by omega), ?_⟩
    · simp [-List.map_take]
    · simp [-List.map_take]
    · simp [-List.map_take]
    · simp [-List.map_take]
    · rw [count, List.length_take]
  · have e : evs = (deliver p.src).map .read ++ [.readFail] := by
      simp [Ports.afterRead, hn] at trace; simpa using trace.symm
    rw [e]
    refine ⟨quiet_append_left (by simp) ?_, by simp, by simp, fun h => absurd h hn, by simp, ?_⟩
    · intro pre post h
      cases pre with
      | nil => simp at h; subst h; simp
      | cons a l => simp at h
    · have hc := count (deliver p.src)
      unfold bytesRead at *
      rw [List.countP_append, hc]; simp; omega

theorem steady_srcBytes (n : Nat) (s : State) : Steady s (srcBytes n s) := by
  rw [srcBytes_eq]
  obtain ⟨evs, h1, h2, h3, _, h4, _⟩ := afterRead_events s.ports n
  split
  · next h => exact ⟨evs, h1, h2, sinkFail_of_unfailed h3, fun _ => ⟨h4 h, h3⟩⟩
  · exact ⟨evs, h1, h2, sinkFail_of_unfailed h3, fun hs => hs.elim⟩

theorem steady_srcByte (s : State) : Steady s (srcByte s) := by
  have h := steady_srcBytes 1 s
  simp only [srcBytes] at h
  cases hb : srcByte s with
  | ok v t => rw [hb] at h; exact h
  | raised e t => rw [hb] at h; exact h

/-- The events of writing bytes. -/
theorem snkBytes_events (vs : List Byte) (s : State) :
    ∃ evs : List PortEvent, (snkBytes vs s).last.ports = evs.foldl Ports.happen s.ports ∧ WritesOnly evs ∧
      EndsAtSinkFail evs (snkBytes vs s).sinkFailed ∧ ((snkBytes vs s).succeeded → Unfailed evs) := by
  induction vs generalizing s with
  | nil => exact ⟨[], rfl, by simp [WritesOnly], sinkFail_of_unfailed (by simp), fun _ => ⟨by simp, by simp⟩⟩
  | cons v vs ih =>
    have one : (∃ t, snkByte v s = .ok () t ∧ t.ports = s.ports.happen (.write v)) ∨
        ∃ t, snkByte v s = .raised .ioWrite t ∧ t.ports = s.ports.happen (.writeFail v) := by
      simp only [snkByte, snkWrite]
      match h : s.ports.snk with
      | [] => exact .inl ⟨_, rfl, by simp [Ports.happen, Ports.record, h]⟩
      | true :: r => exact .inl ⟨_, rfl, by simp [Ports.happen, Ports.record, h]⟩
      | false :: r => exact .inr ⟨_, rfl, by simp [Ports.happen, Ports.record, h]⟩
    simp only [snkBytes]
    rcases one with ⟨t, h1, h2⟩ | ⟨t, h1, h2⟩
    · rw [h1]
      obtain ⟨evs, k1, k2, k3, k4⟩ := ih t
      refine ⟨.write v :: evs, by simp [← h2, k1], ?_, sinkFail_append (a := [.write v]) (by simp) k3, fun hs => ?_⟩
      · intro e he
        rcases List.mem_cons.1 he with rfl | he
        · simp
        · exact k2 e he
      · exact ⟨by simp [(k4 hs).1], fun w => by simp [(k4 hs).2 w]⟩
    · rw [h1]
      refine ⟨[.writeFail v], h2, by simp [WritesOnly], ?_, fun hs => hs.elim⟩
      intro pre w post e
      cases pre with
      | nil => simp at e; exact ⟨e.2, rfl⟩
      | cons a l => simp at e

/-- How much is written: all of it if that succeeds, never more; nothing is read. -/
theorem snkBytes_counts (vs : List Byte) (s : State) :
    ∃ evs : List PortEvent, (snkBytes vs s).last.ports = evs.foldl Ports.happen s.ports ∧ bytesRead evs = 0 ∧
      bytesWritten evs ≤ vs.length ∧ ((snkBytes vs s).succeeded → bytesWritten evs = vs.length) := by
  induction vs generalizing s with
  | nil => exact ⟨[], rfl, rfl, Nat.le_refl _, fun _ => rfl⟩
  | cons v vs ih =>
    have one : (∃ t, snkByte v s = .ok () t ∧ t.ports = s.ports.happen (.write v)) ∨
        ∃ t, snkByte v s = .raised .ioWrite t ∧ t.ports = s.ports.happen (.writeFail v) := by
      simp only [snkByte, snkWrite]
      match h : s.ports.snk with
      | [] | true :: _ => exact .inl ⟨_, rfl, by simp [Ports.happen, Ports.record, h]⟩
      | false :: _ => exact .inr ⟨_, rfl, by simp [Ports.happen, Ports.record, h]⟩
    simp only [snkBytes]
    rcases one with ⟨t, h1, h2⟩ | ⟨t, h1, h2⟩
    · rw [h1]
      obtain ⟨evs, k1, k2, k3, k4⟩ := ih t
      refine ⟨.write v :: evs, by simp [← h2, k1], by simpa [bytesRead] using k2, ?_, fun h => ?_⟩
      · simpa [bytesWritten] using k3
      · simpa [bytesWritten] using k4 h
    · rw [h1]
      exact ⟨[.writeFail v], h2, rfl, Nat.zero_le _, fun h => h.elim⟩

theorem steady_snkBytes (vs : List Byte) (s : State) : Steady s (snkBytes vs s) := by
  obtain ⟨evs, h1, h2, h3, h4⟩ := snkBytes_events vs s
  exact ⟨evs, h1, quiet_of_writes h2, h3, h4⟩

theorem steady_snkBlock (s : State) : Steady s (snkBlock s) := steady_snkBytes _ s

/-- The events of writing the trimmed block. -/
theorem emitTrimmed_events (s : State) :
    ∃ evs : List PortEvent, (emitTrimmed s).last.ports = evs.foldl Ports.happen s.ports ∧ WritesOnly evs ∧
      EndsAtSinkFail evs (emitTrimmed s).sinkFailed := by
  unfold emitTrimmed
  split
  · exact ⟨[], rfl, by simp [WritesOnly], sinkFail_of_unfailed (by simp)⟩
  · obtain ⟨evs, h1, h2, h3, _⟩ := snkBytes_events _ s
    exact ⟨evs, h1, h2, h3⟩

theorem traffic_emitTrimmed (s : State) : Traffic s (emitTrimmed s) := by
  obtain ⟨evs, h1, h2, h3⟩ := emitTrimmed_events s
  exact ⟨evs, h1, quiet_of_writes h2, h3⟩

/-- A `TryReadBlock` and what follows it: after a short read only writes may follow. -/
theorem traffic_tryReadBlock {s : State} {r : Run Unit}
    (full : 16 ≤ (deliver s.ports.src).length → Traffic (s.setPorts (s.ports.afterRead 16)) r)
    (short : (deliver s.ports.src).length < 16 → ∃ evs : List PortEvent,
      r.last.ports = evs.foldl Ports.happen (s.ports.afterRead 16) ∧ WritesOnly evs ∧ EndsAtSinkFail evs r.sinkFailed) :
    Traffic s r := by
  obtain ⟨evs, h1, h2, h3, _, h4, _⟩ := afterRead_events s.ports 16
  by_cases h : 16 ≤ (deliver s.ports.src).length
  · obtain ⟨more, k1, k2, k3⟩ := full h
    exact ⟨evs ++ more, by rw [List.foldl_append, ← h1]; exact k1, quiet_append_left (h4 h) k2, sinkFail_append h3 k3⟩
  · obtain ⟨more, k1, k2, k3⟩ := short (by omega)
    exact ⟨evs ++ more, by rw [List.foldl_append, ← h1]; exact k1, quiet_append_writes h2 k2, sinkFail_append h3 k3⟩

/-! ### The loops -/

@[simp] theorem hybEncBlk_ports (b : BankId) (s : State) : (hybEncBlk b s).ports = s.ports := by cases b <;> rfl
@[simp] theorem hybDecBlk_ports (b : BankId) (s : State) : (hybDecBlk b s).ports = s.ports := by cases b <;> rfl

theorem steady_readMagic (ms : List Byte) (s : State) : Steady s (readMagic ms s) := by
  induction ms generalizing s with
  | nil => exact steady_same rfl
  | cons m ms ih => exact steady_bind (steady_srcByte s) fun v t _ => steady_bind (steady_require _ _) fun _ u _ => ih u

theorem steady_readCount (f n q : Nat) (s : State) : Steady s (readCount f n q s) := by
  induction f generalizing n q s with
  | zero => exact steady_same rfl
  | succ f ih =>
    refine steady_bind (steady_srcByte s) fun v t _ => ?_
    split
    · exact steady_same rfl
    · split
      · exact steady_same rfl
      · exact ih _ _ _

theorem steady_checkCount (n q : Nat) (s : State) : Steady s (checkCount n q s) :=
  steady_bind (steady_require _ _) fun _ _ _ => steady_bind (steady_require _ _) fun _ _ _ => steady_require _ _

theorem steady_nameEncLoop (b : BankId) (name : List Byte) (n k : Nat) (s : State) : Steady s (nameEncLoop b name n k s) := by
  induction n generalizing k s with
  | zero => exact steady_same rfl
  | succ n ih =>
    refine steady_bind (steady_after ?_ (steady_snkBlock _)) fun _ t _ => ih _ _
    rw [hybEncBlk_ports]; rfl

theorem traffic_nameDecLoop (b : BankId) (f pos : Nat) (s : State) : Traffic s (nameDecLoop b f pos s) := by
  induction f generalizing pos s with
  | zero => exact (steady_same rfl).traffic
  | succ f ih =>
    refine traffic_bind (steady_require _ _) fun _ s1 _ => traffic_bind (steady_srcBytes _ _) fun p s2 _ => ?_
    simp only
    split
    · refine (steady_same ?_).traffic
      simp only [Run.last, hybDecBlk_ports, setBlk_ports]
    · refine traffic_after ?_ (ih _ _)
      exact hybDecBlk_ports _ _

theorem traffic_encLoop (b : BankId) (f : Nat) (s : State) : Traffic s (encLoop b f s) := by
  induction f generalizing s with
  | zero => exact (steady_same rfl).traffic
  | succ f ih =>
    apply traffic_tryReadBlock
    · intro h
      simp only [encLoop, loadBlock_full h]
      refine traffic_bind (steady_after ?_ (steady_snkBlock _)) fun _ t _ => ?_
      · rw [hybEncBlk_ports]; rfl
      · split
        · exact (steady_same rfl).traffic
        · exact ih t
    · intro h
      simp only [encLoop, loadBlock_short h, snkBlock, hybEncBlk_eq]
      generalize hu : State.setBlk _ _ = u
      have hports : u.ports = s.ports.afterRead 16 := by rw [← hu]; simp
      have hfinal : u.final = true := by rw [← hu]; simp
      obtain ⟨evs, k1, k2, k3, k4⟩ := snkBytes_events (bytesOfBlock u.blk) u
      rw [hports] at k1
      refine ⟨evs, ?_⟩
      rcases snkBytes_cases (bytesOfBlock u.blk) u with ⟨q, h1, _⟩ | ⟨q, n, h1, _⟩
      · rw [h1] at k1 k4 ⊢
        simp only [bind_ok, setPorts_final, hfinal, if_true]
        exact ⟨k1, k2, sinkFail_of_unfailed (k4 trivial).2⟩
      · rw [h1] at k1 k3 ⊢
        exact ⟨k1, k2, k3⟩

theorem traffic_decLoop (b : BankId) (f : Nat) (cur : List Byte) (s : State) : Traffic s (decLoop b f cur s) := by
  induction f generalizing cur s with
  | zero => exact (steady_same rfl).traffic
  | succ f ih =>
    apply traffic_tryReadBlock
    · intro h
      have hn : ((deliver s.ports.src).take 16).length = 16 := by simp; omega
      simp only [decLoop, tryReadBlock_eq, hn, if_true]
      refine traffic_bind (steady_after ?_ (steady_snkBlock _)) fun _ t _ => ih _ _
      rw [hybDecBlk_ports]; rfl
    · intro h
      have hn : ¬ ((deliver s.ports.src).take 16).length = 16 := by simp; omega
      simp only [decLoop, tryReadBlock_eq, hn, if_false]
      obtain ⟨evs, h1, h2, h3⟩ := emitTrimmed_events (hybDecBlk b ((s.setPorts (s.ports.afterRead 16)).setBlk (blockOfBytes cur)))
      rw [hybDecBlk_ports] at h1
      exact ⟨evs, h1, h2, h3⟩

theorem traffic_reencLoop (f : Nat) (s : State) : Traffic s (reencLoop f s) := by
  induction f generalizing s with
  | zero => exact (steady_same rfl).traffic
  | succ f ih =>
    apply traffic_tryReadBlock
    · intro h
      have hn : ((deliver s.ports.src).take 16).length = 16 := by simp; omega
      simp only [reencLoop, tryReadBlock_eq, hn, if_true]
      refine traffic_bind (steady_after ?_ (steady_snkBlock _)) fun _ t _ => ih _
      rw [hybEncBlk_ports, hybDecBlk_ports]; rfl
    · intro h
      have hn : ¬ ((deliver s.ports.src).take 16).length = 16 := by simp; omega
      simp only [reencLoop, tryReadBlock_eq, hn, if_false]
      exact ⟨[], rfl, by simp [WritesOnly], sinkFail_of_unfailed (by simp)⟩

end Sys2Proof.Machine
end

