-- ==== Sys2Proof/Laws/Window.lean ====
section
/-!
SUPPORT. The register window: R35's offsets name the registers they are the offsets of, and a register write leaves the
parameters, which say which registers there are.
-/

namespace Sys2Proof.Machine

theorem regAt_mbuf {mMax n : Nat} (h : 4 * n + 4 ≤ mMax) : regAt mMax (0x400 + 4 * n) = some (.mbuf n) := by
  unfold regAt
  split <;> (try (exfalso; omega))
  rw [if_pos (by omega)]
  congr 2; omega

/-- The offset of a register that is present names that register and is aligned (R35, R64). -/
theorem regAt_offset {mMax : Nat} {r : Reg} (h : r.present mMax) : regAt mMax r.offset = some r ∧ r.offset % 4 = 0 := by
  cases r with
  | mbuf n => exact ⟨regAt_mbuf (h n rfl), by simp only [Reg.offset]; omega⟩
  | rounds b => cases b <;> exact ⟨rfl, rfl⟩
  | ctr b k => cases b <;> (match k with | 0 | 1 | 2 | 3 => exact ⟨rfl, rfl⟩)
  | blk k => match k with | 0 | 1 | 2 | 3 => exact ⟨rfl, rfl⟩
  | _ => exact ⟨rfl, rfl⟩

@[simp] theorem regWrite_params (r : Reg) (v : Word) (s : State) : (regWrite r v s).params = s.params := by
  cases r with
  | rounds b | ctr b k => cases b <;> rfl
  | _ => rfl

end Sys2Proof.Machine
end

