-- ==== Sys2Proof/Tests/Slice0.lean ====
section
/-!
SUPPORT. Tests. Expected values are those of spec/95_test_vectors.md (the part is named at each test) or are worked out by hand from
a rule; none is the model's own answer. Then, for every statement with hypotheses, a witness that meets them.
-/

namespace Sys2Proof.Tests

open Sys2Proof.Machine

-- One theorem at a time: each evaluation in a thread of its own would need more stacks than the memory limit allows.
set_option Elab.async false

/-! ### Helpers -/

/-- Open parameters for the tests, within R7: `R_MAX = 20`, `M_MAX = 32`, version 0x01 as in 95. -/
def testParams : Params where
  rMax := 20
  mMax := 32
  magic := #v[0x52, 0x43, 0x36, 0x43, 0x49, 0x50, 0x48, 0x00]
  version := 0x01
  base := 0x1000

/-- Just after reset, with these parameters. -/
def start : State := { State.reset with params := testParams }

/-- A bank with a schedule made by `GenSched` from raw material. -/
def keyed (m : List Byte) (r : Nat) (ctr : Block) : Bank :=
  { rounds := BitVec.ofNat 32 r, ctr := ctr, keys := (genSched m r false).getD [], kvalid := true }

/-- The outcome is a next state of which `f` holds. -/
def next (o : Host.Outcome State Fault Refusal) (f : State → Bool) : Bool :=
  match o with
  | .next t => f t
  | _ => false

/-- The input delivers these bytes and then `FAIL`. -/
def input (p : List Byte) : Ports := { src := p.map some, snk := [], trace := [] }

/-- Bytes from numbers. -/
def bytes (l : List Nat) : List Byte := l.map (BitVec.ofNat 8)

/-- Material in `MBUF` from index 0. -/
def material (m : List Byte) (s : State) : State :=
  { s with mbuf := Memory.writeBytes [] 0 m, mlen := BitVec.ofNat 32 m.length }

def test : List Byte := bytes [0x74, 0x65, 0x73, 0x74]
def new : List Byte := bytes [0x6e, 0x65, 0x77]
def helloTxt : List Byte := bytes [0x68, 0x65, 0x6c, 0x6c, 0x6f, 0x2e, 0x74, 0x78, 0x74]
def helloWorld : List Byte := bytes [0x68, 0x65, 0x6c, 0x6c, 0x6f, 0x20, 0x77, 0x6f, 0x72, 0x6c, 0x64]
/-- The counter derived from "n1" with 20 rounds (95 part 2.7), with its low word given. -/
def ctrN1 (low : Word) : Block := ⟨low, 0x8f0d82d1, 0xb4ce9d4b, 0xe5876354⟩
/-- Bank 0 holds the schedule of "test" for 20 rounds. -/
def session (low : Word) : State := { start with bank0 := keyed test 20 (ctrN1 low) }
/-- The password check of the scenario (95 part 2.9 b). -/
def check : List Byte :=
  bytes [0x3b, 0xc3, 0xdb, 0xe9, 0x63, 0xa4, 0xe4, 0x60, 0xdd, 0x27, 0x0f, 0xab, 0xfa, 0xb5, 0x0c, 0xa5]
/-- The name block and the data block of the scenario (95 part 2.13, "in"). -/
def nameCipher : List Byte :=
  bytes [0xf0, 0x9a, 0xc8, 0xf8, 0x0e, 0xef, 0xfb, 0x64, 0x83, 0x15, 0x4a, 0x18, 0x7b, 0x8f, 0x3f, 0xfc]
def dataCipher : List Byte :=
  bytes [0x83, 0x4d, 0xe1, 0x5b, 0xbc, 0xf2, 0x47, 0x80, 0xa4, 0xf4, 0xf9, 0xd5, 0xfa, 0x54, 0xe2, 0xa8]

/-! ### WellFormed: each check refuses an ill-formed term (R92, R93, R7) -/

theorem test_wf_reserved_bit_refused : CommandWord.reservedClear 0x00000400 = false := by decide
theorem test_wf_top_reserved_bit_refused : CommandWord.reservedClear 0x80000000 = false := by decide
theorem test_wf_unlisted_op_refused : CommandWord.opListed 0x00000003 = false := by decide
theorem test_wf_hex_refused : CommandWord.hexAllowed 0x00000120 = false := by decide
theorem test_wf_bank_refused : CommandWord.bankAllowed 0x00000210 = false := by decide
theorem test_wf_word_accepted : CommandWord.wellFormed 0x00000311 = true := by decide
theorem test_wf_no_rounds_refused : Params.rMaxOk { testParams with rMax := 0 } = false := by decide
theorem test_wf_buffer_not_multiple_refused : Params.mMaxOk { testParams with mMax := 24 } = false := by decide
theorem test_wf_no_buffer_refused : Params.mMaxOk { testParams with mMax := 0 } = false := by decide
theorem test_wf_magic_end_refused :
    Params.magicOk { testParams with magic := #v[1, 1, 1, 1, 1, 1, 1, 1] } = false := by decide
theorem test_wf_magic_high_bit_refused :
    Params.magicOk { testParams with magic := #v[1, 1, 1, 0x80, 1, 1, 1, 0] } = false := by decide
theorem test_wf_magic_inner_zero_refused :
    Params.magicOk { testParams with magic := #v[0, 1, 1, 1, 1, 1, 1, 0] } = false := by decide
theorem test_wf_base_refused : Params.baseOk { testParams with base := 0x1002 } = false := by decide
theorem test_wf_params_accepted : Params.wellFormed testParams = true := by decide

/-! ### Decoding: words written bit by bit from R90 and R91's OP column, BANK at bit 9, HEX at bit 8 -/

theorem test_decode_nop : decode 0b00000000000000000000000000000000 = .ok .nop := by decide
theorem test_decode_rotl : decode 0b00000000000000000000000000000001 = .ok .rotl := by decide
theorem test_decode_rotr : decode 0b00000000000000000000000000000010 = .ok .rotr := by decide
theorem test_decode_mclr : decode 0b00000000000000000000000000010000 = .ok .mclr := by decide
theorem test_decode_genSched : decode 0b00000000000000000000000100010001 = .ok (.genSched true .b0) := by decide
theorem test_decode_nonceDerive : decode 0b00000000000000000000001000010010 = .ok (.nonceDerive false .b1) := by decide
theorem test_decode_rc6Enc : decode 0b00000000000000000000000000100000 = .ok (.rc6Enc .b0) := by decide
theorem test_decode_rc6Dec : decode 0b00000000000000000000001000100001 = .ok (.rc6Dec .b1) := by decide
theorem test_decode_hybEnc : decode 0b00000000000000000000001000110000 = .ok (.hybEnc .b1) := by decide
theorem test_decode_hybDec : decode 0b00000000000000000000000000110001 = .ok (.hybDec .b0) := by decide
theorem test_decode_ctrInc : decode 0b00000000000000000000001000110010 = .ok (.ctrInc .b1) := by decide
theorem test_decode_hdrWrite : decode 0b00000000000000000000001001000000 = .ok (.hdrWrite .b1) := by decide
theorem test_decode_hdrRead : decode 0b00000000000000000000000001000001 = .ok (.hdrRead .b0) := by decide
theorem test_decode_pwcVerify : decode 0b00000000000000000000000001000010 = .ok (.pwcVerify .b0) := by decide
theorem test_decode_nameEnc : decode 0b00000000000000000000000001000011 = .ok (.nameEnc .b0) := by decide
theorem test_decode_nameDec : decode 0b00000000000000000000001001000100 = .ok (.nameDec .b1) := by decide
theorem test_decode_readBlock : decode 0b00000000000000000000000001010000 = .ok .readBlock := by decide
theorem test_decode_trimEmit : decode 0b00000000000000000000000001010001 = .ok .trimEmit := by decide
theorem test_decode_encStream : decode 0b00000000000000000000000001010010 = .ok (.encStream .b0) := by decide
theorem test_decode_decStream : decode 0b00000000000000000000001001010011 = .ok (.decStream .b1) := by decide
theorem test_decode_reencStream : decode 0b00000000000000000000000001010100 = .ok .reencStream := by decide
theorem test_decode_sreset : decode 0b00000000000000000000000011111111 = .ok .sreset := by decide
theorem test_decode_reencStream_bank_refused : decode 0x00000254 = .error .bankNotUsed := by decide
theorem test_table_word : decodeTableWord 32 0x00000311 = some (.genSched true .b1) := by decide
theorem test_first_step_after_reset :
    next (step (State.reset.withFetchWord 32 0x00000011)) (fun t => t.cause == 0x00001142) = true := by decide +kernel

/-! ### One step of each instruction -/

/-- `NOP` leaves the state. -/
theorem test_nop : next (exec .nop (session 0)) (fun t => t == session 0) = true := by decide +kernel
/-- 95 part 2.1: amount 0x24 is 4. -/
theorem test_rotl :
    next (exec .rotl { start with blk := ⟨0x12345678, 0x24, 7, 9⟩ }) (fun t => t.blk == ⟨0x23456781, 0x24, 7, 9⟩) = true := by
  decide +kernel
/-- 95 part 2.1: amount 0x20 is 0. -/
theorem test_rotl_by_32 :
    next (exec .rotl { start with blk := ⟨0x12345678, 0x20, 0, 0⟩ }) (fun t => t.blk.w0 == 0x12345678) = true := by decide +kernel
/-- 95 part 2.1. -/
theorem test_rotr :
    next (exec .rotr { start with blk := ⟨0xdeadbeef, 0xffffffff, 0, 0⟩ }) (fun t => t.blk.w0 == 0xbd5b7ddf) = true := by
  decide +kernel
/-- 95 part 2.1, Quad. -/
theorem test_quad : quad 0x12345678 = 0xc3c0df09 ∧ quad 0x7fffffff = 0x30 := by decide +kernel
/-- R148. -/
theorem test_mclr : next (exec .mclr (material test start)) (fun t => t.mbuf == [] && t.mlen == 0) = true := by decide +kernel
/-- 95 part 2.2. -/
theorem test_genSched_empty :
    next (exec (.genSched true .b1) { start with bank1 := { Bank.reset with rounds := 1 } }) (fun t => t.bank1.kvalid &&
      t.bank1.keys == [0x304f5316, 0x5650bbc6, 0x74713c14, 0xe22c5959, 0xa3a6e44f, 0xc6fb082d]) = true := by decide +kernel
/-- 95 part 2.6, material "test": the first and the last word of 44. -/
theorem test_genSched_raw :
    next (exec (.genSched false .b0) (material test { start with bank0 := { Bank.reset with rounds := 20 } })) (fun t =>
      t.bank0.keys.length == 44 && t.bank0.keys.head? == some 0x5be097ad && t.bank0.keys.getLast? == some 0xe452ac99
        && t.mlen == 0) = true := by decide +kernel
/-- 95 part 2.7, last row. -/
theorem test_nonceDerive :
    next (exec (.nonceDerive false .b0) { start with bank0 := { Bank.reset with rounds := 1 } }) (fun t =>
      t.bank0.ctr == ⟨0xd3f63765, 0x929de38c, 0x1d4bc3f3, 0xa3682fbf⟩ && t.bank0.keys == [] && !t.bank0.kvalid) = true := by
  decide +kernel
/-- 95 part 2.7, first row. -/
theorem test_nonceDerive_n1 :
    next (exec (.nonceDerive false .b0) (material (bytes [0x6e, 0x31]) { start with bank0 := { Bank.reset with rounds := 20 } }))
      (fun t => t.bank0.ctr == ctrN1 0xb26c9489) = true := by decide +kernel
/-- 95 part 2.3 (b). -/
theorem test_rc6Enc :
    next (exec (.rc6Enc .b1) { start with bank1 := keyed [] 2 Block.zero, blk := ⟨0x03020100, 0x07060504, 0x0b0a0908, 0x0f0e0d0c⟩ })
      (fun t => t.blk == ⟨0x02b3d36a, 0xd61c288f, 0xfa531674, 0xcb708612⟩) = true := by decide +kernel
/-- 95 part 2.3 (a). -/
theorem test_rc6Dec :
    next (exec (.rc6Dec .b0) { start with bank0 := keyed [] 1 Block.zero, blk := ⟨0xd3f63765, 0x929de38c, 0x1d4bc3f3, 0xa3682fbf⟩ })
      (fun t => t.blk == Block.zero) = true := by decide +kernel
/-- 95 part 2.9 (b): the password check as a block, and the counter. -/
theorem test_hybEnc :
    next (exec (.hybEnc .b0) (session 0xb26c9489)) (fun t =>
      t.blk == ⟨0xe9dbc33b, 0x60e4a463, 0xab0f27dd, 0xa50cb5fa⟩ && t.bank0.ctr == ctrN1 0xb26c948a) = true := by decide +kernel
/-- 95 part 2.9 (c), backwards. -/
theorem test_hybDec :
    next (exec (.hybDec .b0) { session 0xb26c948b with blk := ⟨0x5be14d83, 0x8047f2bc, 0xd5f9f4a4, 0xa8e254fa⟩ }) (fun t =>
      t.blk == ⟨0x6c6c6568, 0x6f77206f, 0x80646c72, 0⟩) = true := by decide +kernel
/-- 95 part 2.8: the carry passes three words. -/
theorem test_ctrInc_carry :
    next (exec (.ctrInc .b1) { start with bank1 := { Bank.reset with ctr := ⟨0xffffffff, 0xffffffff, 0xffffffff, 0x7fffffff⟩ } })
      (fun t => t.bank1.ctr == ⟨0, 0, 0, 0x80000000⟩) = true := by decide +kernel
/-- 95 part 2.8: no carry, and the wrap of all 128 bits. -/
theorem test_ctrInc_wrap :
    ctrInc ⟨0xffffffff, 0xffffffff, 0xffffffff, 0xffffffff⟩ = Block.zero ∧
      ctrInc ⟨5, 0xffffffff, 7, 9⟩ = ⟨6, 0xffffffff, 7, 9⟩ := by decide
/-- 95 part 2.10, the first header. -/
theorem test_hdrWrite :
    next (exec (.hdrWrite .b0) (session 0xb26c9489)) (fun t => t.ports.output ==
      bytes [0x52, 0x43, 0x36, 0x43, 0x49, 0x50, 0x48, 0x00, 0x01, 0x31, 0x34, 0x00, 0x89, 0x94, 0x6c, 0xb2, 0xd1, 0x82, 0x0d,
        0x8f, 0x4b, 0x9d, 0xce, 0xb4, 0x54, 0x63, 0x87, 0xe5] ++ check) = true := by decide +kernel
/-- 95 part 2.10: `30 30 31 34 00` reads as 20; `FF` as 255, which is above this `R_MAX`. -/
theorem test_hdrRead :
    next (exec (.hdrRead .b1) { start with ports := input (testParams.magic.toList ++ bytes [0x01, 0x30, 0x30, 0x31, 0x34, 0x00]
      ++ bytes [1, 0, 0, 0, 2, 0, 0, 0, 3, 0, 0, 0, 4, 0, 0, 0] ++ [0x55]) }) (fun t => t.bank1.rounds == 20 &&
        t.bank1.ctr == ⟨1, 2, 3, 4⟩ && t.ports.src == [some 0x55] && !t.fault) = true := by decide +kernel
theorem test_hdrRead_rounds_unsupported :
    next (exec (.hdrRead .b0) { start with ports := input (testParams.magic.toList ++ bytes [0x01, 0x46, 0x46, 0x00]) })
      (fun t => t.cause == 0x00004154) = true := by decide +kernel
/-- 95 part 2.9 (b): the right check passes. -/
theorem test_pwcVerify :
    next (exec (.pwcVerify .b0) { session 0xb26c9489 with ports := input check })
      (fun t => !t.fault && t.bank0.ctr == ctrN1 0xb26c948a) = true := by decide +kernel
/-- 95 part 2.14 (c): byte 28 changed from `3b` to `3a`. -/
theorem test_pwcVerify_tampered :
    next (exec (.pwcVerify .b0) { session 0xb26c9489 with ports := input (0x3a :: check.tail) })
      (fun t => t.cause == 0x00004221) = true := by decide +kernel
/-- 95 part 2.11, "hello.txt". -/
theorem test_nameEnc :
    next (exec (.nameEnc .b0) (material helloTxt (session 0xb26c948a))) (fun t => t.ports.output == nameCipher) = true := by
  decide +kernel
/-- 95 part 2.11, backwards. -/
theorem test_nameDec :
    next (exec (.nameDec .b0) { session 0xb26c948a with ports := input nameCipher })
      (fun t => t.mlen == 9 && t.material == helloTxt) = true := by decide +kernel
/-- R251: 11 bytes are padded with the marker and zeros (95 part 2.12, first row). -/
theorem test_readBlock :
    next (exec .readBlock { start with ports := input helloWorld })
      (fun t => t.final && t.blk == ⟨0x6c6c6568, 0x6f77206f, 0x80646c72, 0⟩) = true := by decide +kernel
/-- R251: a full block is not padded. -/
theorem test_readBlock_full :
    next (exec .readBlock { start with final := true, ports := input (bytes (List.range 17)) })
      (fun t => !t.final && t.blk == ⟨0x03020100, 0x07060504, 0x0b0a0908, 0x0f0e0d0c⟩ && t.ports.src == [some 16]) = true := by
  decide +kernel
/-- 95 part 2.12, trim alone: the last nonzero byte is dropped whatever it is. -/
theorem test_trimEmit :
    next (exec .trimEmit { start with blk := ⟨0x00434241, 0, 0, 0⟩ }) (fun t => t.ports.output == bytes [0x41, 0x42]) = true := by
  decide +kernel
theorem test_trimEmit_zeros : next (exec .trimEmit start) (fun t => t.cause == 0x00005114) = true := by decide +kernel
/-- 95 part 2.12, first row. -/
theorem test_encStream :
    next (exec (.encStream .b0) { session 0xb26c948b with ports := input helloWorld })
      (fun t => t.ports.output == dataCipher && t.final) = true := by decide +kernel
/-- 95 part 2.12, 16 bytes: one more block. -/
theorem test_encStream_full_block :
    next (exec (.encStream .b0) { session 0xb26c948b with ports := input (bytes [0x30, 0x31, 0x32, 0x33, 0x34, 0x35, 0x36, 0x37, 0x38,
      0x39, 0x61, 0x62, 0x63, 0x64, 0x65, 0x66]) }) (fun t => t.ports.output == bytes [0x90, 0xfc, 0x64, 0x72, 0xfd, 0x84, 0xe6, 0xbe,
        0xba, 0xa6, 0x23, 0xc0, 0xbc, 0xe9, 0x2a, 0xcf, 0xfc, 0x42, 0x13, 0x7e, 0x6e, 0x4b, 0x3b, 0xdc, 0xc2, 0xec, 0x12, 0x90, 0xff,
        0x7a, 0x51, 0x8c]) = true := by decide +kernel
/-- 95 part 2.12, backwards, with stray bytes (D18). -/
theorem test_decStream :
    next (exec (.decStream .b0) { session 0xb26c948b with ports := input (dataCipher ++ [1, 2, 3]) })
      (fun t => t.ports.output == helloWorld && !t.fault) = true := by decide +kernel
/-- 95 part 2.14 (l). -/
theorem test_decStream_short :
    next (exec (.decStream .b0) { session 0xb26c948b with ports := input [1, 2, 3, 4, 5] }) (fun t => t.cause == 0x00005331) = true := by
  decide +kernel
/-- 95 part 2.13. -/
theorem test_reencStream :
    next (exec .reencStream { session 0xb26c948a with
      bank1 := keyed new 12 ⟨0xe97b048b, 0x151c2c88, 0xfdf44ec2, 0xe8737768⟩, ports := input (nameCipher ++ dataCipher) })
      (fun t => t.ports.output == bytes [0xfa, 0xfe, 0x9b, 0x94, 0x6c, 0x78, 0x4d, 0xca, 0x48, 0xd1, 0x19, 0xa8, 0x8c, 0x87, 0x07, 0xce,
        0xee, 0x7b, 0x19, 0xd1, 0x2e, 0xa5, 0xcc, 0xe0, 0x97, 0x70, 0x25, 0x8f, 0x50, 0xa0, 0x3f, 0xbe]
        && t.bank0.ctr.w0 == 0xb26c948c && t.bank1.ctr.w0 == 0xe97b048d) = true := by decide +kernel
/-- R342: out of the fault state. -/
theorem test_sreset :
    next (execute 0x000000FF (faultEntry .auth 0x42 (session 5))) (fun t => t == { start with params := testParams }) = true := by
  decide +kernel

/-! ### Faults and the window -/

/-- 95 part 2.14 (a), (b), (m). -/
theorem test_cause_header :
    next (exec (.hdrRead .b0) { start with ports := input (testParams.magic.toList ++ [0x02]) }) (fun t => t.cause == 0x00004112) = true ∧
    next (exec (.hdrRead .b1) { start with ports := input [0x53] }) (fun t => t.cause == 0x00014111) = true ∧
    next (exec (.hdrRead .b0) { start with ports := input (testParams.magic.toList ++ [0x01, 0x30, 0x00]) })
      (fun t => t.cause == 0x00004113) = true := by decide +kernel
/-- 95 part 2.14 (e), (g), (j), (k). -/
theorem test_cause_keys :
    next (exec (.genSched true .b1) (material (bytes [0x31, 0x32, 0x78, 0x34]) { start with bank1 := { Bank.reset with rounds := 20 } }))
      (fun t => t.cause == 0x00031141 && t.mlen == 0 && t.mbuf == []) = true ∧
    next (exec (.hybEnc .b1) start) (fun t => t.cause == 0x00013052) = true ∧
    next (exec (.nameEnc .b0) { session 0 with mlen := 33 }) (fun t => t.cause == 0x00004353) = true ∧
    next (exec (.nonceDerive false .b0) { start with bank0 := { Bank.reset with rounds := 21 } }) (fun t => t.cause == 0x00001254) = true := by
  decide +kernel
/-- 95 part 2.14 (h), (i). -/
theorem test_cause_illegal :
    next (hostWrite 0 4 0x00000400 start) (fun t => t.cause == 0x00000051) = true ∧
    next (hostWrite 0 4 0x00000210 start) (fun t => t.cause == 0x00011051) = true := by decide +kernel
/-- R304: in the fault state a command is ignored. -/
theorem test_fault_state_ignores_commands :
    next (execute 0x00000032 (faultEntry .auth 0x42 start)) (fun t => t == faultEntry .auth 0x42 start) = true := by decide +kernel
/-- R62, R285: `LOADM "test"` writes 0x74736574. -/
theorem test_loadm : loadMaterial test = [.write 0x400 4 0x74736574, .write 0x018 4 4] := by decide
/-- R62: the window is little-endian. -/
theorem test_mbuf_window :
    next (hostWrite 0x404 4 0x04030201 start) (fun t => t.mbuf == [(4, 1), (5, 2), (6, 3), (7, 4)]) = true ∧
    next (hostRead 0x404 4 { start with mbuf := [(4, 1), (5, 2), (6, 3), (7, 4)] }) (fun t => t.rdata == some 0x04030201) = true := by
  decide +kernel
/-- R63, R64: refused accesses. -/
theorem test_refused :
    hostRead 0x002 2 start = .refused .notAligned32 ∧ hostWrite 0x050 4 0 start = .refused .reservedOffset ∧
    hostRead 0x420 4 start = .refused .reservedOffset ∧ memRead 0x0FFC 4 start = .refused .belowWindow := ⟨rfl, rfl, rfl, rfl⟩
/-- R32: KVALID0 and KVALID1 are bits 2 and 3. -/
theorem test_status : statusWord { session 0 with bank1 := keyed [] 1 Block.zero, final := true } = 0x0000000E := by decide +kernel

/-! ### Witnesses: for every statement with hypotheses, states and operands that meet them, each clause at a boundary -/

/-- A sink with no answers listed accepts everything. -/
theorem accepts {p : Ports} (h : p.snk = []) : p.sinkAccepts := by intro a ha; rw [h] at ha; cases ha

/-- What `next` says. -/
theorem next_spec {o : Host.Outcome State Fault Refusal} {f : State → Bool} (h : next o f = true) :
    ∃ t, o = .next t ∧ f t = true := by
  cases o with
  | next t => exact ⟨t, rfl, h⟩
  | fault r => cases r
  | refused r => cases h

/-- Bank 0 with this round count, and this material. -/
def rounded (r : Nat) (m : List Byte) : State :=
  material m { start with bank0 := { Bank.reset with rounds := BitVec.ofNat 32 r } }

/-- A header's text up to its terminator. -/
def magicBytes : List Byte := testParams.magic.toList

/-- The state with this input. -/
def reading (s : State) (p : List Byte) : State := { s with ports := input p }

theorem test_witness_IllegalWordsRaiseAndLegalWordsRun : start.fault = false ∧ CommandWord.wellFormed 0x00000400 = false ∧
    CommandWord.wellFormed 0x000003FF = false ∧ CommandWord.wellFormed 0x00000000 = true ∧ CommandWord.wellFormed 0x000000FF = true := by
  decide

theorem test_witness_StepRunsTheDecodedCommand :
    (decode 0x00000354 = .error .hexNotUsed ∧ decode 0x00000353 = .error .hexNotUsed ∧ decode 0x00000253 = .ok (.decStream .b1)
      ∧ { start with host := [.write 0x000 4 0x00000253, .reset] }.fault = false) ∧
    (decode 0x000000FF = .ok .sreset ∧ ({ faultEntry .auth 0x42 start with host := [.write 0x000 4 0x000000FF] } : State).fault = true) := by
  decide

theorem test_witness_StepTakesTheNextHostEvent :
    { start with host := [.reset] }.host = .reset :: [] ∧ start.host = [] := by decide

theorem test_witness_RotationsPermuteTheBits : 0 < 32 ∧ 31 < 32 := by decide

theorem test_witness_KeyWordsAreLittleEndian :
    0 < (keyWords []).length ∧ 1 < (keyWords (bytes [1, 2, 3, 4, 5])).length ∧ 0 < 4 ∧ 3 < 4 := by decide

/-- The ends of R98's three ranges, and the bytes beside them. -/
theorem test_witness_HexModePacksDigitPairs :
    hexDigits (bytes [0x30, 0x39, 0x41, 0x46, 0x61, 0x66]) = some [0, 9, 10, 15, 10, 15] ∧
    (∀ v ∈ bytes [0x2F, 0x3A, 0x40, 0x47, 0x60, 0x67], hexVal v = none) ∧
    keyBytes (bytes [0x31, 0x46, 0x32]) true = some (bytes [0x1F, 0x20]) ∧ 1 < (bytes [0x1F, 0x20]).length ∧
    (∃ v ∈ bytes [0x30, 0x2F], hexVal v = none) := by decide

theorem test_witness_SeedHasItsClosedForm : 0 < 6 ∧ 5 < 6 := by decide

theorem test_witness_GenSchedDerivesTheSchedule :
    (1 ≤ ((rounded 1 []).bank .b0).rounds.toNat ∧ ((rounded 1 []).bank .b0).rounds.toNat ≤ (rounded 1 []).params.rMax ∧
      (rounded 1 []).mlen.toNat ≤ (rounded 1 []).params.mMax) ∧
    (let s := rounded 20 (List.replicate 32 0x46)
     1 ≤ (s.bank .b0).rounds.toNat ∧ (s.bank .b0).rounds.toNat = s.params.rMax ∧ s.mlen.toNat = s.params.mMax ∧
       ∀ v ∈ s.material, hexVal v ≠ none) := by decide +kernel

theorem test_witness_NonceDeriveSetsTheCounter :
    let s := rounded 20 (bytes [0x39, 0x61])
    1 ≤ (s.bank .b0).rounds.toNat ∧ (s.bank .b0).rounds.toNat ≤ s.params.rMax ∧ s.mlen.toNat ≤ s.params.mMax ∧
      ∀ v ∈ s.material, hexVal v ≠ none := by decide +kernel

theorem test_witness_KeyCommandsFaultInOrder :
    ((rounded 0 []).bank .b0).rounds = 0 ∧ (rounded 21 []).params.rMax < ((rounded 21 []).bank .b0).rounds.toNat ∧
    (let s := { rounded 20 [] with mlen := 33 }
     1 ≤ (s.bank .b0).rounds.toNat ∧ (s.bank .b0).rounds.toNat ≤ s.params.rMax ∧ s.params.mMax < s.mlen.toNat) ∧
    (let s := rounded 1 (bytes [0x31, 0x32, 0x78, 0x34])
     1 ≤ (s.bank .b0).rounds.toNat ∧ (s.bank .b0).rounds.toNat ≤ s.params.rMax ∧ s.mlen.toNat ≤ s.params.mMax ∧
       ∃ v ∈ s.material, hexVal v = none) := by decide +kernel

theorem test_witness_KeyMaterialIsErasedAfterUse :
    (∃ i : Instr, i = .genSched true .b1) ∧ ∃ i : Instr, i = .nonceDerive false .b0 := ⟨⟨_, rfl⟩, _, rfl⟩

theorem test_witness_Rc6CommandsTransformTheBlock :
    ((session 0).bank .b0).kvalid = true ∧ ((session 0).bank .b1).kvalid = false := by decide +kernel

theorem test_witness_HybridCommandResults : ((session 0).bank .b0).kvalid = true := by decide +kernel

theorem test_witness_HybDecUndoesHybEnc :
    ∃ t u : State, ((session 0).bank .b0).kvalid = true ∧ exec (.hybEnc .b0) (session 0) = .next t ∧ u.blk = t.blk ∧
      u.bank .b1 = (session 0).bank .b0 := by
  obtain ⟨t, ht, -⟩ := next_spec (show next (exec (.hybEnc .b0) (session 0)) (fun _ => true) = true by decide +kernel)
  exact ⟨t, { start with bank1 := (session 0).bank0, blk := t.blk }, by decide +kernel, ht, rfl, rfl⟩

theorem test_witness_WrittenRoundCountIsShortestHex : (1 : Word) ≠ 0 ∧ (0xFFFFFFFF : Word) ≠ 0 := by decide

theorem test_witness_HdrWriteEmitsTheHeader :
    ((session 0).bank .b0).kvalid = true ∧ (session 0).ports.sinkAccepts ∧
      (Ports.sinkAccepts { src := [], snk := [true], trace := [] }) :=
  ⟨by decide +kernel, accepts rfl, by intro a h; simpa using h⟩

theorem test_witness_HdrReadLoadsTheHeader :
    (let text := bytes [0x31, 0x34]
     let nonce := bytes (List.range 16)
     hexDigits text = some [1, 4] ∧ 1 ≤ hexValue [1, 4] ∧ hexValue [1, 4] = testParams.rMax ∧ nonce.length = 16 ∧
       deliver (input (magicBytes ++ [0x01] ++ text ++ [0x00] ++ nonce ++ [])).src =
         magicBytes ++ [testParams.version] ++ text ++ [0x00] ++ nonce ++ []) ∧
    hexDigits (bytes [0x30, 0x31]) = some [0, 1] ∧ hexValue [0, 1] = 1 := by decide

theorem test_witness_HdrReadFaults_magic :
    (0x53 : Byte) ≠ magicBytes.getD 0 0 ∧ deliver (input [0x53]).src = magicBytes.take 0 ++ [0x53] ++ [] ∧
    (0x01 : Byte) ≠ magicBytes.getD 7 0 ∧ deliver (input (magicBytes.take 7 ++ [0x01])).src = magicBytes.take 7 ++ [0x01] ++ [] := by
  decide

theorem test_witness_HdrReadFaults_version :
    (0x02 : Byte) ≠ testParams.version ∧ deliver (input (magicBytes ++ [0x02])).src = magicBytes ++ [0x02] ++ [] := by decide

theorem test_witness_HdrReadFaults_digit :
    hexDigits (bytes [0x46, 0x66]) = some [15, 15] ∧ (0x67 : Byte) ≠ 0 ∧ hexVal 0x67 = none ∧ hexDigits [] = some [] ∧
    hexVal 0x2F = none ∧ deliver (input (magicBytes ++ [0x01] ++ bytes [0x46, 0x66] ++ [0x67])).src =
      magicBytes ++ [testParams.version] ++ bytes [0x46, 0x66] ++ [0x67] ++ [] := by decide

theorem test_witness_HdrReadFaults_zero :
    hexDigits [] = some [] ∧ hexValue [] = 0 ∧ hexDigits (bytes [0x30]) = some [0] ∧ hexValue [0] = 0 ∧
    deliver (input (magicBytes ++ [0x01] ++ [] ++ [0x00] ++ [7])).src = magicBytes ++ [testParams.version] ++ [] ++ [0x00] ++ [7] := by
  decide

theorem test_witness_HdrReadFaults_unsupported :
    hexDigits (bytes [0x31, 0x35]) = some [1, 5] ∧ testParams.rMax + 1 = hexValue [1, 5] ∧
    deliver (input (magicBytes ++ [0x01] ++ bytes [0x31, 0x35] ++ [0x00])).src =
      magicBytes ++ [testParams.version] ++ bytes [0x31, 0x35] ++ [0x00] ++ [] := by decide

theorem test_witness_HdrReadFaults_ends :
    deliver start.ports.src = magicBytes.take 0 ∧ deliver (input (magicBytes.take 7)).src = magicBytes.take 7 ∧
    deliver (input magicBytes).src = magicBytes ∧
    deliver (input (magicBytes ++ [0x01])).src = magicBytes ++ [testParams.version] ++ [] ∧
    deliver (input (magicBytes ++ [0x01] ++ bytes [0x31, 0x34])).src = magicBytes ++ [testParams.version] ++ bytes [0x31, 0x34] := by
  decide

theorem test_witness_HdrReadFaults_nonce :
    let text := bytes [0x31]
    hexDigits text = some [1] ∧ 1 ≤ hexValue [1] ∧ hexValue [1] ≤ testParams.rMax ∧ (bytes (List.range 15)).length < 16 ∧
      deliver (input (magicBytes ++ [0x01] ++ text ++ [0x00] ++ bytes (List.range 15))).src =
        magicBytes ++ [testParams.version] ++ text ++ [0x00] ++ bytes (List.range 15) := by decide

/-- The check of 95 part 2.9 (b), the same with one bit changed, and 15 bytes. -/
theorem test_witness_PwcVerifyComparesTheCheck :
    let k := (session 0xb26c9489).bank .b0
    k.kvalid = true ∧ check = bytesOfBlock (k.seal Block.zero) ∧ deliver (input check).src = check ++ [] ∧
      (0x3a :: check.tail).length = 16 ∧ 0x3a :: check.tail ≠ bytesOfBlock (k.seal Block.zero) ∧
      deliver (input (0x3a :: check.tail)).src = (0x3a :: check.tail) ++ [] ∧ (deliver (input (check.take 15)).src).length < 16 := by
  decide +kernel

/-- The header of 95 part 2.10 as output, and as the input of a freshly reset engine. -/
theorem test_witness_OwnHeaderIsReadBackAndAuthenticated :
    ((session 0xb26c9489).bank .b0).kvalid = true ∧ (session 0xb26c9489).ports.sinkAccepts ∧
    1 ≤ ((session 0xb26c9489).bank .b0).rounds.toNat ∧ ((session 0xb26c9489).bank .b0).rounds.toNat ≤ start.params.rMax ∧
    start.params = (session 0xb26c9489).params ∧
    ∃ t header, exec (.hdrWrite .b0) (session 0xb26c9489) = .next t ∧
      t.ports.output = (session 0xb26c9489).ports.output ++ header ∧
      deliver (reading start header).ports.src = header ++ [] := by
  refine ⟨by decide +kernel, accepts rfl, by decide +kernel, by decide +kernel, rfl, ?_⟩
  obtain ⟨t, ht, h⟩ := next_spec (show next (exec (.hdrWrite .b0) (session 0xb26c9489)) (fun t => t.ports.output ==
      bytes [0x52, 0x43, 0x36, 0x43, 0x49, 0x50, 0x48, 0x00, 0x01, 0x31, 0x34, 0x00, 0x89, 0x94, 0x6c, 0xb2, 0xd1, 0x82, 0x0d,
        0x8f, 0x4b, 0x9d, 0xce, 0xb4, 0x54, 0x63, 0x87, 0xe5] ++ check) = true by decide +kernel)
  exact ⟨t, _, ht, by rw [eq_of_beq h]; rfl, by decide +kernel⟩

theorem test_witness_NameEncWritesTheNameBlocks :
    ((material helloTxt (session 0)).bank .b0).kvalid = true ∧ (material helloTxt (session 0)).ports.sinkAccepts ∧
    (material helloTxt (session 0)).mlen.toNat ≤ start.params.mMax ∧
    (material (List.replicate 32 0x61) (session 0)).mlen.toNat = start.params.mMax :=
  ⟨by decide +kernel, accepts rfl, by decide +kernel, by decide +kernel⟩

/-- The longest name that fits `M_MAX = 32` with a zero byte after it has 31 bytes; a name of 16 bytes has two blocks; "hello.txt"
with zeros after it, as 95 part 2.11 encrypts it, and a text with other bytes after the name's end. -/
theorem test_witness_NameDecRecoversTheName :
    let meets := fun name rest : List Byte => (∀ v ∈ name, v ≠ 0) ∧ 16 * (name.length / 16 + 1) ≤ start.params.mMax ∧
      name.length < 2 ^ 32 ∧ (name ++ 0 :: rest).length = 16 * (name.length / 16 + 1)
    ((session 0xb26c948a).bank .b0).kvalid = true ∧ meets (List.replicate 31 0x61) [] ∧
    meets (List.replicate 16 0x61) (List.replicate 15 0xFF) ∧ meets helloTxt (List.replicate 6 0) ∧ (∀ v ∈ List.replicate 6 (0 : Byte), v = 0) ∧
    meets helloTxt [0xAA, 0, 1, 2, 3, 4] ∧
    deliver (input (nameCipher ++ [1])).src =
      ((session 0xb26c948a).bank .b0).sealAll (wholeBlocks (helloTxt ++ 0 :: List.replicate 6 0)) ++ [1] := by decide +kernel

/-- The bytes after the name's end stand in `MBUF` as decrypted (R217). -/
theorem test_nameDec_keeps_what_follows :
    let s := session 0xb26c948a
    next (exec (.nameDec .b0) { s with ports := input (s.bank0.sealAll [helloTxt ++ bytes [0, 0xAA, 0, 1, 2, 3, 4]]) })
      (fun t => t.mlen == 9 && Memory.read t.mbuf 9 == 0 && Memory.read t.mbuf 10 == 0xAA && Memory.read t.mbuf 15 == 4) = true := by
  decide +kernel

/-- Two blocks without a zero byte fill `M_MAX = 32`; one such block and an input that ends leave one that fits. -/
theorem test_witness_NameDecFaults :
    let k := (session 0).bank .b0
    let full := k.sealAll [List.replicate 16 0x61, List.replicate 16 0x62]
    k.kvalid = true ∧ 16 * 2 ≤ start.params.mMax ∧ 16 * 2 ≤ (deliver (input full).src).length ∧
      (∀ p ∈ k.unsealAll (wholeBlocks ((deliver (input full).src).take (16 * 2))), ∀ v ∈ p, v ≠ 0) ∧
      start.params.mMax < 16 * 2 + 16 ∧
      (∀ p ∈ k.unsealAll (wholeBlocks ((deliver (input full).src).take (16 * 1))), ∀ v ∈ p, v ≠ 0) ∧
      16 * 1 + 16 ≤ start.params.mMax ∧ (deliver (input (full.take 31)).src).length < 16 * 1 + 16 ∧
      (deliver (input []).src).length < 16 * 0 + 16 := by decide +kernel

theorem test_witness_ReadBlockFillsAndPads :
    (bytes (List.range 16)).length = 16 ∧ 0 < 4 ∧ 3 < 4 ∧
    16 ≤ (deliver (input (bytes (List.range 16))).src).length ∧ (deliver (input (bytes (List.range 15))).src).length < 16 ∧
    (deliver start.ports.src).length < 16 := by decide

/-- R95's table: byte 4k+m is bits 8m+7:8m of word k. -/
theorem test_words_and_bytes :
    bytesOfBlock ⟨0x03020100, 0x07060504, 0x0b0a0908, 0x0f0e0d0c⟩ = bytes (List.range 16) ∧
    blockOfBytes (bytes (List.range 16)) = ⟨0x03020100, 0x07060504, 0x0b0a0908, 0x0f0e0d0c⟩ := by decide

theorem test_witness_TrimUndoesPad : ([] : List Byte).length < 16 ∧ (bytes (List.range 15)).length < 16 := by decide

theorem test_witness_TrimEmitWritesTheTrimmedBlock :
    trim (bytesOfBlock ⟨0x80, 0, 0, 0⟩) = some [] ∧ trim (bytesOfBlock ⟨0, 0, 0, 0x80000000⟩) = some (List.replicate 15 0) ∧
    start.ports.sinkAccepts ∧ start.blk = Block.zero := ⟨by decide, by decide, accepts rfl, rfl⟩

theorem test_witness_EncStreamSealsThePaddedInput :
    ((session 0).bank .b0).kvalid = true ∧ (reading (session 0) helloWorld).ports.sinkAccepts := ⟨by decide +kernel, accepts rfl⟩

/-- One whole block that trims; one whole block of zeros; no whole block. -/
theorem test_witness_DecStreamUnsealsAndTrims :
    let k := (session 0xb26c948b).bank .b0
    k.kvalid = true ∧ start.ports.sinkAccepts ∧
    (1 ≤ (deliver (input (dataCipher ++ [1])).src).length / 16 ∧
      trim ((k.unsealAll (wholeBlocks (deliver (input (dataCipher ++ [1])).src))).getD 0 []) = some helloWorld) ∧
    (let zeros := k.sealAll [List.replicate 16 0]
     1 ≤ (deliver (input zeros).src).length / 16 ∧
       trim ((k.unsealAll (wholeBlocks (deliver (input zeros).src))).getD 0 []) = none) ∧
    (deliver (input (bytes (List.range 15))).src).length / 16 = 0 :=
  ⟨by decide +kernel, accepts rfl, by decide +kernel, by decide +kernel, by decide +kernel⟩

/-- The ciphertext of 95 part 2.12, first row, read back on bank 1 with 15 bytes after it. -/
theorem test_witness_DecStreamRecoversThePlaintext :
    let s := reading (session 0xb26c948b) helloWorld
    let stray := bytes (List.range 15)
    let u := reading { start with bank1 := (session 0xb26c948b).bank0 } (dataCipher ++ stray)
    (s.bank .b0).kvalid = true ∧ s.ports.sinkAccepts ∧ u.ports.sinkAccepts ∧ u.bank .b1 = s.bank .b0 ∧ stray.length < 16 ∧
    ∃ t, exec (.encStream .b0) s = .next t ∧ t.ports.output = s.ports.output ++ dataCipher ∧
      deliver u.ports.src = dataCipher ++ stray := by
  refine ⟨by decide +kernel, accepts rfl, accepts rfl, rfl, by decide, ?_⟩
  obtain ⟨t, ht, h⟩ := next_spec test_encStream
  simp only [Bool.and_eq_true, beq_iff_eq] at h
  exact ⟨t, ht, by rw [h.1]; rfl, by decide +kernel⟩

/-- Both banks keyed. -/
def both : State := { session 0 with bank1 := keyed new 12 Block.zero }

theorem test_witness_ReencStreamRekeysEveryBlock :
    both.bank0.kvalid = true ∧ both.bank1.kvalid = true ∧ both.ports.sinkAccepts ∧
    wholeBlocks (deliver (input (bytes (List.range 15))).src) = [] ∧
    (wholeBlocks (deliver (input (bytes (List.range 33))).src)).length = 2 :=
  ⟨by decide +kernel, by decide +kernel, accepts rfl, by decide, by decide⟩

theorem test_witness_ReencryptionEqualsEncryption :
    let ps := [bytes (List.range 16), List.replicate 16 0]
    let stray := bytes (List.range 15)
    (∀ p ∈ ps, p.length = 16) ∧ stray.length < 16 ∧
      deliver (reading both (both.bank0.sealAll ps ++ stray)).ports.src = both.bank0.sealAll ps ++ stray := by decide +kernel

/-- The last block is written after the `FAIL` (95 part 2.12, first row), a block before it after 32 bytes read (16 bytes row). -/
theorem test_witness_DecStreamWritesOnlyAfterLookahead :
    (∃ t, exec (.decStream .b0) (reading (session 0xb26c948b) dataCipher) = .next t ∧
      t.ports.trace = [] ++ (dataCipher.map PortEvent.read ++ [.readFail]) ++ .write 0x68 :: helloWorld.tail.map PortEvent.write) ∧
    (let c := bytes [0x90, 0xfc, 0x64, 0x72, 0xfd, 0x84, 0xe6, 0xbe, 0xba, 0xa6, 0x23, 0xc0, 0xbc, 0xe9, 0x2a, 0xcf, 0xfc, 0x42, 0x13,
        0x7e, 0x6e, 0x4b, 0x3b, 0xdc, 0xc2, 0xec, 0x12, 0x90, 0xff, 0x7a, 0x51, 0x8c]
     ∃ t, exec (.decStream .b0) (reading (session 0xb26c948b) c) = .next t ∧
       t.ports.trace = [] ++ c.map PortEvent.read ++ .write 0x30 :: ((bytes [0x31, 0x32, 0x33, 0x34, 0x35, 0x36, 0x37, 0x38, 0x39, 0x61,
         0x62, 0x63, 0x64, 0x65, 0x66]).map PortEvent.write ++ [.readFail])) := by
  constructor
  · obtain ⟨t, ht, h⟩ := next_spec (show next (exec (.decStream .b0) (reading (session 0xb26c948b) dataCipher)) (fun t =>
      t.ports.trace == [] ++ (dataCipher.map PortEvent.read ++ [.readFail]) ++ .write 0x68 :: helloWorld.tail.map PortEvent.write)
        = true by decide +kernel)
    exact ⟨t, ht, eq_of_beq h⟩
  · intro c
    obtain ⟨t, ht, h⟩ := next_spec (show next (exec (.decStream .b0) (reading (session 0xb26c948b) c)) (fun t =>
      t.ports.trace == [] ++ c.map PortEvent.read ++ .write 0x30 :: ((bytes [0x31, 0x32, 0x33, 0x34, 0x35, 0x36, 0x37, 0x38, 0x39, 0x61,
         0x62, 0x63, 0x64, 0x65, 0x66]).map PortEvent.write ++ [.readFail])) = true by decide +kernel)
    exact ⟨t, ht, eq_of_beq h⟩

theorem test_witness_NoCommandReadsAfterFail :
    ∃ t, exec .readBlock start = .next t ∧ t.ports.trace = start.ports.trace ++ [] ++ .readFail :: [] := ⟨_, rfl, by decide +kernel⟩

theorem test_witness_SinkFailureEndsTheCommand :
    let s : State := { start with blk := ⟨0x00434241, 0, 0, 0⟩, ports := { src := [], snk := [true, false], trace := [] } }
    ∃ t, exec .trimEmit s = .next t ∧ t.ports.trace = s.ports.trace ++ [.write 0x41] ++ .writeFail 0x42 :: [] := by
  intro s
  obtain ⟨t, ht, h⟩ := next_spec (show next (exec .trimEmit s) (fun t =>
    t.ports.trace == s.ports.trace ++ [.write 0x41] ++ .writeFail 0x42 :: []) = true by decide +kernel)
  exact ⟨t, ht, eq_of_beq h⟩

theorem test_witness_CommandsWithoutScheduleRaiseNoKey :
    (∃ b ∈ keyedBanks (.encStream .b1), (start.bank b).kvalid = false) ∧
    ∃ b ∈ keyedBanks .reencStream, ((session 0).bank b).kvalid = false := by decide +kernel

/-- A command that completes, and one that raises, which clears the other bank's validity. -/
theorem test_witness_BanksShareNothing :
    (∃ t u, bankUsed (.ctrInc .b0) = some .b0 ∧ exec (.ctrInc .b0) start = .next t ∧
      exec (.ctrInc .b0) (start.setBank .b1 (keyed new 12 Block.zero)) = .next u) ∧
    ∃ t u, bankUsed (.hybEnc .b0) = some .b0 ∧ exec (.hybEnc .b0) start = .next t ∧
      exec (.hybEnc .b0) (start.setBank .b1 (keyed new 12 Block.zero)) = .next u :=
  ⟨⟨_, _, rfl, rfl, rfl⟩, _, _, rfl, rfl, rfl⟩

theorem test_witness_FaultStateIgnoresWrites :
    (faultEntry .auth 0x42 start).fault = true ∧ 0x000 % 4 = 0 ∧ regAt start.params.mMax 0x000 = some .cmd ∧
    ¬ (Reg.cmd = .cmd ∧ (0x00000000 : Word) = 0x000000FF) ∧ 0x41C % 4 = 0 ∧ regAt start.params.mMax 0x41C = some (.mbuf 7) ∧
    ¬ (Reg.mbuf 7 = .cmd ∧ (0x000000FF : Word) = 0x000000FF) := by decide

/-- The last word of `MBUF` and the last words of `CTR[1]` and `BLK`; the two lists' last offsets. -/
theorem test_witness_RegistersReadBack :
    start.fault = false ∧ Memory.wf start.mbuf = true ∧ (Reg.mbuf 7).present start.params.mMax ∧
    (Reg.ctr .b1 3).present start.params.mMax ∧ (Reg.blk 3).present start.params.mMax ∧ Reg.status.present start.params.mMax ∧
    (∀ r ∈ [Reg.mbuf 7, .ctr .b1 3, .blk 3, .rounds .b1, .mlen], r ≠ .cmd ∧ r ≠ .status ∧ r ≠ .cause) ∧ start.Inv ∧
    (faultEntry .auth 0x42 start).Inv := by
  refine ⟨rfl, by decide, ?_, ?_, ?_, ?_, by decide, ?_, ?_⟩
  · intro n h; cases h; decide
  · intro n h; cases h
  · intro n h; cases h
  · intro n h; cases h
  · exact ⟨rfl, rfl, rfl, rfl, rfl⟩
  · exact ⟨rfl, rfl, ⟨⟨.auth, 0x42, rfl⟩, rfl, rfl, rfl, rfl, rfl, rfl⟩, rfl, rfl⟩

/-- R35: the offsets of the last words of `CTR[0]`, `CTR[1]`, `BLK` and this window's `MBUF`. -/
theorem test_offsets :
    (Reg.ctr .b0 3).offset = 0x02C ∧ (Reg.ctr .b1 3).offset = 0x03C ∧ (Reg.blk 3).offset = 0x04C ∧ (Reg.mbuf 7).offset = 0x41C ∧
    next (hostRead 0x038 4 { start with bank1 := { Bank.reset with ctr := ⟨1, 2, 3, 4⟩ } }) (fun t => t.rdata == some 3) = true ∧
    next (hostWrite 0x044 4 5 start) (fun t => t.blk == ⟨0, 5, 0, 0⟩) = true := by decide +kernel

/-- Neighbouring words of `MBUF` at its end, words of the two counters, and STATUS after a write of another register. -/
theorem test_witness_RegisterWritesAreIndependent :
    start.fault = false ∧ Memory.wf start.mbuf = true ∧ (Reg.mbuf 6).present start.params.mMax ∧ (Reg.mbuf 7).present start.params.mMax ∧
    (Reg.ctr .b0 3).present start.params.mMax ∧ (Reg.ctr .b1 3).present start.params.mMax ∧ Reg.status.present start.params.mMax ∧
    Reg.mbuf 6 ≠ .cmd ∧ Reg.mbuf 6 ≠ .mbuf 7 ∧ (Reg.mbuf 7 = .status → ∀ b, Reg.mbuf 6 ≠ .rounds b) ∧
    Reg.ctr .b0 3 ≠ .cmd ∧ Reg.ctr .b0 3 ≠ .ctr .b1 3 ∧ Reg.ctr .b0 3 ≠ .status ∧
    (Reg.status = .status → ∀ b, Reg.ctr .b0 3 ≠ .rounds b) := by
  refine ⟨rfl, by decide, ?_, ?_, ?_, ?_, ?_, by decide, by decide, ?_, by decide, by decide, by decide, ?_⟩
  · intro n h; cases h; decide
  · intro n h; cases h; decide
  · intro n h; cases h
  · intro n h; cases h
  · intro n h; cases h
  · intro h; cases h
  · intro _ b h; cases h

theorem test_witness_RoundsWriteEndsTheSession : (session 0).fault = false := by decide +kernel

theorem test_witness_OnlyAlignedRegisterAccessesAreAdmitted :
    (1 ≠ 4 ∨ 0x000 % 4 ≠ 0) ∧ (4 ≠ 4 ∨ 0x002 % 4 ≠ 0) ∧ start.params.mMax % 4 = 0 ∧
    (∀ off ∈ [0x00C, 0x01C, 0x050, 0x3FC, 0x420], off % 4 = 0 ∧
      (off = 0x00C ∨ off = 0x01C ∨ (0x050 ≤ off ∧ off ≤ 0x3FC) ∨ 0x400 + start.params.mMax ≤ off)) ∧
    ∀ off ∈ [0x000, 0x008, 0x010, 0x018, 0x020, 0x04C, 0x400, 0x41C], off % 4 = 0 ∧
      ¬ (off = 0x00C ∨ off = 0x01C ∨ (0x050 ≤ off ∧ off ≤ 0x3FC) ∨ 0x400 + start.params.mMax ≤ off) := by decide

theorem test_witness_MbufWindowIsLittleEndian :
    Memory.wf start.mbuf = true ∧ start.fault = false ∧ 4 * 0 + 4 ≤ start.params.mMax ∧ 4 * 7 + 4 = start.params.mMax ∧ 0 < 4 ∧ 3 < 4 := by
  decide

theorem test_witness_LoadmPlacesTheMaterial :
    start.fault = false ∧ Memory.wf start.mbuf = true ∧ start.params.mMax % 4 = 0 ∧ (bytes (List.range 32)).length = start.params.mMax ∧
    (bytes (List.range 32)).length < 2 ^ 32 ∧ ([] : List Byte).length ≤ start.params.mMax := by decide

/-- A reset before the first port operation, and one after the command's only one. -/
theorem test_witness_ResetDuringACommand :
    ∃ u, execute 0x00000050 start = .next u ∧ u.ports.trace = start.ports.trace ++ [.readFail] ∧
      ([PortEvent.readFail] : List PortEvent).length ≤ 1 := ⟨_, rfl, by decide +kernel, by decide⟩

theorem test_witness_EveryStepKeepsTheInvariant :
    ∃ t, start.Inv ∧ step (start.withFetchWord 32 0x00000032) = .next t ∧ (start.withFetchWord 32 0x00000032).Inv :=
  ⟨_, ⟨rfl, rfl, rfl, rfl, rfl⟩, rfl, ⟨rfl, rfl, rfl, rfl, rfl⟩⟩

end Sys2Proof.Tests
end

section
/-!
Every command as one body followed to its end or its `raise` (R303, R306): `bodyOf` names the body, `exec_eq_complete` ties it to
`exec`, and what a command may change and raise (R41, R310) is said of the body once.
-/

namespace Sys2Proof.Machine

/-! ### The command bodies -/

/-- The body of each command; a command that cannot raise is a body that ends with `ok`. -/
def bodyOf : Instr → State → Run Unit
  | .nop, s => .ok () s
  | .rotl, s => .ok () (s.setBlk { s.blk with w0 := rotl32 s.blk.w0 s.blk.w1.toNat })
  | .rotr, s => .ok () (s.setBlk { s.blk with w0 := rotr32 s.blk.w0 s.blk.w1.toNat })
  | .mclr, s => .ok () s.clearMaterial
  | .genSched hex b, s => genSchedBody hex b s
  | .nonceDerive hex b, s => nonceDeriveBody hex b s
  | .rc6Enc b, s => (requireKey b s).bind fun _ t => .ok () (t.setBlk ((t.bank b).enc t.blk))
  | .rc6Dec b, s => (requireKey b s).bind fun _ t => .ok () (t.setBlk ((t.bank b).dec t.blk))
  | .hybEnc b, s => (requireKey b s).bind fun _ t => .ok () (hybEncBlk b t)
  | .hybDec b, s => (requireKey b s).bind fun _ t => .ok () (hybDecBlk b t)
  | .ctrInc b, s => .ok () (s.stepCtr b)
  | .hdrWrite b, s => hdrWriteBody b s
  | .hdrRead b, s => hdrReadBody b s
  | .pwcVerify b, s => pwcVerifyBody b s
  | .nameEnc b, s => nameEncBody b s
  | .nameDec b, s => nameDecBody b s
  | .readBlock, s => .ok () (loadBlock s)
  | .trimEmit, s => emitTrimmed s
  | .encStream b, s => encStreamBody b s
  | .decStream b, s => decStreamBody b s
  | .reencStream, s => reencStreamBody s
  | .sreset, s => .ok () (resetEngine s)

/-- A command is its body, completed by the fault entry at its `raise` (R303). -/
theorem exec_eq_complete (i : Instr) (s : State) : exec i s = complete i (bodyOf i s) := by cases i <;> rfl

theorem exec_of_ok {i : Instr} {s t : State} (h : bodyOf i s = .ok () t) : exec i s = .next t := by
  rw [exec_eq_complete, h, complete_ok]

theorem exec_of_raised {i : Instr} {s t : State} {e : Cause} (h : bodyOf i s = .raised e t) :
    exec i s = .next (faultEntry e (encode i) t) := by rw [exec_eq_complete, h, complete_raised]

/-- Everything a command's step can be. -/
theorem exec_cases (i : Instr) (s : State) :
    (∃ t, bodyOf i s = .ok () t ∧ exec i s = .next t) ∨
      ∃ e t, bodyOf i s = .raised e t ∧ exec i s = .next (faultEntry e (encode i) t) := by
  cases h : bodyOf i s with
  | ok a t => exact .inl ⟨t, rfl, exec_of_ok h⟩
  | raised e t => exact .inr ⟨e, t, rfl, exec_of_raised h⟩

/-- The fault entry leaves the ports, so a command's traffic is its body's. -/
theorem exec_ports {i : Instr} {s t : State} (h : exec i s = .next t) : t.ports = (bodyOf i s).last.ports := by
  rcases exec_cases i s with ⟨u, hb, hu⟩ | ⟨e, u, hb, hu⟩ <;> rw [hu] at h <;> cases h <;> rw [hb] <;> rfl

/-! ### The key check (R25) -/

theorem requireKey_bind_of_not_kvalid {b : BankId} {s : State} {f : Unit → State → Run Unit} (h : (s.bank b).kvalid = false) :
    (requireKey b s).bind f = .raised .noKey s := by rw [requireKey_of_not_kvalid h, bind_raised]

/-- A body whose bank lacks the schedule it needs ends at its key check, the state as it was. -/
theorem bodyOf_raises_noKey {i : Instr} {b : BankId} {s : State} (hb : b ∈ keyedBanks i) (h : (s.bank b).kvalid = false) :
    bodyOf i s = .raised .noKey s := by
  cases i with
  | reencStream =>
    show reencStreamBody s = _
    unfold reencStreamBody
    cases h0 : (s.bank .b0).kvalid with
    | false => exact requireKey_bind_of_not_kvalid h0
    | true =>
      obtain rfl : b = .b1 := by cases b <;> simp_all
      rw [requireKey_of_kvalid h0, bind_ok, requireKey_bind_of_not_kvalid h]
  | nop | rotl | rotr | mclr | genSched _ _ | nonceDerive _ _ | ctrInc _ | hdrRead _ | readBlock | trimEmit | sreset =>
    simp [keyedBanks] at hb
  | rc6Enc d | rc6Dec d | hybEnc d | hybDec d | hdrWrite d | pwcVerify d | nameEnc d | nameDec d | encStream d | decStream d =>
    obtain rfl : b = d := by simpa [keyedBanks] using hb
    exact requireKey_bind_of_not_kvalid h

/-- Settles O45: the key check stands first in every body that needs a schedule. -/
theorem commandsWithoutScheduleRaiseNoKey : Obligations.CommandsWithoutScheduleRaiseNoKey := by
  rintro i s ⟨b, hb, h⟩
  exact exec_of_raised (bodyOf_raises_noKey hb h)

/-! ### The schedule from the material (R147, R149) -/

/-- Everything the key commands' common part can do; it never changes the state. -/
theorem scheduleFromMaterial_cases (hex : Bool) (b : BankId) (s : State) :
    (∃ sched, scheduleFromMaterial hex b s = .ok sched s ∧ 1 ≤ (s.bank b).rounds.toNat ∧
      (s.bank b).rounds.toNat ≤ s.params.rMax ∧ genSched s.material (s.bank b).rounds.toNat hex = some sched) ∨
    ∃ e, scheduleFromMaterial hex b s = .raised e s := by
  by_cases h1 : 1 ≤ (s.bank b).rounds.toNat
  · by_cases h2 : (s.bank b).rounds.toNat ≤ s.params.rMax
    · by_cases h3 : s.mlen.toNat ≤ s.params.mMax
      · cases h4 : genSched s.material (s.bank b).rounds.toNat hex with
        | none => exact .inr ⟨.inputHex, by simp [scheduleFromMaterial, checkRounds, checkMlen, h1, h2, h3, h4]⟩
        | some sched =>
          exact .inl ⟨sched, by simp [scheduleFromMaterial, checkRounds, checkMlen, h1, h2, h3, h4], h1, h2, rfl⟩
      · exact .inr ⟨.mbufOverflow, by simp [scheduleFromMaterial, checkRounds, checkMlen, h1, h2, h3]⟩
    · exact .inr ⟨.roundsUnsupported, by simp [scheduleFromMaterial, checkRounds, h1, h2]⟩
  · exact .inr ⟨.inputRounds, by simp [scheduleFromMaterial, checkRounds, h1]⟩

/-! ### R41 as touched pieces -/

/-- The pieces of state that a command's row of R41 lists. SRESET, which sets everything to its reset value, has no such row. -/
def touchedBy : Instr → Touched
  | .nop | .sreset => {}
  | .rotl | .rotr | .rc6Enc _ | .rc6Dec _ => { blk := true }
  | .mclr => { material := true }
  | .genSched _ b => { material := true, bank := only b }
  | .nonceDerive _ b => { material := true, ctr := only b }
  | .hybEnc b | .hybDec b => { blk := true, ctr := only b }
  | .ctrInc b => { ctr := only b }
  | .hdrWrite b | .nameEnc b => { blk := true, snk := true, ctr := only b }
  | .hdrRead b => { src := true, bank := only b }
  | .pwcVerify b => { blk := true, src := true, ctr := only b }
  | .nameDec b => { material := true, blk := true, src := true, ctr := only b }
  | .readBlock => { final := true, blk := true, src := true }
  | .trimEmit => { snk := true }
  | .encStream b => { final := true, blk := true, src := true, snk := true, ctr := only b }
  | .decStream b => { blk := true, src := true, snk := true, ctr := only b }
  | .reencStream => { blk := true, src := true, snk := true, ctr := fun _ => true }

theorem changes_clearMaterial {c : Touched} (hc : c.material = true) (s : State) : Changes c s s.clearMaterial :=
  changes_material hc s [] 0

/-- Each body changes only what its row of R41 lists and raises only what its row of R310 lists. -/
theorem framed_bodyOf {i : Instr} (hi : i ≠ .sreset) (s : State) : Framed (touchedBy i) (faultsOf i) s (bodyOf i s) := by
  cases i with
  | nop => exact framed_ok (.refl _ _)
  | rotl | rotr => exact framed_ok (changes_blk rfl _ _)
  | mclr => exact framed_ok (changes_clearMaterial rfl s)
  | genSched hex b =>
    have invalidated := changes_bank (c := touchedBy (.genSched hex b)) (only_self b) s (s.bank b).invalidate
    refine framed_bind (framed_after invalidated (framed_scheduleFromMaterial hex b _ (by simp [faultsOf]) (by simp [faultsOf])
      (by simp [faultsOf]) (by simp [faultsOf]))) fun sched t _ => ?_
    exact framed_ok ((changes_clearMaterial rfl t).trans (changes_bank (only_self b) _ _))
  | nonceDerive hex b =>
    refine framed_bind (framed_scheduleFromMaterial hex b s (by simp [faultsOf]) (by simp [faultsOf]) (by simp [faultsOf])
      (by simp [faultsOf])) fun sx t _ => ?_
    have counter := changes_ctr (c := touchedBy (.nonceDerive hex b)) (only_self b) t.clearMaterial
    simp only [clearMaterial_bank] at counter
    exact framed_ok ((changes_clearMaterial rfl t).trans (counter _))
  | rc6Enc b | rc6Dec b => exact framed_bind (framed_require _ (by simp [faultsOf])) fun _ t _ => framed_ok (changes_blk rfl _ _)
  | hybEnc b =>
    exact framed_bind (framed_require _ (by simp [faultsOf])) fun _ t _ => framed_ok (changes_hybEncBlk rfl (only_self b) _)
  | hybDec b =>
    exact framed_bind (framed_require _ (by simp [faultsOf])) fun _ t _ => framed_ok (changes_hybDecBlk rfl (only_self b) _)
  | ctrInc b => exact framed_ok (changes_ctr (only_self b) _ _)
  | hdrWrite b =>
    refine framed_bind (framed_require _ (by simp [faultsOf])) fun _ t _ => ?_
    refine framed_bind (framed_snkBytes rfl (by simp [faultsOf]) _ _) fun _ u _ => ?_
    exact framed_after ((changes_blk rfl u _).trans (changes_hybEncBlk rfl (only_self b) _))
      (framed_snkBlock rfl (by simp [faultsOf]) _)
  | hdrRead b =>
    refine framed_bind (framed_after (changes_bank (only_self b) _ _) (framed_readMagic rfl (by simp [faultsOf])
      (by simp [faultsOf]) _ _)) fun _ s1 _ => ?_
    refine framed_bind (framed_srcByte rfl (by simp [faultsOf]) _) fun v s2 _ => ?_
    refine framed_bind (framed_require _ (by simp [faultsOf])) fun _ s3 _ => ?_
    refine framed_bind (framed_readCount rfl (by simp [faultsOf]) (by simp [faultsOf]) _ _ _ _) fun nq s4 _ => ?_
    refine framed_bind (framed_checkCount (by simp [faultsOf]) (by simp [faultsOf]) _ _ _) fun _ s5 _ => ?_
    refine framed_bind (framed_after (changes_bank (only_self b) _ _) (framed_srcBytes rfl (by simp [faultsOf]) _ _))
      fun p s6 _ => ?_
    exact framed_ok (changes_bank (only_self b) _ _)
  | pwcVerify b =>
    refine framed_bind (framed_require _ (by simp [faultsOf])) fun _ t _ => ?_
    refine framed_bind (framed_srcBytes rfl (by simp [faultsOf]) _ _) fun p u _ => ?_
    exact framed_after ((changes_blk rfl u _).trans (changes_hybEncBlk rfl (only_self b) _))
      (framed_require _ (by simp [faultsOf]))
  | nameEnc b =>
    refine framed_bind (framed_require _ (by simp [faultsOf])) fun _ t _ => ?_
    refine framed_bind (framed_require _ (by simp [faultsOf])) fun _ u _ => ?_
    exact framed_nameEncLoop rfl (only_self b) rfl (by simp [faultsOf]) _ _ _ _
  | nameDec b =>
    refine framed_bind (framed_require _ (by simp [faultsOf])) fun _ t _ => ?_
    exact framed_after (changes_clearMaterial rfl t)
      (framed_nameDecLoop rfl (only_self b) rfl rfl (by simp [faultsOf]) (by simp [faultsOf]) _ _ _)
  | readBlock => exact framed_ok (changes_loadBlock rfl rfl rfl _)
  | trimEmit => exact framed_emitTrimmed rfl (by simp [faultsOf]) (by simp [faultsOf]) _
  | encStream b =>
    refine framed_bind (framed_require _ (by simp [faultsOf])) fun _ t _ => ?_
    exact framed_encLoop rfl (only_self b) rfl rfl rfl (by simp [faultsOf]) _ _
  | decStream b =>
    refine framed_bind (framed_require _ (by simp [faultsOf])) fun _ t _ => ?_
    simp only [tryReadBlock_eq]
    refine framed_bind (framed_after (changes_read rfl t 16) (framed_require _ (by simp [faultsOf]))) fun _ u _ => ?_
    exact framed_decLoop rfl (only_self b) rfl rfl (by simp [faultsOf]) (by simp [faultsOf]) _ _ _
  | reencStream =>
    refine framed_bind (framed_require _ (by simp [faultsOf])) fun _ t _ => ?_
    refine framed_bind (framed_require _ (by simp [faultsOf])) fun _ u _ => ?_
    exact framed_reencLoop rfl (fun _ => rfl) rfl rfl (by simp [faultsOf]) _ _
  | sreset => exact absurd rfl hi

/-! ### R41's rows -/

/-- Bank `b` of `s` with the pieces that `c` names taken from `u`. -/
def Touched.takeBank (c : Touched) (s u : State) (b : BankId) : Bank :=
  if c.bank b then u.bank b else if c.ctr b then { s.bank b with ctr := (u.bank b).ctr } else s.bank b

/-- The state `s` with the pieces that `c` names taken from `u`. -/
def Touched.take (c : Touched) (s u : State) : State :=
  { s with
    bank0 := c.takeBank s u .b0
    bank1 := c.takeBank s u .b1
    blk := if c.blk then u.blk else s.blk
    mbuf := if c.material then u.mbuf else s.mbuf
    mlen := if c.material then u.mlen else s.mlen
    final := if c.final then u.final else s.final
    ports := if c.src || c.snk then u.ports else s.ports }

theorem Changes.bank_eq_takeBank {c : Touched} {s u : State} (h : Changes c s u) (b : BankId) :
    u.bank b = c.takeBank s u b := by
  unfold Touched.takeBank
  split
  · rfl
  · next hb =>
    split
    · exact h.ctr b (by simpa using hb)
    · next hc => exact h.bank b (by simpa using hb) (by simpa using hc)

theorem eq_ite_of_imp {α : Type} {c : Bool} {x y : α} (h : c = false → x = y) : x = if c then x else y := by
  cases c
  · exact h rfl
  · rfl

/-- A state that differs from `s` only in the pieces `c` names is `s` with these pieces replaced. -/
theorem Changes.eq_take {c : Touched} {s u : State} (h : Changes c s u) : u = c.take s u := by
  have h0 : u.bank0 = c.takeBank s u .b0 := h.bank_eq_takeBank .b0
  have h1 : u.bank1 = c.takeBank s u .b1 := h.bank_eq_takeBank .b1
  have hblk := eq_ite_of_imp h.blk
  have hmbuf := eq_ite_of_imp fun hc => (h.material hc).1
  have hmlen := eq_ite_of_imp fun hc => (h.material hc).2
  have hfinal := eq_ite_of_imp h.final
  have hports : u.ports = if c.src || c.snk then u.ports else s.ports :=
    eq_ite_of_imp fun hc => h.ports (Bool.or_eq_false_iff.1 hc).1 (Bool.or_eq_false_iff.1 hc).2
  calc u = { s with bank0 := u.bank0, bank1 := u.bank1, blk := u.blk, mbuf := u.mbuf, mlen := u.mlen, final := u.final,
                    ports := u.ports } := by rw [← h.fault, ← h.cause, ← h.params, ← h.host, ← h.rdata]
    _ = c.take s u := by rw [h0, h1, hblk, hmbuf, hmlen, hfinal, hports]; rfl

/-- GEN_SCHED's last state: the bank has lost its schedule or has a new one, its round count and counter are as before. -/
theorem genSchedBody_changesOnlyRow (hex : Bool) (b : BankId) (s : State) :
    changesOnlyRow (.genSched hex b) s (genSchedBody hex b s).last := by
  unfold genSchedBody
  rcases scheduleFromMaterial_cases hex b (s.invalidate b) with ⟨sched, h, _⟩ | ⟨e, h⟩
  · rw [h]; cases b <;> rfl
  · rw [h]; cases b <;> rfl

/-- For the rows that list whole pieces, R41's row says no more than `Changes`. -/
theorem changesOnlyRow_of_changes {i : Instr} {s u : State} (h : Changes (touchedBy i) s u) (hl : i ≠ .rotl) (hr : i ≠ .rotr)
    (hg : ∀ hex b, i ≠ .genSched hex b) (hs : i ≠ .sreset) : changesOnlyRow i s u := by
  cases i with
  | rotl => exact absurd rfl hl
  | rotr => exact absurd rfl hr
  | genSched hex b => exact absurd rfl (hg hex b)
  | sreset => exact absurd rfl hs
  | nop | mclr | reencStream => exact h.eq_take
  | nonceDerive _ b | rc6Enc b | rc6Dec b | hybEnc b | hybDec b | ctrInc b | encStream b | decStream b =>
    cases b <;> exact h.eq_take
  | hdrWrite b | nameEnc b => cases b <;> exact ⟨h.eq_take, h.src rfl⟩
  | hdrRead b | pwcVerify b | nameDec b => cases b <;> exact ⟨h.eq_take, h.snk rfl⟩
  | readBlock => exact ⟨h.eq_take, h.snk rfl⟩
  | trimEmit => exact ⟨h.eq_take, h.src rfl⟩

/-- Where a body ends, with success or at a `raise`, only its row of R41 has changed. -/
theorem bodyOf_changesOnlyRow (i : Instr) (s : State) : changesOnlyRow i s (bodyOf i s).last := by
  cases i with
  | rotl | rotr | sreset => rfl
  | genSched hex b => exact genSchedBody_changesOnlyRow hex b s
  | _ => refine changesOnlyRow_of_changes (framed_bodyOf ?_ s).1 ?_ ?_ ?_ ?_ <;> nofun

/-- What a body raises is listed in its row of R310. -/
theorem mem_faultsOf_of_raised {i : Instr} {s t : State} {e : Cause} (h : bodyOf i s = .raised e t) : e ∈ faultsOf i := by
  by_cases hi : i = .sreset
  · subst hi; cases h
  · exact (framed_bodyOf hi s).2 e t h

/-- Settles O46: the state `u` is the one in which the body ends. -/
theorem commandsChangeOnlyTheirRow : Obligations.CommandsChangeOnlyTheirRow := by
  intro i s
  have row := bodyOf_changesOnlyRow i s
  rcases exec_cases i s with ⟨t, hb, ht⟩ | ⟨e, t, hb, ht⟩
  · rw [hb] at row
    exact ⟨t, row, .inl ht⟩
  · rw [hb] at row
    exact ⟨t, row, .inr ⟨e, mem_faultsOf_of_raised hb, ht⟩⟩

end Sys2Proof.Machine
end

section
/-!
The banks share nothing (R21): every body of a command that uses BANK is blind to the other bank, and the fault entry alone
touches it.
-/

namespace Sys2Proof.Machine

theorem blind_ok {b : BankId} {k : Bank} {f : State → State} (hf : ∀ s, f (withOther b k s) = withOther b k (f s)) :
    Blind b k fun s => Run.ok () (f s) := fun s => congrArg (Run.ok ()) (hf s)

theorem withOther_invalidate (b : BankId) (k : Bank) (s : State) :
    (withOther b k s).invalidate b = withOther b k (s.invalidate b) := by cases b <;> rfl

theorem withOther_stepCtr (b : BankId) (k : Bank) (s : State) : (withOther b k s).stepCtr b = withOther b k (s.stepCtr b) := by
  cases b <;> rfl

theorem blind_genSchedBody (hex : Bool) (b : BankId) (k : Bank) : Blind b k (genSchedBody hex b) := by
  intro s
  simp only [genSchedBody, withOther_invalidate]
  refine blind_bind (blind_scheduleFromMaterial hex) (fun sched => blind_ok fun t => ?_) _
  rw [withOther_clearMaterial, withOther_bank, withOther_setBank]

theorem blind_nonceDeriveBody (hex : Bool) (b : BankId) (k : Bank) : Blind b k (nonceDeriveBody hex b) := by
  refine blind_bind (blind_scheduleFromMaterial hex) fun sx => blind_ok fun t => ?_
  rw [withOther_clearMaterial, withOther_bank, withOther_setBank]

theorem blind_hdrWriteBody (b : BankId) (k : Bank) : Blind b k (hdrWriteBody b) := by
  refine blind_bind blind_requireKey fun _ t => ?_
  rw [withOther_params, withOther_bank]
  refine blind_bind (blind_snkBytes _) (fun _ u => ?_) t
  rw [withOther_setBlk, withOther_hybEncBlk]
  exact blind_snkBlock _

theorem blind_hdrReadBody (b : BankId) (k : Bank) : Blind b k (hdrReadBody b) := by
  intro s
  simp only [hdrReadBody, withOther_params, withOther_invalidate]
  refine blind_bind (blind_readMagic _) (fun _ => ?_) (s.invalidate b)
  refine blind_bind blind_srcByte fun v => blind_bind (blind_require fun t => by simp) fun _ s3 => ?_
  rw [withOther_readBound]
  refine blind_bind (blind_readCount _ _ _) (fun nq => blind_bind (blind_checkCount _ _) fun _ s5 => ?_) s3
  rw [withOther_bank, withOther_setBank]
  refine blind_bind (blind_srcBytes 16) (fun p => blind_ok fun t => ?_) _
  rw [withOther_bank, withOther_setBank]

theorem blind_pwcVerifyBody (b : BankId) (k : Bank) : Blind b k (pwcVerifyBody b) := by
  refine blind_bind blind_requireKey fun _ => blind_bind (blind_srcBytes 16) fun p u => ?_
  simp only [withOther_setBlk, withOther_hybEncBlk]
  exact blind_require (c := fun v => decide (v.blk = blockOfBytes p)) (fun v => by simp) _

theorem blind_nameEncBody (b : BankId) (k : Bank) : Blind b k (nameEncBody b) := by
  refine blind_bind blind_requireKey fun _ => blind_bind blind_checkMlen fun _ u => ?_
  simp only [State.name, withOther_material]
  exact blind_nameEncLoop _ _ _ u

theorem blind_nameDecBody (b : BankId) (k : Bank) : Blind b k (nameDecBody b) := by
  refine blind_bind blind_requireKey fun _ t => ?_
  rw [withOther_readBound, withOther_clearMaterial]
  exact blind_nameDecLoop _ _ _

theorem blind_encStreamBody (b : BankId) (k : Bank) : Blind b k (encStreamBody b) := by
  refine blind_bind blind_requireKey fun _ t => ?_
  rw [withOther_readBound]
  exact blind_encLoop _ t

theorem blind_decStreamBody (b : BankId) (k : Bank) : Blind b k (decStreamBody b) := by
  refine blind_bind blind_requireKey fun _ t => ?_
  simp only [tryReadBlock_eq, withOther_ports, withOther_setPorts, withOther_readBound]
  exact blind_bind (blind_require (c := fun _ => _) fun _ => rfl) (fun _ => blind_decLoop _ _) _

/-- A command that uses BANK does the same whatever the other bank holds. -/
theorem blind_bodyOf {i : Instr} {b : BankId} (hi : bankUsed i = some b) (k : Bank) : Blind b k (bodyOf i) := by
  cases i with
  | nop | rotl | rotr | mclr | readBlock | trimEmit | reencStream | sreset => cases hi
  | genSched hex d => cases hi; exact blind_genSchedBody hex b k
  | nonceDerive hex d => cases hi; exact blind_nonceDeriveBody hex b k
  | rc6Enc d | rc6Dec d =>
    cases hi
    refine blind_bind blind_requireKey fun _ => blind_ok fun t => ?_
    rw [withOther_bank, withOther_blk, withOther_setBlk]
  | hybEnc d => cases hi; exact blind_bind blind_requireKey fun _ => blind_ok (withOther_hybEncBlk b k)
  | hybDec d => cases hi; exact blind_bind blind_requireKey fun _ => blind_ok (withOther_hybDecBlk b k)
  | ctrInc d => cases hi; exact blind_ok (withOther_stepCtr b k)
  | hdrWrite d => cases hi; exact blind_hdrWriteBody b k
  | hdrRead d => cases hi; exact blind_hdrReadBody b k
  | pwcVerify d => cases hi; exact blind_pwcVerifyBody b k
  | nameEnc d => cases hi; exact blind_nameEncBody b k
  | nameDec d => cases hi; exact blind_nameDecBody b k
  | encStream d => cases hi; exact blind_encStreamBody b k
  | decStream d => cases hi; exact blind_decStreamBody b k

theorem faultEntry_withOther (e : Cause) (c : Word) (b : BankId) (k : Bank) (s : State) :
    faultEntry e c (withOther b k s) = withOther b k.invalidate (faultEntry e c s) := by cases b <;> rfl

theorem withOther_bank_other (b : BankId) (k : Bank) (s : State) : (withOther b k s).bank b.other = k :=
  bank_setBank_same _ _ _

/-- Settles O47: the two runs end alike, and only the fault entry touches the other bank. -/
theorem banksShareNothing : Obligations.BanksShareNothing := by
  intro i b s t u k hi ht hu
  have same : bodyOf i (s.setBank b.other k) = (bodyOf i s).mapState (withOther b k) := blind_bodyOf hi k s
  rcases exec_cases i s with ⟨v, hb, hv⟩ | ⟨e, v, hb, hv⟩
  · rw [hb] at same
    rw [hv] at ht
    rw [exec_of_ok same] at hu
    cases ht; cases hu
    rw [withOther_bank_other]
    exact ⟨rfl, .inl rfl⟩
  · rw [hb] at same
    rw [hv] at ht
    rw [exec_of_raised same, faultEntry_withOther] at hu
    cases ht; cases hu
    rw [withOther_bank_other]
    exact ⟨rfl, .inr ⟨by simp [withOther], rfl⟩⟩

end Sys2Proof.Machine
end

section
/-!
The invariant (R39, R24, R29, R303): the fault entry and every reset give a state that meets it whatever stood before, so only the
end of a body that did not raise, and the host's other accesses, are left to look at.
-/

namespace Sys2Proof.Machine

/-! ### Legal banks -/

theorem legal_invalidate (rMax : Nat) (k : Bank) : k.invalidate.legal rMax := rfl

theorem legal_of_no_schedule {rMax : Nat} {k : Bank} (hv : k.kvalid = false) (hk : k.keys = []) : k.legal rMax := by
  simp [Bank.legal, hv, hk]

theorem legal_of_schedule {rMax : Nat} {k : Bank} {m : List Byte} {hex : Bool} (hv : k.kvalid = true)
    (h1 : 1 ≤ k.rounds.toNat) (h2 : k.rounds.toNat ≤ rMax) (hk : genSched m k.rounds.toNat hex = some k.keys) :
    k.legal rMax := by
  simp only [Bank.legal, hv, if_true]
  exact ⟨h1, h2, m, hex, hk⟩

/-! ### States that meet the invariant -/

theorem faultEntry_inv (e : Cause) (c : Word) (s : State) : (faultEntry e c s).Inv :=
  ⟨legal_invalidate _ _, legal_invalidate _ _, ⟨⟨e, c, rfl⟩, rfl, rfl, rfl, rfl, rfl, rfl⟩, rfl, rfl⟩

theorem resetEngine_inv (s : State) : (resetEngine s).Inv := ⟨rfl, rfl, rfl, rfl, rfl⟩

/-- Settles O59: the reset state is what a reset of it gives. -/
theorem resetMeetsTheInvariant : Obligations.ResetMeetsTheInvariant := resetEngine_inv State.reset

/-- Outside the fault state the invariant is about the banks, `CAUSE` and `MBUF` only. -/
theorem inv_iff_of_not_fault {s : State} (hf : s.fault = false) :
    s.Inv ↔ (∀ b, (s.bank b).legal s.params.rMax) ∧ s.cause = 0 ∧ s.mbufLegal := by
  have banks : (∀ b, (s.bank b).legal s.params.rMax) ↔ s.bank0.legal s.params.rMax ∧ s.bank1.legal s.params.rMax :=
    ⟨fun h => ⟨h .b0, h .b1⟩, fun h b => by cases b; exacts [h.1, h.2]⟩
  rw [banks]
  simp [State.Inv, State.faultLegal, hf, and_assoc]

/-- A change keeps the invariant outside the fault state if it leaves legal whatever it replaces. -/
theorem Changes.inv {c : Touched} {s u : State} (h : Changes c s u) (hs : s.Inv) (hf : s.fault = false)
    (hbank : ∀ b, c.bank b = true → (u.bank b).legal s.params.rMax) (hmat : c.material = true → u.mbufLegal) : u.Inv := by
  obtain ⟨banks, cause, mbuf⟩ := (inv_iff_of_not_fault hf).1 hs
  refine (inv_iff_of_not_fault (h.fault.trans hf)).2 ⟨fun b => ?_, h.cause.trans cause, ?_⟩
  · rw [h.params]
    cases hb : c.bank b with
    | true => exact hbank b hb
    | false => rw [h.ctr b hb]; exact banks b
  · cases hm : c.material with
    | true => exact hmat hm
    | false => rw [State.mbufLegal, (h.material hm).1, h.params]; exact mbuf

theorem mbufLegal_of_empty {s : State} (h : s.mbuf = []) : s.mbufLegal := by
  rw [State.mbufLegal, h]; exact ⟨rfl, rfl⟩

/-! ### Bodies that end without a `raise` -/

theorem bind_eq_ok {α β : Type} {r : Run α} {f : α → State → Run β} {x : β} {u : State} (h : r.bind f = .ok x u) :
    ∃ a t, r = .ok a t ∧ f a t = .ok x u := by
  cases r with
  | ok a t => exact ⟨a, t, rfl, h⟩
  | raised e t => cases h

theorem require_eq_ok {c : Bool} {e : Cause} {s t : State} {a : Unit} (h : require c e s = .ok a t) : c = true ∧ t = s := by
  cases c <;> cases h
  exact ⟨rfl, rfl⟩

/-- After GEN_SCHED the material is gone and the bank holds the schedule of its legal round count. -/
theorem genSchedBody_ok {hex : Bool} {b : BankId} {s t : State} (h : genSchedBody hex b s = .ok () t) :
    t.mbuf = [] ∧ (t.bank b).legal s.params.rMax := by
  unfold genSchedBody at h
  obtain ⟨sched, u, hs, h⟩ := bind_eq_ok h
  have params : (s.invalidate b).params = s.params := setBank_params _ _ _
  rcases scheduleFromMaterial_cases hex b (s.invalidate b) with ⟨_, hm, h1, h2, hg⟩ | ⟨e, hm⟩ <;> rw [hm] at hs <;> cases hs
  cases h
  refine ⟨by simp, ?_⟩
  rw [bank_setBank_same]
  exact legal_of_schedule rfl h1 (params ▸ h2) hg

theorem nonceDeriveBody_ok {hex : Bool} {b : BankId} {s t : State} (h : nonceDeriveBody hex b s = .ok () t) : t.mbuf = [] := by
  unfold nonceDeriveBody at h
  obtain ⟨sx, u, _, h⟩ := bind_eq_ok h
  cases h
  simp

/-- A part of HDR_READ that only reads leaves the bank. -/
theorem bank_of_framed_read {α : Type} (b : BankId) {s t : State} {r : Run α} {a : α}
    (h : Framed { src := true } (faultsOf (.hdrRead b)) s r) (hr : r = .ok a t) : t.bank b = s.bank b := by
  subst hr
  exact h.1.bank b rfl rfl

/-- After HDR_READ the bank has no schedule: it loses it first, and only its round count and counter are written later. -/
theorem hdrReadBody_ok {b : BankId} {s t : State} (h : hdrReadBody b s = .ok () t) :
    (t.bank b).kvalid = false ∧ (t.bank b).keys = [] := by
  unfold hdrReadBody at h
  obtain ⟨_, s1, h1, h⟩ := bind_eq_ok h
  obtain ⟨v, s2, h2, h⟩ := bind_eq_ok h
  obtain ⟨_, s3, h3, h⟩ := bind_eq_ok h
  obtain ⟨nq, s4, h4, h⟩ := bind_eq_ok h
  obtain ⟨_, s5, h5, h⟩ := bind_eq_ok h
  obtain ⟨p, s6, h6, h⟩ := bind_eq_ok h
  cases h
  have e1 := bank_of_framed_read b (framed_readMagic rfl (by simp [faultsOf]) (by simp [faultsOf]) _ _) h1
  have e2 := bank_of_framed_read b (framed_srcByte rfl (by simp [faultsOf]) _) h2
  obtain ⟨_, rfl⟩ := require_eq_ok h3
  have e4 := bank_of_framed_read b (framed_readCount rfl (by simp [faultsOf]) (by simp [faultsOf]) _ _ _ _) h4
  have e5 := bank_of_framed_read b (framed_checkCount (by simp [faultsOf]) (by simp [faultsOf]) _ _ _) h5
  have e6 := bank_of_framed_read b (framed_srcBytes rfl (by simp [faultsOf]) _ _) h6
  rw [bank_setBank_same, e6, bank_setBank_same, e5, e4, e2, e1, State.invalidate, bank_setBank_same]
  exact ⟨rfl, rfl⟩

/-- NAME_DEC's loop writes only blocks that fit. -/
theorem nameDecLoop_ok {b : BankId} {f pos : Nat} {s t : State} (hs : s.mbufLegal) (h : nameDecLoop b f pos s = .ok () t) :
    t.mbufLegal := by
  induction f generalizing pos s with
  | zero => cases h
  | succ f ih =>
    by_cases hfit : pos + 16 ≤ s.params.mMax
    · by_cases hl : 16 ≤ (deliver s.ports.src).length
      · rw [nameDecLoop_step b f pos hfit hl] at h
        generalize (s.bank b).unseal _ = x at h
        have written : Memory.wf (Memory.writeBytes s.mbuf pos (bytesOfBlock x)) = true ∧
            Memory.within s.params.mMax (Memory.writeBytes s.mbuf pos (bytesOfBlock x)) = true :=
          ⟨writeBytes_wf pos _ hs.1, writeBytes_within _ hs.2 (by simpa using hfit)⟩
        split at h
        · cases h
          simpa [State.mbufLegal] using written
        · exact ih (by simpa [State.mbufLegal] using written) h
      · simp [nameDecLoop, hfit, srcBytes_eq, hl] at h
    · simp [nameDecLoop, hfit] at h

theorem nameDecBody_ok {b : BankId} {s t : State} (h : nameDecBody b s = .ok () t) : t.mbufLegal := by
  unfold nameDecBody at h
  obtain ⟨_, u, _, h⟩ := bind_eq_ok h
  exact nameDecLoop_ok (mbufLegal_of_empty rfl) h

/-! ### Every step -/

/-- A body that ends leaves legal every bank of which it writes more than the counter. -/
theorem bodyOf_ok_bank {i : Instr} {s t : State} (h : bodyOf i s = .ok () t) {b : BankId} (hb : (touchedBy i).bank b = true) :
    (t.bank b).legal s.params.rMax := by
  cases i with
  | genSched hex d =>
    obtain rfl : b = d := by simpa [touchedBy, only] using hb
    exact (genSchedBody_ok h).2
  | hdrRead d =>
    obtain rfl : b = d := by simpa [touchedBy, only] using hb
    obtain ⟨hv, hk⟩ := hdrReadBody_ok h
    exact legal_of_no_schedule hv hk
  | _ => simp [touchedBy] at hb

/-- A body that ends leaves the material buffer legal if it writes it. -/
theorem bodyOf_ok_material {i : Instr} {s t : State} (h : bodyOf i s = .ok () t) (hm : (touchedBy i).material = true) :
    t.mbufLegal := by
  cases i with
  | mclr => cases h; exact mbufLegal_of_empty rfl
  | genSched hex b => exact mbufLegal_of_empty (genSchedBody_ok h).1
  | nonceDerive hex b => exact mbufLegal_of_empty (nonceDeriveBody_ok h)
  | nameDec b => exact nameDecBody_ok h
  | _ => simp [touchedBy] at hm

/-- A command performed outside the fault state keeps the invariant. -/
theorem exec_inv {i : Instr} {s t : State} (hs : s.Inv) (hf : s.fault = false) (ht : exec i s = .next t) : t.Inv := by
  rcases exec_cases i s with ⟨u, hb, hu⟩ | ⟨e, u, _, hu⟩ <;> rw [hu] at ht <;> cases ht
  · by_cases hi : i = .sreset
    · subst hi; cases hb; exact resetEngine_inv s
    · have changes := (framed_bodyOf hi s).1
      rw [hb] at changes
      exact changes.inv hs hf (fun b => bodyOf_ok_bank hb) (bodyOf_ok_material hb)
  · exact faultEntry_inv _ _ _

theorem execute_sresetWord (s : State) : execute sresetWord s = .next (resetEngine s) := by
  have h : decode sresetWord = .ok .sreset := by decide
  simp [execute, h, exec, execSreset]

theorem execute_inv {c : Word} {s t : State} (hs : s.Inv) (ht : execute c s = .next t) : t.Inv := by
  by_cases hc : c = sresetWord
  · subst hc
    rw [execute_sresetWord] at ht
    cases ht
    exact resetEngine_inv s
  · unfold execute at ht
    cases hf : s.fault with
    | true =>
      rw [if_pos ⟨hf, hc⟩] at ht
      cases ht
      exact hs
    | false =>
      rw [if_neg (by simp [hf])] at ht
      split at ht
      · exact exec_inv hs hf ht
      · cases ht
        exact faultEntry_inv _ _ _

/-- Only offsets inside the window's material buffer name one of its words (R62, R64). -/
theorem regAt_eq_mbuf {mMax off n : Nat} (h : regAt mMax off = some (.mbuf n)) : 4 * n + 4 ≤ mMax := by
  unfold regAt at h
  split at h <;> try cases h
  split at h <;> cases h
  omega

/-- A register write keeps the invariant: one to `ROUNDSb` ends the bank's session (R67), one to `MBUF_n` stays inside `M_MAX`. -/
theorem regWrite_inv {r : Reg} {v : Word} {s : State} (hs : s.Inv) (hf : s.fault = false) (hr : r.present s.params.mMax) :
    (regWrite r v s).Inv := by
  cases r with
  | cmd | status | cause => exact hs
  | rounds b =>
    exact (changes_bank (c := { bank := only b }) (only_self b) s _).inv hs hf
      (fun d hd => by
        obtain rfl : d = b := by simpa [only] using hd
        rw [bank_setBank_same]; exact legal_of_no_schedule rfl rfl) nofun
  | mlen =>
    have ⟨_, _, _, mbuf⟩ := hs
    exact (changes_material (c := { material := true }) rfl s s.mbuf v).inv hs hf nofun fun _ => mbuf
  | ctr b k => exact (changes_ctr (c := { ctr := only b }) (only_self b) s _).inv hs hf nofun nofun
  | blk k => exact (changes_blk (c := { blk := true }) rfl s _).inv hs hf nofun nofun
  | mbuf n =>
    have ⟨_, _, _, wf, within⟩ := hs
    exact (changes_material (c := { material := true }) rfl s _ s.mlen).inv hs hf nofun fun _ =>
      ⟨writeBytes_wf _ _ wf, writeBytes_within _ within (hr n rfl)⟩

theorem hostWrite_inv {off n : Nat} {v : Word} {s t : State} (hs : s.Inv) (ht : hostWrite off n v s = .next t) : t.Inv := by
  unfold hostWrite at ht
  split at ht
  · cases ht
  · split at ht
    · cases ht
    · exact execute_inv hs ht
    · next r _ hr =>
      cases hf : s.fault with
      | true => rw [hf] at ht; cases ht; exact hs
      | false =>
        rw [hf] at ht
        cases ht
        exact regWrite_inv hs hf fun k hk => regAt_eq_mbuf (hk ▸ hr)

theorem hostRead_inv {off n : Nat} {s t : State} (hs : s.Inv) (ht : hostRead off n s = .next t) : t.Inv := by
  unfold hostRead at ht
  split at ht
  · cases ht
  · split at ht <;> cases ht
    exact hs

/-- A reset in the middle of a command keeps the invariant: only the ports tell it from a reset between two (R341). -/
theorem abandon_inv {c : Word} {k : Nat} {s t : State} (ht : abandon c k s = .next t) : t.Inv := by
  unfold abandon at ht
  split at ht <;> cases ht
  exact resetEngine_inv s

theorem hostEvent_inv {e : HostEvent} {s t : State} (hs : s.Inv) (ht : hostEvent e s = .next t) : t.Inv := by
  cases e with
  | read off n => exact hostRead_inv hs ht
  | write off n v => exact hostWrite_inv hs ht
  | reset => cases ht; exact resetEngine_inv s
  | resetDuring c k => exact abandon_inv ht
  | bindSource answers | bindSink answers => cases ht; exact hs

/-- Settles O60: a step is one host event, and each keeps the invariant. -/
theorem everyStepKeepsTheInvariant : Obligations.EveryStepKeepsTheInvariant := by
  intro s t hs ht
  unfold step hostStep at ht
  split at ht
  · cases ht
    exact hs
  · next e rest _ => exact hostEvent_inv (s := { s with host := rest }) hs ht

end Sys2Proof.Machine
end

section
/-!
DEC_STREAM's look-ahead (R37): its traffic is followed block by block, with the bytes read and written so far as counts.
-/

namespace Sys2Proof.Machine

/-! ### Event lists -/

/-- After `r` bytes read and `w` bytes written, this traffic writes byte `n` of the plaintext only behind a `FAIL` of the source
or once `16 * (n / 16 + 2)` bytes have been read. -/
def LooksAhead (r w : Nat) (evs : List PortEvent) : Prop :=
  ∀ pre v post, evs = pre ++ .write v :: post →
    .readFail ∈ pre ∨ 16 * ((w + bytesWritten pre) / 16 + 2) ≤ r + bytesRead pre

@[simp] theorem bytesRead_append (a b : List PortEvent) : bytesRead (a ++ b) = bytesRead a + bytesRead b := List.countP_append

@[simp] theorem bytesWritten_append (a b : List PortEvent) : bytesWritten (a ++ b) = bytesWritten a + bytesWritten b :=
  List.countP_append

@[simp] theorem bytesWritten_cons_write (v : Byte) (evs : List PortEvent) :
    bytesWritten (.write v :: evs) = bytesWritten evs + 1 := by simp [bytesWritten]

theorem bytesWritten_eq_zero {evs : List PortEvent} (h : ∀ v, .write v ∉ evs) : bytesWritten evs = 0 := by
  refine List.countP_eq_zero.2 fun e he => ?_
  cases e with
  | write v => exact absurd he (h v)
  | _ => simp

theorem looksAhead_of_no_write {r w : Nat} {evs : List PortEvent} (h : ∀ v, .write v ∉ evs) : LooksAhead r w evs := by
  rintro pre v post rfl
  exact absurd (by simp) (h v)

theorem looksAhead_append {r w : Nat} {a b : List PortEvent} (ha : LooksAhead r w a)
    (hb : .readFail ∈ a ∨ LooksAhead (r + bytesRead a) (w + bytesWritten a) b) : LooksAhead r w (a ++ b) := by
  intro pre v post e
  have inB : ∀ c, pre = a ++ c → b = c ++ .write v :: post →
      .readFail ∈ pre ∨ 16 * ((w + bytesWritten pre) / 16 + 2) ≤ r + bytesRead pre := by
    rintro c rfl hc
    rcases hb with hb | hb
    · exact .inl (by simp [hb])
    · rcases hb c v post hc with h | h
      · exact .inl (by simp [h])
      · exact .inr (by simpa [Nat.add_assoc] using h)
  rcases List.append_eq_append_iff.1 e with ⟨c, hpre, hc⟩ | ⟨c, ha', hc⟩
  · exact inB c hpre hc
  · cases c with
    | nil => exact inB [] (by simpa using ha'.symm) (by simpa using hc.symm)
    | cons x c =>
      obtain ⟨rfl, rfl⟩ : PortEvent.write v = x ∧ post = c ++ b := by simpa using hc
      exact ha pre v c ha'

/-- At most 16 bytes written on a block boundary belong to one block. -/
theorem looksAhead_of_block {n : Nat} {evs : List PortEvent} (h : bytesWritten evs ≤ 16) :
    LooksAhead (16 * (n + 2)) (16 * n) evs := by
  rintro pre v post rfl
  simp only [bytesWritten_append, bytesWritten_cons_write] at h
  exact .inr (by omega)

/-! ### The loop of R255 -/

/-- A part that does some traffic which looks ahead, after `r` bytes read and `w` bytes written. -/
def RunsAhead {α : Type} (r w : Nat) (s : State) (x : Run α) : Prop :=
  ∃ evs : List PortEvent, x.last.ports = evs.foldl Ports.happen s.ports ∧ LooksAhead r w evs

theorem runsAhead_of_same_ports {α : Type} {r w : Nat} {s : State} {x : Run α} (h : x.last.ports = s.ports) :
    RunsAhead r w s x := ⟨[], h, looksAhead_of_no_write (by simp)⟩

/-- A read of up to a block, then a part that either stands behind the `FAIL` or looks ahead with 16 bytes more. -/
theorem runsAhead_tryReadBlock {α : Type} {r w : Nat} {s : State} {x : Run α}
    (full : 16 ≤ (deliver s.ports.src).length → RunsAhead (r + 16) w (s.setPorts (s.ports.afterRead 16)) x)
    (short : (deliver s.ports.src).length < 16 → ∃ evs : List PortEvent,
      x.last.ports = evs.foldl Ports.happen (s.ports.afterRead 16)) : RunsAhead r w s x := by
  obtain ⟨evs, h1, _, _, noWrite, _, fails, count⟩ := afterRead_events s.ports 16
  have ahead : LooksAhead r w evs := looksAhead_of_no_write noWrite
  by_cases h : 16 ≤ (deliver s.ports.src).length
  · obtain ⟨more, k1, k2⟩ := full h
    rw [Nat.min_eq_left h] at count
    refine ⟨evs ++ more, by rw [List.foldl_append, ← h1]; exact k1, looksAhead_append ahead (.inr ?_)⟩
    rwa [count, bytesWritten_eq_zero noWrite]
  · obtain ⟨more, k1⟩ := short (by omega)
    exact ⟨evs ++ more, by rw [List.foldl_append, ← h1]; exact k1, looksAhead_append ahead (.inl (fails (by omega)))⟩

/-- Writing block `n` when `n + 2` blocks are read, and then going on from the next block. -/
theorem runsAhead_snkBlock {n : Nat} {s : State} {f : Unit → State → Run Unit}
    (hf : ∀ t, RunsAhead (16 * (n + 2)) (16 * (n + 1)) t (f () t)) :
    RunsAhead (16 * (n + 2)) (16 * n) s ((snkBlock s).bind f) := by
  obtain ⟨evs, h1, noRead, atMost, all⟩ := snkBytes_counts (bytesOfBlock s.blk) s
  have ahead : LooksAhead (16 * (n + 2)) (16 * n) evs := looksAhead_of_block (by simpa using atMost)
  unfold snkBlock
  cases hr : snkBytes (bytesOfBlock s.blk) s with
  | raised e t => rw [hr] at h1; exact ⟨evs, h1, ahead⟩
  | ok a t =>
    rw [hr] at h1 all
    have written : bytesWritten evs = 16 := by simpa using all trivial
    obtain ⟨more, k1, k2⟩ := hf t
    refine ⟨evs ++ more, by rw [List.foldl_append, ← h1]; exact k1, looksAhead_append ahead (.inr ?_)⟩
    rwa [noRead, written]

/-- With `n` blocks written and one more read, the loop reads the next block before it writes that one. -/
theorem runsAhead_decLoop (b : BankId) (f n : Nat) (cur : List Byte) (s : State) :
    RunsAhead (16 * (n + 1)) (16 * n) s (decLoop b f cur s) := by
  induction f generalizing n cur s with
  | zero => exact runsAhead_of_same_ports rfl
  | succ f ih =>
    have ports : (hybDecBlk b ((s.setPorts (s.ports.afterRead 16)).setBlk (blockOfBytes cur))).ports = s.ports.afterRead 16 :=
      hybDecBlk_ports _ _
    refine runsAhead_tryReadBlock (fun h => ?_) fun h => ?_
    · have hn : ((deliver s.ports.src).take 16).length = 16 := by simp; omega
      simp only [decLoop, tryReadBlock_eq, hn, if_true]
      obtain ⟨evs, h1, h2⟩ := runsAhead_snkBlock (n := n) (f := fun _ => decLoop b f _)
        (s := hybDecBlk b ((s.setPorts (s.ports.afterRead 16)).setBlk (blockOfBytes cur))) (ih (n + 1) _)
      rw [ports] at h1
      exact ⟨evs, h1, h2⟩
    · have hn : ¬ ((deliver s.ports.src).take 16).length = 16 := by simp; omega
      simp only [decLoop, tryReadBlock_eq, hn, if_false]
      obtain ⟨evs, h1, _⟩ := emitTrimmed_events
        (hybDecBlk b ((s.setPorts (s.ports.afterRead 16)).setBlk (blockOfBytes cur)))
      rw [ports] at h1
      exact ⟨evs, h1⟩

theorem runsAhead_decStreamBody (b : BankId) (s : State) : RunsAhead 0 0 s (decStreamBody b s) := by
  unfold decStreamBody
  cases hk : (s.bank b).kvalid with
  | false => rw [requireKey_of_not_kvalid hk]; exact runsAhead_of_same_ports rfl
  | true =>
    rw [requireKey_of_kvalid hk]
    simp only [bind_ok, tryReadBlock_eq]
    refine runsAhead_tryReadBlock (fun h => ?_) fun h => ?_
    · have hn : ((deliver s.ports.src).take 16).length = 16 := by simp; omega
      simp only [hn, decide_true, require_true, bind_ok]
      exact runsAhead_decLoop b _ 0 _ _
    · have hn : ¬ ((deliver s.ports.src).take 16).length = 16 := by simp; omega
      simp only [hn, decide_false, require_false, bind_raised]
      exact ⟨[], rfl⟩

/-- Settles O41: the command's traffic is its body's, which reads block `N + 1` before it writes block `N`. -/
theorem decStreamWritesOnlyAfterLookahead : Obligations.DecStreamWritesOnlyAfterLookahead := by
  intro b s t pre post v ht htrace
  obtain ⟨evs, hports, ahead⟩ := runsAhead_decStreamBody b s
  have traffic : evs = pre ++ .write v :: post := by
    rw [exec_ports ht] at htrace
    change (decStreamBody b s).last.ports.trace = _ at htrace
    rw [hports, trace_foldl, List.append_assoc] at htrace
    exact List.append_cancel_left htrace
  simpa using ahead pre v post traffic

end Sys2Proof.Machine
end

section
/-!
The step of a command write (R107), what a register read can depend on (R24), and the values after reset (R38).
-/

namespace Sys2Proof.Machine

/-- Offset 0 of the window is `CMD` (R35). -/
theorem hostWrite_cmd (c : Word) (s : State) : hostWrite 0x000 4 c s = execute c s := rfl

/-- Outside the fault state, or by SRESET's word, a word that names a command performs it (R107). -/
theorem execute_of_decode {c : Word} {i : Instr} {s : State} (hd : decode c = .ok i) (hf : s.fault = false ∨ c = sresetWord) :
    execute c s = exec i s := by
  have performed : ¬ (s.fault = true ∧ c ≠ sresetWord) := by
    rintro ⟨h, hc⟩
    rcases hf with hf | hf
    · rw [hf] at h; cases h
    · exact hc hf
  simp only [execute, if_neg performed, hd]

/-- Settles O5: the event is a write to `CMD`, and the check of the fault state lets it through. -/
theorem stepRunsTheDecodedCommand : Obligations.StepRunsTheDecodedCommand := by
  intro s rest c i hhost hd hf
  have event : step s = hostWrite 0x000 4 c { s with host := rest } := by
    simp only [step, hostStep, hhost, hostEvent]
  rw [event, hostWrite_cmd]
  exact execute_of_decode hd hf

/-- Settles O55: every register shows another piece of the state; of a bank, its round count, a counter word or its validity. -/
theorem noReadReturnsRoundKeys : Obligations.NoReadReturnsRoundKeys := by
  intro s b keys r
  cases r with
  | rounds d | ctr d k => cases b <;> cases d <;> rfl
  | cmd | status | cause | mlen | blk k | mbuf n => cases b <;> rfl

/-! ### Reset (R38) -/

theorem magicByte_toNat (k : Fin 7) : (Config.magicByte k).toNat = (Config.magicLessOne k).val + 1 := by
  have := (Config.magicLessOne k).isLt
  simp only [Config.magicByte, BitVec.toNat_ofNat]
  omega

theorem magicByte_inRange (k : Fin 7) :
    (decide (0x01 ≤ (Config.magicByte k).toNat) && decide ((Config.magicByte k).toNat ≤ 0x7F)) = true := by
  have := (Config.magicLessOne k).isLt
  simp only [magicByte_toNat, Bool.and_eq_true, decide_eq_true_eq]
  omega

/-- The implementation's parameters meet R7's constraints, whatever its opaque constants are (log entry 3). -/
theorem config_wellFormed : Params.wellFormed Config.params = true := by
  have rMax : Params.rMaxOk Config.params = true := by simp [Params.rMaxOk, Config.params]
  have mMax : Params.mMaxOk Config.params = true := by simp [Params.mMaxOk, Config.params]
  have base : Params.baseOk Config.params = true := by simp [Params.baseOk, Config.params]
  have magic : Params.magicOk Config.params = true := by
    have h := magicByte_inRange
    simp only [Params.magicOk, Config.params, Bool.and_eq_true]
    refine ⟨rfl, ?_⟩
    show List.all [Config.magicByte 0, Config.magicByte 1, Config.magicByte 2, Config.magicByte 3, Config.magicByte 4,
      Config.magicByte 5, Config.magicByte 6] _ = true
    simp only [List.all_cons, List.all_nil, h, Bool.and_self]
  simp only [Params.wellFormed, rMax, mMax, magic, base, Bool.and_self]

/-- Settles O56: every field is read off, and the parameters are the implementation's. -/
theorem stateAfterReset : Obligations.StateAfterReset := by
  have bank : ∀ b, State.reset.bank b = Bank.reset := resetEngine_bank State.reset
  refine ⟨fun b => ?_, rfl, fun _ => rfl, rfl, rfl, rfl, rfl, fun b => ?_, config_wellFormed⟩
  · rw [bank]; exact ⟨rfl, rfl, rfl⟩
  · rw [bank]; rfl

end Sys2Proof.Machine
end

section
/-!
The port traffic of whole commands (R69, R70): each body's traffic is that of its parts, and the fault entry adds none.
-/

namespace Sys2Proof.Machine

/-- A part that ends well and leaves the ports alone. -/
theorem traffic_ok {α : Type} {a : α} {s t : State} (h : t.ports = s.ports) : Traffic s (Run.ok a t) :=
  (steady_same (r := .ok a t) h).traffic

/-- READ_BLOCK and the head of ENC_STREAM's loop read up to 16 bytes (R250, R251). -/
theorem loadBlock_ports (s : State) : (loadBlock s).ports = s.ports.afterRead 16 := by
  simp only [loadBlock, tryReadBlock_eq]
  split <;> rfl

theorem steady_scheduleFromMaterial (hex : Bool) (b : BankId) (s : State) : Steady s (scheduleFromMaterial hex b s) := by
  apply steady_same
  rcases scheduleFromMaterial_cases hex b s with ⟨sched, h, _⟩ | ⟨e, h⟩ <;> rw [h] <;> rfl

theorem traffic_hdrWriteBody (b : BankId) (s : State) : Traffic s (hdrWriteBody b s) :=
  traffic_bind (steady_require _ _) fun _ t _ => traffic_bind (steady_snkBytes _ t) fun _ u _ =>
    (steady_after (t := hybEncBlk b (u.setBlk Block.zero)) (hybEncBlk_ports b _) (steady_snkBlock _)).traffic

theorem traffic_hdrReadBody (b : BankId) (s : State) : Traffic s (hdrReadBody b s) := by
  refine traffic_bind (steady_after (setBank_ports _ _ _) (steady_readMagic _ _)) fun _ s1 _ => ?_
  refine traffic_bind (steady_srcByte s1) fun v s2 _ => traffic_bind (steady_require _ _) fun _ s3 _ => ?_
  refine traffic_bind (steady_readCount _ _ _ s3) fun nq s4 _ => traffic_bind (steady_checkCount _ _ s4) fun _ s5 _ => ?_
  refine traffic_bind (steady_after (setBank_ports _ _ _) (steady_srcBytes 16 _)) fun p s6 _ => ?_
  exact traffic_ok (setBank_ports _ _ _)

theorem traffic_pwcVerifyBody (b : BankId) (s : State) : Traffic s (pwcVerifyBody b s) :=
  traffic_bind (steady_require _ _) fun _ t _ => traffic_bind (steady_srcBytes 16 t) fun _ u _ =>
    (steady_after (t := hybEncBlk b (u.setBlk Block.zero)) (hybEncBlk_ports b _) (steady_require _ _)).traffic

/-- DEC_STREAM's first block is read like the others, but a short one ends the command at once. -/
theorem traffic_decStreamBody (b : BankId) (s : State) : Traffic s (decStreamBody b s) := by
  refine traffic_bind (steady_require _ _) fun _ t _ => ?_
  simp only [tryReadBlock_eq]
  refine traffic_tryReadBlock (fun h => ?_) fun h => ?_
  · exact traffic_bind (steady_require _ _) fun _ u _ => traffic_decLoop b _ _ u
  · have short : ¬ ((deliver t.ports.src).take 16).length = 16 := by simp; omega
    simp only [short, decide_false, require_false, bind_raised]
    exact ⟨[], rfl, by simp [WritesOnly], sinkFail_of_unfailed (by simp)⟩

theorem traffic_bodyOf (i : Instr) (s : State) : Traffic s (bodyOf i s) := by
  cases i with
  | nop | rotl | rotr | mclr | sreset => exact traffic_ok rfl
  | ctrInc b => exact traffic_ok (setBank_ports _ _ _)
  | rc6Enc b | rc6Dec b => exact traffic_bind (steady_require _ _) fun _ t _ => traffic_ok rfl
  | hybEnc b => exact traffic_bind (steady_require _ _) fun _ t _ => traffic_ok (hybEncBlk_ports b t)
  | hybDec b => exact traffic_bind (steady_require _ _) fun _ t _ => traffic_ok (hybDecBlk_ports b t)
  | genSched hex b =>
    exact traffic_bind (steady_after (setBank_ports _ _ _) (steady_scheduleFromMaterial hex b _)) fun _ t _ =>
      traffic_ok (setBank_ports _ _ _)
  | nonceDerive hex b =>
    exact traffic_bind (steady_scheduleFromMaterial hex b s) fun _ t _ => traffic_ok (setBank_ports _ _ _)
  | hdrWrite b => exact traffic_hdrWriteBody b s
  | hdrRead b => exact traffic_hdrReadBody b s
  | pwcVerify b => exact traffic_pwcVerifyBody b s
  | nameEnc b =>
    exact traffic_bind (steady_require _ _) fun _ t _ => traffic_bind (steady_require _ _) fun _ u _ =>
      (steady_nameEncLoop b _ _ _ u).traffic
  | nameDec b =>
    exact traffic_bind (steady_require _ _) fun _ t _ => traffic_after (clearMaterial_ports t) (traffic_nameDecLoop b _ _ _)
  | readBlock =>
    obtain ⟨evs, ports, quiet, noWriteFail, _⟩ := afterRead_events s.ports 16
    exact ⟨evs, (loadBlock_ports s).trans ports, quiet, sinkFail_of_unfailed noWriteFail⟩
  | trimEmit => exact traffic_emitTrimmed s
  | encStream b => exact traffic_bind (steady_require _ _) fun _ t _ => traffic_encLoop b _ t
  | decStream b => exact traffic_decStreamBody b s
  | reencStream =>
    exact traffic_bind (steady_require _ _) fun _ t _ => traffic_bind (steady_require _ _) fun _ u _ => traffic_reencLoop _ u

/-- What a command adds to the record of traffic; a `FAIL` of the sink puts it into the fault state of `E_IO_WRITE` (R303). -/
theorem exec_traffic {i : Instr} {s t : State} (h : exec i s = .next t) :
    ∃ evs, t.ports.trace = s.ports.trace ++ evs ∧ QuietAfterFail evs ∧
      EndsAtSinkFail evs (t.fault = true ∧ t.cause = causeWord .ioWrite (encode i)) := by
  obtain ⟨evs, ports, quiet, ends⟩ := traffic_bodyOf i s
  refine ⟨evs, by rw [exec_ports h, ports, trace_foldl], quiet, fun pre v post he => ?_⟩
  obtain ⟨last, failed⟩ := ends pre v post he
  refine ⟨last, ?_⟩
  rcases exec_cases i s with ⟨u, hb, _⟩ | ⟨e, u, hb, hu⟩
  · rw [hb] at failed
    exact failed.elim
  · rw [hb] at failed
    obtain rfl : e = .ioWrite := failed
    rw [hu] at h
    cases h
    exact ⟨rfl, rfl⟩

/-- Settles O42: no part of a body reads after a `FAIL` of the source, nor does a part that follows it. -/
theorem noCommandReadsAfterFail : Obligations.NoCommandReadsAfterFail := by
  intro i s t pre post h htrace
  obtain ⟨evs, trace, quiet, _⟩ := exec_traffic h
  rw [trace, List.append_assoc] at htrace
  exact quiet pre post (List.append_cancel_left htrace)

/-- Settles O43: the part that met the `FAIL` raised `E_IO_WRITE` there, and nothing follows a `raise`. -/
theorem sinkFailureEndsTheCommand : Obligations.SinkFailureEndsTheCommand := by
  intro i s t pre post v h htrace
  obtain ⟨evs, trace, _, ends⟩ := exec_traffic h
  rw [trace, List.append_assoc] at htrace
  exact ends pre v post (List.append_cancel_left htrace)

end Sys2Proof.Machine
end

section
/-!
The host's accesses through the register window (R60 to R68, R78): at an offset that names a register they are that register's
read and write, at any other they are refused; and what each register reads after a write of it or of another.
-/

namespace Sys2Proof.Machine

/-! ### Accesses by offset -/

section
variable {off : Nat} {r : Reg} {s : State}

theorem hostRead_of_regAt (ha : off % 4 = 0) (hr : regAt s.params.mMax off = some r) :
    hostRead off 4 s = .next { s with rdata := some (regRead r s) } := by
  simp [hostRead, ha, hr]

theorem hostWrite_of_regAt_cmd (v : Word) (ha : off % 4 = 0) (hr : regAt s.params.mMax off = some .cmd) :
    hostWrite off 4 v s = execute v s := by
  simp [hostWrite, ha, hr]

theorem hostWrite_of_regAt (v : Word) (ha : off % 4 = 0) (hr : regAt s.params.mMax off = some r) (hc : r ≠ .cmd) :
    hostWrite off 4 v s = if s.fault then .next s else .next (regWrite r v s) := by
  cases r <;> simp [hostWrite, ha, hr] at hc ⊢

theorem hostRead_of_not_aligned {n : Nat} (h : n ≠ 4 ∨ off % 4 ≠ 0) : hostRead off n s = .refused .notAligned32 := if_pos h

theorem hostWrite_of_not_aligned {n : Nat} {v : Word} (h : n ≠ 4 ∨ off % 4 ≠ 0) :
    hostWrite off n v s = .refused .notAligned32 := if_pos h

theorem hostRead_of_regAt_none (ha : off % 4 = 0) (hr : regAt s.params.mMax off = none) :
    hostRead off 4 s = .refused .reservedOffset := by
  simp [hostRead, ha, hr]

theorem hostWrite_of_regAt_none (v : Word) (ha : off % 4 = 0) (hr : regAt s.params.mMax off = none) :
    hostWrite off 4 v s = .refused .reservedOffset := by
  simp [hostWrite, ha, hr]

end

/-! ### Which accesses are admitted (R63, R64) -/

/-- The aligned offsets without a register (R64). -/
theorem regAt_eq_none_iff {mMax off : Nat} (hm : mMax % 4 = 0) (ha : off % 4 = 0) :
    regAt mMax off = none ↔ off = 0x00C ∨ off = 0x01C ∨ (0x050 ≤ off ∧ off ≤ 0x3FC) ∨ 0x400 + mMax ≤ off := by
  unfold regAt
  split
  case h_19 =>
    -- `split` states that the offset is none of R35's as implications
    simp only [imp_false] at *
    split
    · exact iff_of_false nofun (by omega)
    · exact iff_of_true rfl (by omega)
  all_goals exact iff_of_false nofun (by omega)

/-- `Execute(c)` always ends (R107): every command answers a next state, and so does the fault entry of an illegal word. -/
theorem execute_next (c : Word) (s : State) : ∃ t, execute c s = .next t := by
  unfold execute
  split
  · exact ⟨s, rfl⟩
  · split
    · next i _ =>
      rcases exec_cases i s with ⟨t, _, ht⟩ | ⟨e, t, _, ht⟩
      · exact ⟨t, ht⟩
      · exact ⟨_, ht⟩
    · exact ⟨_, rfl⟩

theorem hostWrite_next {off : Nat} {r : Reg} {s : State} (v : Word) (ha : off % 4 = 0)
    (hr : regAt s.params.mMax off = some r) : ∃ t, hostWrite off 4 v s = .next t := by
  by_cases hc : r = .cmd
  · rw [hostWrite_of_regAt_cmd v ha (hc ▸ hr)]
    exact execute_next v s
  · rw [hostWrite_of_regAt v ha hr hc]
    split
    · exact ⟨_, rfl⟩
    · exact ⟨_, rfl⟩

/-- Settles O52: an access gets a step exactly when it is aligned, 32 bits wide and its offset names a register. -/
theorem onlyAlignedRegisterAccessesAreAdmitted : Obligations.OnlyAlignedRegisterAccessesAreAdmitted := by
  intro s off n v
  refine ⟨⟨?_, ?_⟩, fun h => ⟨hostRead_of_not_aligned h, hostWrite_of_not_aligned h⟩, ?_⟩
  · simp [memRead]
  · simp [memWrite]
  · rintro rfl ha hm
    rw [← regAt_eq_none_iff hm ha]
    refine ⟨fun h => ⟨hostRead_of_regAt_none ha h, hostWrite_of_regAt_none v ha h⟩, fun h => ?_⟩
    obtain ⟨r, hr⟩ := Option.ne_none_iff_exists'.1 h
    exact ⟨⟨_, hostRead_of_regAt ha hr⟩, hostWrite_next v ha hr⟩

/-! ### The fault state (R68) -/

/-- Settles O48: a write to `CMD` meets `execute`'s own check of the fault state, any other the window's. -/
theorem faultStateIgnoresWrites : Obligations.FaultStateIgnoresWrites := by
  intro s hf off r ha hr
  refine ⟨hostRead_of_regAt ha hr, fun v hv => ?_⟩
  by_cases hc : r = .cmd
  · have ignored : v ≠ sresetWord := fun h => hv ⟨hc, h⟩
    rw [hostWrite_of_regAt_cmd v ha (hc ▸ hr), execute, if_pos ⟨hf, ignored⟩]
  · rw [hostWrite_of_regAt v ha hr hc, if_pos hf]

/-! ### Accesses at a register's own offset (R35) -/

section
variable {r : Reg} {s : State}

theorem hostRead_offset (hr : r.present s.params.mMax) :
    hostRead r.offset 4 s = .next { s with rdata := some (regRead r s) } := by
  obtain ⟨at_offset, aligned⟩ := regAt_offset hr
  exact hostRead_of_regAt aligned at_offset

theorem hostWrite_offset (v : Word) (hr : r.present s.params.mMax) (hf : s.fault = false) (hc : r ≠ .cmd) :
    hostWrite r.offset 4 v s = .next (regWrite r v s) := by
  obtain ⟨at_offset, aligned⟩ := regAt_offset hr
  rw [hostWrite_of_regAt v aligned at_offset hc, hf]
  rfl

/-- A read after a write, both at their registers' offsets. -/
theorem hostRead_offset_regWrite {q : Reg} (v : Word) (hq : q.present s.params.mMax) :
    hostRead q.offset 4 (regWrite r v s) =
      .next { regWrite r v s with rdata := some (regRead q (regWrite r v s)) } :=
  hostRead_offset (by rwa [regWrite_params])

end

/-! ### A register read after a register write (R65 to R67) -/

@[simp] theorem getWord_setWord_same (x : Block) (k : Fin 4) (v : Word) : getWord (setWord x k v) k = v := by
  match k with
  | 0 | 1 | 2 | 3 => rfl

theorem getWord_setWord_of_ne (x : Block) {k j : Fin 4} (v : Word) (h : j ≠ k) :
    getWord (setWord x k v) j = getWord x j := by
  match k, j with
  | 0, 0 | 1, 1 | 2, 2 | 3, 3 => exact absurd rfl h
  | 0, 1 | 0, 2 | 0, 3 | 1, 0 | 1, 2 | 1, 3 | 2, 0 | 2, 1 | 2, 3 | 3, 0 | 3, 1 | 3, 2 => rfl

theorem bank_setBank_of_ne (s : State) {b d : BankId} (k : Bank) (h : d ≠ b) : (s.setBank b k).bank d = s.bank d := by
  match b, d with
  | .b0, .b0 | .b1, .b1 => exact absurd rfl h
  | .b0, .b1 | .b1, .b0 => rfl

/-- A register that can be written reads back what was written (R65). -/
theorem regRead_regWrite_same {r : Reg} {s : State} (v : Word) (hc : r ≠ .cmd) (hs : r ≠ .status) (hu : r ≠ .cause)
    (wf : Memory.wf s.mbuf = true) : regRead r (regWrite r v s) = v := by
  cases r with
  | cmd => exact absurd rfl hc
  | status => exact absurd rfl hs
  | cause => exact absurd rfl hu
  | mlen => rfl
  | rounds b => simp [regRead, regWrite]
  | ctr b k => simp [regRead, regWrite]
  | blk k => simp [regRead, regWrite]
  | mbuf n => simp [regRead, regWrite, read_writeWord _ _ _ wf]

/-- A write to one word of `MBUF` leaves the others (R62). -/
theorem regRead_mbuf_regWrite_mbuf {n m : Nat} {s : State} (v : Word) (h : m ≠ n) (wf : Memory.wf s.mbuf = true) :
    regRead (.mbuf m) (regWrite (.mbuf n) v s) = regRead (.mbuf m) s := by
  have byte : ∀ j < 4, Memory.read (Memory.writeBytes s.mbuf (4 * n) (bytesOfWord v)) (4 * m + j) =
      Memory.read s.mbuf (4 * m + j) := by
    intro j hj
    rw [read_writeWord _ _ _ wf, if_neg (by omega)]
  have byte0 := byte 0 (by omega)
  rw [Nat.add_zero] at byte0
  simp only [regRead, regWrite, byte0, byte 1 (by omega), byte 2 (by omega), byte 3 (by omega)]

/-- A write to one register changes what no other reads as, but for STATUS after a write of `ROUNDSb` (R66, R67). -/
theorem regRead_regWrite_of_ne {r q : Reg} {s : State} (v : Word) (h : q ≠ r) (hs : q = .status → ∀ b, r ≠ .rounds b)
    (wf : Memory.wf s.mbuf = true) : regRead q (regWrite r v s) = regRead q s := by
  cases r with
  | cmd | status | cause => rfl
  | mlen =>
    cases q with
    | mlen => exact absurd rfl h
    | rounds d | ctr d j => cases d <;> rfl
    | _ => rfl
  | blk k =>
    cases q with
    | blk j => exact getWord_setWord_of_ne _ _ fun e => h (e ▸ rfl)
    | rounds d | ctr d j => cases d <;> rfl
    | _ => rfl
  | mbuf n =>
    cases q with
    | mbuf m => exact regRead_mbuf_regWrite_mbuf v (fun e => h (e ▸ rfl)) wf
    | rounds d | ctr d j => cases d <;> rfl
    | _ => rfl
  | rounds b =>
    cases q with
    | status => exact absurd rfl (hs rfl b)
    | rounds d => exact congrArg Bank.rounds (bank_setBank_of_ne s _ fun e => h (e ▸ rfl))
    | ctr d j => cases b <;> cases d <;> rfl
    | _ => cases b <;> rfl
  | ctr b k =>
    cases q with
    | ctr d j =>
      by_cases hd : d = b
      · subst hd
        simpa [regRead, regWrite] using getWord_setWord_of_ne _ v fun e : j = k => h (e ▸ rfl)
      · exact congrArg (fun x => getWord x.ctr j) (bank_setBank_of_ne s _ hd)
    | rounds d => cases b <;> cases d <;> rfl
    | _ => cases b <;> rfl

/-- Settles O50: the read is that of the state after the register write. -/
theorem registerWritesAreIndependent : Obligations.RegisterWritesAreIndependent := by
  intro s r q v hf wf hr hq hc hne hs
  refine ⟨regWrite r v s, hostWrite_offset v hr hf hc, ?_⟩
  rw [hostRead_offset_regWrite v hq, regRead_regWrite_of_ne v hne.symm hs wf]

/-- Settles O51: the two offsets are those of `ROUNDS0` and `ROUNDS1`. -/
theorem roundsWriteEndsTheSession : Obligations.RoundsWriteEndsTheSession := by
  intro s v hf
  have written (b : BankId) : hostWrite (Reg.rounds b).offset 4 v s = .next (regWrite (.rounds b) v s) :=
    hostWrite_offset v nofun hf nofun
  exact ⟨_, _, written .b0, written .b1, rfl, rfl, rfl, rfl, rfl, rfl, rfl, rfl⟩

/-- Settles O53: the offset is that of `MBUF_n`, whose four bytes a write replaces. -/
theorem mbufWindowIsLittleEndian : Obligations.MbufWindowIsLittleEndian := by
  intro s n v wf hf hn
  have present : (Reg.mbuf n).present s.params.mMax := by rintro _ ⟨⟩; exact hn
  refine ⟨⟨_, hostRead_offset present, fun m hm => ?_⟩, _, hostWrite_offset v present hf nofun, rfl, fun a => ?_⟩
  · change byteOfWord (regRead (.mbuf n) s) m = _
    unfold regRead
    interval_cases m <;> simp
  · exact read_writeWord (4 * n) v a wf

/-! ### The whole map (R35) -/

/-- The registers of R35 that hold one word of their own and can be written without a further effect, but for `MBUF_n`. -/
def plainRegs : List Reg :=
  [.mlen, .ctr .b0 0, .ctr .b0 1, .ctr .b0 2, .ctr .b0 3, .ctr .b1 0, .ctr .b1 1, .ctr .b1 2, .ctr .b1 3,
    .blk 0, .blk 1, .blk 2, .blk 3]

/-- Only `MBUF_n` can be absent. -/
theorem present_of_mem {r : Reg} {regs : List Reg} {mMax : Nat} (hr : r ∈ regs) (h : ∀ n, .mbuf n ∉ regs) :
    r.present mMax :=
  fun n e => absurd (e ▸ hr) (h n)

/-- STATUS shows the four flags, and its bits 31:4 read 0 (R32). -/
theorem statusWord_bits (s : State) : (statusWord s).getLsbD 0 = s.fault ∧ (statusWord s).getLsbD 1 = s.final ∧
    (statusWord s).getLsbD 2 = s.bank0.kvalid ∧ (statusWord s).getLsbD 3 = s.bank1.kvalid ∧
    (statusWord s).extractLsb' 4 28 = 0 := by
  unfold statusWord
  generalize s.fault = a, s.final = b, s.bank0.kvalid = c, s.bank1.kvalid = d
  revert a b c d
  decide

/-- Bits 31:18 of the word that a fault entry stores in CAUSE are 0 (R33, R303). -/
theorem causeWord_reserved (e : Cause) (c : Word) : (causeWord e c).extractLsb' 18 14 = 0 := by
  ext i hi
  have code : (causeCode e).getLsbD (18 + i) = false := BitVec.getLsbD_of_ge _ _ (by omega)
  have op : ¬ 18 + i - 8 < 8 := by omega
  have bank : 18 + i - 16 ≠ 0 := by omega
  have hex : 18 + i - 17 ≠ 0 := by omega
  simp [causeWord, code, op, bank, hex]

/-- In every state a run can be in, CAUSE is 0 or the word of a fault entry (R29, R33). -/
theorem cause_reserved {s : State} (h : s.Inv) : s.cause.extractLsb' 18 14 = 0 := by
  obtain ⟨_, _, faultLegal, _⟩ := h
  unfold State.faultLegal at faultLegal
  split at faultLegal
  · obtain ⟨⟨e, c, cause⟩, _⟩ := faultLegal
    rw [cause]
    exact causeWord_reserved e c
  · rw [faultLegal]
    rfl

/-- A write to a read-only register is ignored in every state (R65). -/
theorem hostWrite_readOnly {r : Reg} {s : State} (v : Word) (hr : r = .status ∨ r = .cause) :
    hostWrite r.offset 4 v s = .next s := by
  rcases hr with rfl | rfl <;> exact ite_self _

/-- Settles O49: each list of offsets is the map of R35 on a list of registers. -/
theorem registersReadBack : Obligations.RegistersReadBack := by
  intro s v
  refine ⟨fun r hr => ⟨hostRead_offset hr, hostWrite_offset v hr, fun hf hc hs hu wf => ?_⟩, ?_, fun hf => ?_,
    ⟨hostWrite_readOnly (r := .status) v (.inl rfl), hostWrite_readOnly (r := .cause) v (.inr rfl)⟩,
    ⟨statusWord s, hostRead_offset (r := .status) nofun, statusWord_bits s⟩, cause_reserved⟩
  · refine ⟨_, hostWrite_offset v hr hf hc, ?_⟩
    rw [hostRead_offset_regWrite v hr, regRead_regWrite_same v hc hs hu wf]
  · intro place hp
    change place ∈ (.cmd :: .cause :: .rounds .b0 :: .rounds .b1 :: plainRegs).map fun r => (r.offset, regRead r s) at hp
    obtain ⟨r, hr, rfl⟩ := List.mem_map.1 hp
    exact hostRead_offset (present_of_mem hr (by simp [plainRegs]))
  · intro place hp
    change place ∈ plainRegs.map fun r => (r.offset, regWrite r v s) at hp
    obtain ⟨r, hr, rfl⟩ := List.mem_map.1 hp
    exact hostWrite_offset v (present_of_mem hr (by simp [plainRegs])) hf (ne_of_mem_of_not_mem hr (by simp [plainRegs]))

end Sys2Proof.Machine
end

section
/-!
Command words and their fields (R90 to R93): a word is its four fields, so decoding, encoding and R92's pattern are each a
statement about the fields.
-/

namespace Sys2Proof.Machine

/-! ### A word is its fields (R90) -/

/-- Two words with the same reserved bits, `OP`, HEX and BANK are the same word. -/
theorem word_eq_iff_fields (w v : Word) :
    w = v ↔ w.extractLsb' 10 22 = v.extractLsb' 10 22 ∧ w.extractLsb' 0 8 = v.extractLsb' 0 8 ∧
      w.getLsbD 8 = v.getLsbD 8 ∧ w.getLsbD 9 = v.getLsbD 9 := by
  refine ⟨by rintro rfl; exact ⟨rfl, rfl, rfl, rfl⟩, fun ⟨reserved, op, hex, bank⟩ => BitVec.eq_of_getLsbD_eq fun k hk => ?_⟩
  rcases (by omega : k < 8 ∨ k = 8 ∨ k = 9 ∨ 10 ≤ k) with h | rfl | rfl | h
  · simpa [h] using congrArg (·.getLsbD k) op
  · exact hex
  · exact bank
  · have h22 : k - 10 < 22 := by omega
    simpa [h22, Nat.add_sub_cancel' h] using congrArg (·.getLsbD (k - 10)) reserved

theorem commandWord_reserved (op : BitVec 8) (hex bank : Bool) : (commandWord op hex bank).extractLsb' 10 22 = 0 := by
  apply BitVec.eq_of_getLsbD_eq
  intro k hk
  have hop : op.getLsbD (10 + k) = false := BitVec.getLsbD_of_ge _ _ (by omega)
  have h8 : 10 + k - 8 ≠ 0 := by omega
  have h9 : 10 + k - 9 ≠ 0 := by omega
  simp [commandWord, hop, h8, h9]

theorem commandWord_op (op : BitVec 8) (hex bank : Bool) : (commandWord op hex bank).extractLsb' 0 8 = op := by
  apply BitVec.eq_of_getLsbD_eq
  intro k hk
  have h32 : k < 32 := by omega
  have h9 : k < 9 := by omega
  simp [commandWord, hk, h32, h9]

theorem commandWord_hex (op : BitVec 8) (hex bank : Bool) : (commandWord op hex bank).getLsbD 8 = hex := by
  simp [commandWord]

theorem commandWord_bank (op : BitVec 8) (hex bank : Bool) : (commandWord op hex bank).getLsbD 9 = bank := by
  simp [commandWord]

theorem eq_encode_iff_fields (w : Word) (i : Instr) :
    w = encode i ↔
      w.extractLsb' 10 22 = 0 ∧ w.extractLsb' 0 8 = opOf i ∧ w.getLsbD 8 = hexOf i ∧ w.getLsbD 9 = bankOf i := by
  rw [word_eq_iff_fields, encode, commandWord_reserved, commandWord_op, commandWord_hex, commandWord_bank]

/-! ### Decoding (R91, R92) -/

@[simp] theorem toBit_ofBit (bank : Bool) : (BankId.ofBit bank).toBit = bank := by cases bank <;> rfl

theorem decodePlain_eq_ok {hex bank : Bool} {i j : Instr} (h : decodePlain hex bank i = .ok j) :
    hex = false ∧ bank = false ∧ j = i := by
  cases hex <;> cases bank <;> cases h
  exact ⟨rfl, rfl, rfl⟩

theorem decodeBanked_eq_ok {hex bank : Bool} {f : BankId → Instr} {j : Instr} (h : decodeBanked hex bank f = .ok j) :
    hex = false ∧ j = f (.ofBit bank) := by
  cases hex <;> cases h
  exact ⟨rfl, rfl⟩

theorem decodeKeyed_eq_ok {hex bank : Bool} {f : Bool → BankId → Instr} {j : Instr} (h : decodeKeyed hex bank f = .ok j) :
    j = f hex (.ofBit bank) := by
  cases h; rfl

/-- A word that decodes is the word of the command it decodes to, row by row. -/
theorem eq_encode_of_decode {w : Word} {i : Instr} (h : decode w = .ok i) : w = encode i := by
  rw [eq_encode_iff_fields]
  simp only [decode] at h
  split at h
  · cases h
  · next reserved =>
    refine ⟨not_not.1 reserved, ?_⟩
    split at h
    case h_1 op | h_2 op | h_3 op | h_4 op | h_17 op | h_18 op | h_21 op | h_22 op =>
      obtain ⟨hex, bank, rfl⟩ := decodePlain_eq_ok h
      exact ⟨BitVec.eq_of_toNat_eq op, hex, bank⟩
    case h_5 op | h_6 op =>
      obtain rfl := decodeKeyed_eq_ok h
      exact ⟨BitVec.eq_of_toNat_eq op, rfl, (toBit_ofBit _).symm⟩
    case h_23 => cases h
    all_goals
      next op =>
      obtain ⟨hex, rfl⟩ := decodeBanked_eq_ok h
      exact ⟨BitVec.eq_of_toNat_eq op, hex, (toBit_ofBit _).symm⟩

theorem decode_encode (i : Instr) : decode (encode i) = .ok i := by
  cases i with
  | nop | rotl | rotr | mclr | readBlock | trimEmit | reencStream | sreset => rfl
  | genSched hex b | nonceDerive hex b => cases hex <;> cases b <;> rfl
  | rc6Enc b | rc6Dec b | hybEnc b | hybDec b | ctrInc b | hdrWrite b | hdrRead b | pwcVerify b | nameEnc b | nameDec b
  | encStream b | decStream b => cases b <;> rfl

theorem decode_eq_ok_iff (w : Word) (i : Instr) : decode w = .ok i ↔ w = encode i :=
  ⟨eq_encode_of_decode, by rintro rfl; exact decode_encode i⟩

/-- Settles O1: a word that decodes has the fields of its command's word, and that word decodes to the command. -/
theorem decodeAndEncodeAgree : Obligations.DecodeAndEncodeAgree := decode_eq_ok_iff

/-- Settles O3: the legal words are the encodings of their commands; the illegal ones are evaluated. -/
theorem writtenOutWordsDecode : Obligations.WrittenOutWordsDecode := by
  unfold Obligations.WrittenOutWordsDecode
  simp only [decode_eq_ok_iff]
  decide

/-! ### R92's pattern -/

/-- R92's pattern for a row with this `OP`: the word's `OP` is the row's, and every bit the row does not use is 0. -/
def FitsRow (w : Word) (op : BitVec 8) : Prop :=
  w.extractLsb' 10 22 = 0 ∧ w.extractLsb' 0 8 = op ∧ (w.getLsbD 8 = true → op ∈ hexCodes) ∧
    (w.getLsbD 9 = true → op ∈ bankCodes)

/-- Only the rows of `hexCodes` have a HEX bit to set (R91). -/
theorem op_mem_hexCodes_of_hexOf {i : Instr} (h : hexOf i = true) : opOf i ∈ hexCodes := by
  cases i with
  | genSched | nonceDerive => simp [opOf, hexCodes]
  | _ => cases h

/-- Only the rows of `bankCodes` have a BANK bit to set (R91). -/
theorem op_mem_bankCodes_of_bankOf {i : Instr} (h : bankOf i = true) : opOf i ∈ bankCodes := by
  cases i with
  | nop | rotl | rotr | mclr | readBlock | trimEmit | reencStream | sreset => cases h
  | _ => simp [opOf, bankCodes]

theorem fitsRow_encode (i : Instr) : FitsRow (encode i) (opOf i) :=
  ⟨commandWord_reserved _ _ _, commandWord_op _ _ _, fun h => op_mem_hexCodes_of_hexOf ((commandWord_hex _ _ _).symm.trans h),
    fun h => op_mem_bankCodes_of_bankOf ((commandWord_bank _ _ _).symm.trans h)⟩

/-- A word that fits a row decodes (R92). -/
theorem decodes_of_fitsRow {w : Word} {i : Instr} (h : FitsRow w (opOf i)) : ∃ j, decode w = .ok j := by
  obtain ⟨reserved, op, hex, bank⟩ := h
  simp only [decode, reserved, op, ne_eq, not_true, if_false]
  cases i with
  | nop | rotl | rotr | mclr | readBlock | trimEmit | reencStream | sreset =>
    have hex : w.getLsbD 8 = false := by simpa [opOf, hexCodes] using hex
    have bank : w.getLsbD 9 = false := by simpa [opOf, bankCodes] using bank
    rw [hex, bank]
    exact ⟨_, rfl⟩
  | genSched | nonceDerive => exact ⟨_, rfl⟩
  | _ =>
    have hex : w.getLsbD 8 = false := by simpa [opOf, hexCodes] using hex
    rw [hex]
    exact ⟨_, rfl⟩

/-- R92 as it stands: a word names a command of the row exactly by the row's pattern. -/
theorem namesRow_iff_fitsRow (w : Word) (i : Instr) : (∃ j, opOf j = opOf i ∧ decode w = .ok j) ↔ FitsRow w (opOf i) := by
  constructor
  · rintro ⟨j, hop, hj⟩
    rw [eq_encode_of_decode hj, ← hop]
    exact fitsRow_encode j
  · intro h
    obtain ⟨j, hj⟩ := decodes_of_fitsRow h
    refine ⟨j, ?_, hj⟩
    rw [← h.2.1, eq_encode_of_decode hj, encode, commandWord_op]

/-- A row's mask leaves out exactly the bits the row uses (R92). -/
theorem rowMask_eq (i : Instr) :
    rowMask i = ~~~ commandWord 0 (decide (opOf i ∈ hexCodes)) (decide (opOf i ∈ bankCodes)) := by
  cases i <;> simp [rowMask, opOf, hexCodes, bankCodes] <;> rfl

theorem rowMatch_eq (i : Instr) : rowMatch i = commandWord (opOf i) false false := by simp [rowMatch, commandWord]

/-- A row's mask keeps every reserved bit. -/
theorem not_commandWord_reserved (op : BitVec 8) (hex bank : Bool) :
    (~~~ commandWord op hex bank).extractLsb' 10 22 = BitVec.allOnes 22 := by
  rw [← BitVec.allOnes_xor, BitVec.extractLsb'_xor, commandWord_reserved]
  rfl

/-- R92's table: the pattern as a mask and a value. -/
theorem fitsRow_iff_mask (w : Word) (i : Instr) : FitsRow w (opOf i) ↔ w &&& rowMask i = rowMatch i := by
  rw [rowMask_eq, rowMatch_eq, word_eq_iff_fields]
  have mask_op (hex bank : Bool) : (~~~ commandWord 0 hex bank).extractLsb' 0 8 = BitVec.allOnes 8 := by
    rw [BitVec.extractLsb'_not_of_lt (by decide), commandWord_op]
    rfl
  simp only [BitVec.extractLsb'_and, not_commandWord_reserved, mask_op, BitVec.and_allOnes, BitVec.getLsbD_and,
    BitVec.getLsbD_not, commandWord_reserved, commandWord_op, commandWord_hex, commandWord_bank]
  simp [FitsRow]

/-- Settles O2: both forms are R92's pattern. -/
theorem wordNamesRowExactlyByItsPattern : Obligations.WordNamesRowExactlyByItsPattern :=
  fun w i => ⟨namesRow_iff_fitsRow w i, (namesRow_iff_fitsRow w i).trans (fitsRow_iff_mask w i)⟩

/-! ### Legal and illegal words (R93) -/

/-- A command of each row of R91. -/
def rowCommands : List Instr :=
  [.nop, .rotl, .rotr, .mclr, .genSched false .b0, .nonceDerive false .b0, .rc6Enc .b0, .rc6Dec .b0, .hybEnc .b0, .hybDec .b0,
    .ctrInc .b0, .hdrWrite .b0, .hdrRead .b0, .pwcVerify .b0, .nameEnc .b0, .nameDec .b0, .readBlock, .trimEmit, .encStream .b0,
    .decStream .b0, .reencStream, .sreset]

theorem operationCodes_eq : operationCodes = rowCommands.map opOf := rfl

theorem opOf_mem_operationCodes (i : Instr) : opOf i ∈ operationCodes := by
  cases i <;> simp [opOf, operationCodes]

theorem mem_operationCodes {op : BitVec 8} : op ∈ operationCodes ↔ ∃ i, opOf i = op := by
  constructor
  · intro h
    obtain ⟨i, -, hi⟩ := List.mem_map.1 (operationCodes_eq ▸ h)
    exact ⟨i, hi⟩
  · rintro ⟨i, rfl⟩
    exact opOf_mem_operationCodes i

/-- The static check passes exactly the words that fit some row (R92). -/
theorem wellFormed_iff_fitsRow (w : Word) : CommandWord.wellFormed w = true ↔ ∃ i, FitsRow w (opOf i) := by
  simp only [CommandWord.wellFormed, CommandWord.reservedClear, CommandWord.opListed, CommandWord.hexAllowed,
    CommandWord.bankAllowed, Bool.and_eq_true, Bool.or_eq_true, beq_iff_eq, List.contains_iff_mem, mem_operationCodes,
    Bool.not_eq_true', ← Bool.not_eq_true, ← imp_iff_not_or]
  constructor
  · rintro ⟨⟨⟨reserved, i, op⟩, hex⟩, bank⟩
    exact ⟨i, reserved, op.symm, op ▸ hex, op ▸ bank⟩
  · rintro ⟨i, reserved, op, hex, bank⟩
    exact ⟨⟨⟨reserved, i, op.symm⟩, op ▸ hex⟩, op ▸ bank⟩

/-- The static check passes exactly the words that decode. -/
theorem wellFormed_iff_decodes (w : Word) : CommandWord.wellFormed w = true ↔ ∃ i, decode w = .ok i := by
  rw [wellFormed_iff_fitsRow]
  constructor
  · rintro ⟨i, h⟩
    exact decodes_of_fitsRow h
  · rintro ⟨i, h⟩
    exact ⟨i, eq_encode_of_decode h ▸ fitsRow_encode i⟩

/-- Outside the fault state a word that names no command makes the fault entry (R93, R107). -/
theorem execute_of_not_decodes {c : Word} {s : State} (hf : s.fault = false) (hc : ∀ i, decode c ≠ .ok i) :
    execute c s = .next (faultEntry .illegalCmd c s) := by
  unfold execute
  rw [if_neg (by simp [hf])]
  split
  · next i hi => exact absurd hi (hc i)
  · rfl

/-- Settles O4: the words the static check passes are those that decode. -/
theorem illegalWordsRaiseAndLegalWordsRun : Obligations.IllegalWordsRaiseAndLegalWordsRun := by
  intro c s hf
  constructor
  · intro illegal
    refine execute_of_not_decodes hf fun i hi => ?_
    have legal := (wellFormed_iff_decodes c).2 ⟨i, hi⟩
    rw [illegal] at legal
    cases legal
  · intro legal
    obtain ⟨i, hi⟩ := (wellFormed_iff_decodes c).1 legal
    exact ⟨i, hi, execute_of_decode hi (.inl hf)⟩

end Sys2Proof.Machine
end

section
/-!
Key material and the round-count text (R97 to R99, R141, R142): the digits of a text one by one, their packing into bytes, the
key words, and a number's shortest text as its base-16 digits.
-/

namespace Sys2Proof.Machine

/-! ### Key words (R97, R142) -/

theorem keyWords_length (key : List Byte) : (keyWords key).length = max 1 ((key.length + 3) / 4) := by
  simp only [keyWords]
  split
  · next h => rw [h]; rfl
  · rw [List.length_map, List.length_range]; omega

/-- Key word `q` is the little-endian word of the bytes from `4q` on, no bytes at all included. -/
theorem keyWords_getD (key : List Byte) {q : Nat} (hq : q < (keyWords key).length) : (keyWords key).getD q 0 = wordAt key q := by
  rw [keyWords_length] at hq
  simp only [keyWords]
  split
  · next h =>
    obtain rfl : key = [] := List.length_eq_zero_iff.1 (by omega)
    obtain rfl : q = 0 := by simp at hq; omega
    rfl
  · next h => simp [List.getD, show q < (key.length + 3) / 4 by omega]

/-- Settles O11: a key word's bytes are those of the string, by R95's law for a word of bytes. -/
theorem keyWordsAreLittleEndian : Obligations.KeyWordsAreLittleEndian := by
  refine fun key => ⟨keyWords_length key, fun q hq m hm => ?_⟩
  rw [keyWords_getD key hq]
  exact byteOfWord_wordAt key q hm

/-! ### Digits (R98) -/

theorem hexDigits_cons (v : Byte) (m : List Byte) :
    hexDigits (v :: m) = (hexVal v).bind fun d => (hexDigits m).map (d :: ·) := by
  simp only [hexDigits]
  cases hexVal v <;> cases hexDigits m <;> rfl

/-- A text's values are those of its bytes, in order. -/
theorem hexDigits_eq_some_iff_map (m : List Byte) (ds : List Nat) : hexDigits m = some ds ↔ m.map hexVal = ds.map some := by
  induction m generalizing ds with
  | nil => cases ds <;> simp [hexDigits]
  | cons v m ih => cases ds <;> simp [hexDigits_cons, Option.bind_eq_some_iff, ih]

/-- A text's values digit by digit. -/
theorem hexDigits_eq_some_iff (m : List Byte) (ds : List Nat) :
    hexDigits m = some ds ↔ ds.length = m.length ∧ ∀ q < m.length, hexVal (m.getD q 0) = some (ds.getD q 0) := by
  rw [hexDigits_eq_some_iff_map, List.ext_getElem_iff]
  simp only [List.length_map, List.getElem_map]
  refine ⟨fun ⟨len, vals⟩ => ⟨len.symm, fun q hq => ?_⟩, fun ⟨len, vals⟩ => ⟨len.symm, fun q hq hd => ?_⟩⟩
  · have hd : q < ds.length := len ▸ hq
    simpa [hq, hd] using vals q hq hd
  · simpa [hq, hd] using vals q hq

theorem hexDigits_eq_none_iff (m : List Byte) : hexDigits m = none ↔ ∃ v ∈ m, hexVal v = none := by
  induction m with
  | nil => simp [hexDigits]
  | cons v m ih =>
    rw [hexDigits_cons, List.exists_mem_cons_iff, ← ih]
    cases hexVal v <;> simp

theorem hexVal_lt {v : Byte} {d : Nat} (h : hexVal v = some d) : d < 16 := by
  simp only [hexVal] at h
  split at h
  · cases h; omega
  · split at h
    · cases h; omega
    · split at h
      · cases h; omega
      · cases h

/-! ### Packing (R98, R141) -/

theorem packHex_length (ds : List Nat) : (packHex ds).length = (ds.length + 1) / 2 := by
  induction ds using packHex.induct with
  | case1 => rfl
  | case2 d => simp [packHex]
  | case3 d e rest ih => simp only [packHex, List.length_cons, ih]; omega

/-- Byte `q` holds digit `2q` high and digit `2q+1` low, 0 where there is none. -/
theorem packHex_getD {ds : List Nat} (h : ∀ d ∈ ds, d < 16) (q : Nat) :
    ((packHex ds).getD q 0).toNat = 16 * ds.getD (2 * q) 0 + ds.getD (2 * q + 1) 0 := by
  induction ds using packHex.induct generalizing q with
  | case1 => simp [packHex]
  | case2 d =>
    have hd := h d (by simp)
    cases q with
    | zero => simp [packHex]; omega
    | succ q => simp [packHex, Nat.mul_succ]
  | case3 d e rest ih =>
    have hd := h d (by simp)
    have he := h e (by simp)
    cases q with
    | zero => simp [packHex]; omega
    | succ q => simpa [packHex, Nat.mul_succ] using ih (fun x hx => h x (by simp [hx])) q

/-- The value of digit `q`, as the pair of a byte counts it: 0 beyond the last digit. -/
theorem hexDigits_getD {m : List Byte} {ds : List Nat} (h : hexDigits m = some ds) (q : Nat) :
    ds.getD q 0 = if q < m.length then (hexVal (m.getD q 0)).getD 0 else 0 := by
  obtain ⟨len, vals⟩ := (hexDigits_eq_some_iff m ds).1 h
  split
  · next hq => rw [vals q hq]; rfl
  · next hq => exact List.getD_eq_default _ _ (by omega)

theorem lt_of_mem_hexDigits {m : List Byte} {ds : List Nat} (h : hexDigits m = some ds) : ∀ d ∈ ds, d < 16 := by
  intro d hd
  have mem : some d ∈ m.map hexVal := (hexDigits_eq_some_iff_map m ds).1 h ▸ List.mem_map_of_mem hd
  obtain ⟨v, -, hv⟩ := List.mem_map.1 mem
  exact hexVal_lt hv

/-- Settles O12: the text's values first, then their packing, both byte by byte. -/
theorem hexModePacksDigitPairs : Obligations.HexModePacksDigitPairs := by
  refine ⟨fun _ => rfl, hexDigits_eq_some_iff, fun m => ⟨rfl, ?_, ?_⟩⟩
  · simp [keyBytes, hexDigits_eq_none_iff]
  · intro key hkey
    obtain ⟨ds, hds, rfl⟩ := Option.map_eq_some_iff.1 hkey
    refine ⟨by rw [packHex_length, hexDigits_length hds], fun q hq => ?_⟩
    have first : 2 * q < m.length := by rw [packHex_length, hexDigits_length hds] at hq; omega
    rw [packHex_getD (lt_of_mem_hexDigits hds), hexDigits_getD hds, hexDigits_getD hds, if_pos first]

/-! ### The shortest text of a number (R99) -/

theorem hexVal_hexChar {d : Nat} (h : d < 16) : hexVal (hexChar d) = some d := by
  interval_cases d <;> rfl

/-- The written digits are 0 to 9 and a to f. -/
theorem hexChar_lowerCase {d : Nat} (h : d < 16) :
    (0x30 ≤ (hexChar d).toNat ∧ (hexChar d).toNat ≤ 0x39) ∨ (0x61 ≤ (hexChar d).toNat ∧ (hexChar d).toNat ≤ 0x66) := by
  interval_cases d <;> decide

/-- The text is the number's base-16 digits, most significant first. -/
theorem hexCharsOf_eq (fuel : Nat) {n : Nat} (h : n < 16 ^ fuel) :
    hexCharsOf fuel n = (Nat.digits 16 n).reverse.map hexChar := by
  induction fuel generalizing n with
  | zero =>
    obtain rfl : n = 0 := by simpa using h
    rfl
  | succ fuel ih =>
    simp only [hexCharsOf]
    split
    · next hn => rw [hn]; rfl
    · next hn =>
      have digits : Nat.digits 16 n = n % 16 :: Nat.digits 16 (n / 16) := Nat.digits_def' (by decide) (by omega)
      rw [ih (by rw [Nat.pow_succ] at h; omega), digits, List.reverse_cons, List.map_append]
      rfl

theorem hexDigitsOf_eq (n : Word) : hexDigitsOf n = (Nat.digits 16 n.toNat).reverse.map hexChar :=
  hexCharsOf_eq 8 n.isLt

theorem hexDigits_map_hexChar {ds : List Nat} (h : ∀ d ∈ ds, d < 16) : hexDigits (ds.map hexChar) = some ds := by
  rw [hexDigits_eq_some_iff_map, List.map_map]
  exact List.map_congr_left fun d hd => hexVal_hexChar (h d hd)

theorem hexValue_reverse_digits (n : Nat) : hexValue (Nat.digits 16 n).reverse = n := by
  conv_rhs => rw [← Nat.ofDigits_digits 16 n, Nat.ofDigits_eq_foldr]
  simp [hexValue, Nat.add_comm]

/-- Settles O24: the digits are the number's base-16 digits, of which the most significant is not 0. -/
theorem writtenRoundCountIsShortestHex : Obligations.WrittenRoundCountIsShortestHex := by
  intro n hn
  have hpos : n.toNat ≠ 0 := fun h => hn (BitVec.eq_of_toNat_eq h)
  have digits : ∀ d ∈ (Nat.digits 16 n.toNat).reverse, d < 16 :=
    fun d hd => Nat.digits_lt_base (by decide) (List.mem_reverse.1 hd)
  have nonempty : Nat.digits 16 n.toNat ≠ [] := Nat.digits_ne_nil_iff_ne_zero.2 hpos
  rw [hexDigitsOf_eq]
  refine ⟨_, hexDigits_map_hexChar digits, hexValue_reverse_digits _, ?_, by simpa using nonempty, ?_⟩
  · rw [List.head?_reverse, List.getLast?_eq_some_getLast nonempty]
    exact fun h => Nat.getLast_digit_ne_zero 16 hpos (Option.some.inj h)
  · intro v hv
    obtain ⟨d, hd, rfl⟩ := List.mem_map.1 hv
    exact hexChar_lowerCase (digits d hd)

end Sys2Proof.Machine
end

section
/-!
Reading a header (R100, R212) and a plaintext block (R95, R250, R251): each part of the read is followed on a source that
delivers it, and the parts are put together.
-/

namespace Sys2Proof.Machine

/-! ### READ_BLOCK (R251) -/

/-- Byte `4k + m` of a block is byte `m` of its word `k` (R95). -/
theorem bytesOfBlock_getD (x : Block) {k m : Nat} (hk : k < 4) (hm : m < 4) :
    (bytesOfBlock x).getD (4 * k + m) 0 = byteOfWord ([x.w0, x.w1, x.w2, x.w3].getD k 0) m := by
  interval_cases k <;> interval_cases m <;> rfl

/-- Settles O33: the two conversions are inverse, and READ_BLOCK is one read of up to 16 bytes. -/
theorem readBlockFillsAndPads : Obligations.ReadBlockFillsAndPads := by
  refine ⟨fun x => ⟨bytesOfBlock_length x, blockOfBytes_bytesOfBlock x, fun k hk m hm => bytesOfBlock_getD x hk hm⟩,
    fun p hp => bytesOfBlock_blockOfBytes hp, fun s => ⟨s.ports.afterRead 16, afterRead_snk _ _, afterRead_output _ _, ?_, ?_⟩⟩
  · intro full
    exact ⟨afterRead_src_le full, congrArg _ (loadBlock_full full)⟩
  · intro short
    exact ⟨afterRead_src_gt short, congrArg _ (loadBlock_short short)⟩

/-! ### The round-count text and its checks (R100, R212) -/

/-- A text of digits and its terminator: the value and the number of the digits, in the time `readBound` allows. -/
theorem readCount_text {text rest : List Byte} {ds : List Nat} {s : State} (hd : hexDigits text = some ds)
    (h : deliver s.ports.src = text ++ 0x00 :: rest) :
    readCount (readBound s) 0 0 s = .ok (hexValue ds, ds.length) (s.setPorts (s.ports.afterRead (text.length + 1))) := by
  have hl : text.length ≤ (deliver s.ports.src).length := by simp [h]
  obtain ⟨fuel, hfuel⟩ := readBound_split hl
  have terminator : deliver (s.setPorts (s.ports.afterRead text.length)).ports.src = 0x00 :: rest := by
    simp [deliver_afterRead hl, h]
  rw [hfuel, readCount_digits hd (fuel + 1) 0 0 h]
  simp only [readCount, srcByte_of_cons terminator, bind_ok, if_true, setPorts_ports, setPorts_setPorts, afterRead_add 1 hl]
  rw [Nat.zero_add]
  rfl

theorem checkCount_ok {n q : Nat} {s : State} (hq : 1 ≤ q) (hn : 1 ≤ n) (hmax : n ≤ s.params.rMax) :
    checkCount n q s = .ok () s := by
  simp only [checkCount, hq, hn, hmax, decide_true, require_true, bind_ok]

/-! ### HDR_READ (R212) -/

/-- After a first part of what the source delivers has been read, the rest comes. -/
theorem deliver_afterRead_append {p : Ports} {n : Nat} (pre : List Byte) {rest : List Byte} (h : deliver p.src = pre ++ rest)
    (hn : pre.length = n) : deliver (p.afterRead n).src = rest := by
  rw [← hn, deliver_afterRead (by simp [h]), h, List.drop_left]

theorem srcBytes_of_append {n : Nat} {pre rest : List Byte} {s : State} (h : deliver s.ports.src = pre ++ rest)
    (hn : pre.length = n) : srcBytes n s = .ok pre (s.setPorts (s.ports.afterRead n)) := by
  rw [srcBytes_eq, if_pos (by simp [h, hn]), h, ← hn, List.take_left]

/-- HDR_READ's body on a legal header: what it leaves in the bank, and what it has read. -/
theorem hdrReadBody_of_header (b : BankId) {s : State} {text nonce more : List Byte} {ds : List Nat}
    (hd : hexDigits text = some ds) (hne : ds ≠ []) (hpos : 1 ≤ hexValue ds) (hmax : hexValue ds ≤ s.params.rMax)
    (hnonce : nonce.length = 16)
    (h : deliver s.ports.src = s.params.magic.toList ++ s.params.version :: (text ++ 0x00 :: (nonce ++ more))) :
    hdrReadBody b s = .ok () ((s.setBank b
      { rounds := BitVec.ofNat 32 (hexValue ds), ctr := blockOfBytes nonce, keys := [], kvalid := false }).setPorts
        (s.ports.afterRead (26 + text.length))) := by
  have magic : s.params.magic.toList.length = 8 := s.params.magic.length_toList
  have atVersion : deliver (s.ports.afterRead 8).src = s.params.version :: (text ++ 0x00 :: (nonce ++ more)) :=
    deliver_afterRead_append _ h magic
  have atText : deliver (s.ports.afterRead 9).src = text ++ 0x00 :: (nonce ++ more) :=
    deliver_afterRead_append (s.params.magic.toList ++ [s.params.version]) (by simpa using h) (by simp)
  have atNonce : deliver (s.ports.afterRead (9 + (text.length + 1))).src = nonce ++ more :=
    deliver_afterRead_append (s.params.magic.toList ++ s.params.version :: (text ++ [0x00])) (by simpa using h) (by simp; omega)
  have hl : 26 + text.length ≤ (deliver s.ports.src).length := by simp [h, hnonce]; omega
  have readVersion : (s.ports.afterRead 8).afterRead 1 = s.ports.afterRead 9 := afterRead_add 1 (by omega)
  have readText := afterRead_add (p := s.ports) (n := 9) (text.length + 1) (by omega)
  have readNonce : (s.ports.afterRead (9 + (text.length + 1))).afterRead 16 = s.ports.afterRead (26 + text.length) :=
    (afterRead_add 16 (by omega)).trans (congrArg _ (by omega))
  unfold hdrReadBody State.invalidate
  rw [readMagic_ok (by simpa using h), bind_ok, magic, srcByte_of_cons (by simpa using atVersion), bind_ok]
  simp only [setPorts_params, setBank_params, beq_self_eq_true, require_true, bind_ok, setPorts_ports, setPorts_setPorts,
    setBank_ports, readVersion]
  rw [readCount_text hd (by simpa using atText), bind_ok,
    checkCount_ok (List.length_pos_iff.2 hne) hpos (by simpa using hmax), bind_ok,
    srcBytes_of_append (by simpa [readText] using atNonce) hnonce, bind_ok]
  simp [readText, readNonce]

/-- Settles O26: the body ends, and what it has read is the header. -/
theorem hdrReadLoadsTheHeader : Obligations.HdrReadLoadsTheHeader := by
  intro b s text nonce more ds hd hne hpos hmax hnonce h
  simp only [List.append_assoc, List.singleton_append] at h
  have hl : 26 + text.length ≤ (deliver s.ports.src).length := by simp [h, hnonce]; omega
  refine ⟨_, exec_of_ok (hdrReadBody_of_header b hd hne hpos hmax hnonce h), ?_⟩
  exact ⟨rfl, afterRead_src_le hl, afterRead_snk _ _, afterRead_output _ _⟩

end Sys2Proof.Machine
end

section
/-!
The rotations (R121 to R123) as permutations of bit positions: `getLsbD_rotl32` and `getLsbD_rotr32` say which bit of the operand
each bit of the result is, and every law of R123 is an equation between those positions. NOP, ROTL and ROTR (R125 to R127) are
bodies that end.
-/

namespace Sys2Proof.Machine

/-! ### The bits of a rotation (R121, R122) -/

/-- The library's rotation has no case `s = 0` of its own: there a shift by the whole width leaves 0 (R121). -/
theorem rotl32_eq_rotateLeft (x : Word) (n : Nat) : rotl32 x n = x.rotateLeft n := by
  rw [rotl32, BitVec.rotateLeft_def]
  split
  · next h => simp [h, BitVec.ushiftRight_eq_zero]
  · rfl

theorem rotr32_eq_rotateRight (x : Word) (n : Nat) : rotr32 x n = x.rotateRight n := by
  rw [rotr32, BitVec.rotateRight_def]
  split
  · next h => simp [h]
  · rfl

theorem getLsbD_rotl32 (x : Word) (n : Nat) {k : Nat} (hk : k < 32) :
    (rotl32 x n).getLsbD k = x.getLsbD ((k + 32 - n % 32) % 32) := by
  rw [rotl32_eq_rotateLeft, BitVec.getLsbD_rotateLeft]
  by_cases wraps : k < n % 32
  · rw [show (k + 32 - n % 32) % 32 = 32 - n % 32 + k by omega]
    simp [wraps]
  · rw [show (k + 32 - n % 32) % 32 = k - n % 32 by omega]
    simp [wraps, hk]

theorem getLsbD_rotr32 (x : Word) (n : Nat) {k : Nat} (hk : k < 32) :
    (rotr32 x n).getLsbD k = x.getLsbD ((k + n % 32) % 32) := by
  rw [rotr32_eq_rotateRight, BitVec.getLsbD_rotateRight]
  by_cases stays : k < 32 - n % 32
  · rw [show (k + n % 32) % 32 = n % 32 + k by omega]
    simp [stays]
  · rw [show (k + n % 32) % 32 = k - (32 - n % 32) by omega]
    simp [stays, hk]

/-- Settles O7: the formulas are the definitions', the bits those of the library's rotations. -/
theorem rotationsPermuteTheBits : Obligations.RotationsPermuteTheBits :=
  fun x n => ⟨rfl, rfl, fun _ hk => ⟨getLsbD_rotl32 x n hk, getLsbD_rotr32 x n hk⟩⟩

/-! ### The rotation laws (R123) -/

@[simp] theorem rotr32_rotl32 (x : Word) (n : Nat) : rotr32 (rotl32 x n) n = x := by
  refine BitVec.eq_of_getLsbD_eq fun k hk => ?_
  rw [getLsbD_rotr32 _ _ hk, getLsbD_rotl32 _ _ (by omega)]
  congr 1
  omega

@[simp] theorem rotl32_rotr32 (x : Word) (n : Nat) : rotl32 (rotr32 x n) n = x := by
  refine BitVec.eq_of_getLsbD_eq fun k hk => ?_
  rw [getLsbD_rotl32 _ _ hk, getLsbD_rotr32 _ _ (by omega)]
  congr 1
  omega

theorem rotl32_mod (x : Word) (n : Nat) : rotl32 x (n % 32) = rotl32 x n := by
  simp only [rotl32, Nat.mod_mod]

theorem rotl32_eq_rotr32 (x : Word) (n : Nat) : rotl32 x n = rotr32 x ((32 - n % 32) % 32) := by
  refine BitVec.eq_of_getLsbD_eq fun k hk => ?_
  rw [getLsbD_rotl32 _ _ hk, getLsbD_rotr32 _ _ hk]
  congr 1
  omega

theorem rotl32_rotl32 (x : Word) (n m : Nat) : rotl32 (rotl32 x n) m = rotl32 x (n + m) := by
  refine BitVec.eq_of_getLsbD_eq fun k hk => ?_
  rw [getLsbD_rotl32 _ _ hk, getLsbD_rotl32 _ _ (by omega), getLsbD_rotl32 _ _ hk]
  congr 1
  omega

theorem rotl32_xor (x y : Word) (n : Nat) : rotl32 (x ^^^ y) n = rotl32 x n ^^^ rotl32 y n := by
  refine BitVec.eq_of_getLsbD_eq fun k hk => ?_
  simp only [BitVec.getLsbD_xor, getLsbD_rotl32 _ _ hk]

/-- A right rotation rotates the list of the bits, least significant first. -/
theorem bits_rotr32 (x : Word) (n : Nat) :
    (List.range 32).map (rotr32 x n).getLsbD = ((List.range 32).map x.getLsbD).rotate n := by
  refine List.ext_getElem (by simp) fun k hk _ => ?_
  rw [List.length_map, List.length_range] at hk
  simp [List.getElem_rotate, getLsbD_rotr32 x n hk]

theorem countP_rotr32 (x : Word) (n : Nat) :
    (List.range 32).countP (rotr32 x n).getLsbD = (List.range 32).countP x.getLsbD := by
  have same := (List.rotate_perm ((List.range 32).map x.getLsbD) n).countP_eq id
  rw [← bits_rotr32] at same
  simpa only [List.countP_map, Function.id_comp] using same

/-- Left rotation keeps the number of 1 bits because the right rotation that undoes it does. -/
theorem countP_rotl32 (x : Word) (n : Nat) :
    (List.range 32).countP (rotl32 x n).getLsbD = (List.range 32).countP x.getLsbD := by
  rw [← countP_rotr32 (rotl32 x n) n, rotr32_rotl32]

/-- Settles O8, law by law. -/
theorem rotationLawsHold : Obligations.RotationLawsHold :=
  fun x y n m => ⟨rotr32_rotl32 x n, rotl32_rotr32 x n, (rotl32_mod x n).symm, rotl32_eq_rotr32 x n, rotl32_rotl32 x n m,
    rfl, rfl, rotl32_xor x y n, countP_rotl32 x n⟩

/-! ### NOP, ROTL and ROTR (R125 to R127) -/

/-- Settles O9: each body ends, in the state it names. -/
theorem nopRotlRotrResults : Obligations.NopRotlRotrResults :=
  fun _ => ⟨exec_of_ok rfl, exec_of_ok rfl, exec_of_ok rfl⟩

end Sys2Proof.Machine
end

section
/-!
The key schedule (R141 to R150): the seed in closed form, the length and the definedness of `GenSched`, and the key commands by
`scheduleFromMaterial_eq`, which says in one chain what their common part raises and in which order.
-/

namespace Sys2Proof.Machine

/-! ### MCLR (R148) -/

/-- Settles O10: the cleared buffer lists no byte, so each reads 0. -/
theorem mclrClearsTheMaterial : Obligations.MclrClearsTheMaterial :=
  fun s => ⟨s.clearMaterial, exec_of_ok rfl, fun _ => rfl, rfl, rfl⟩

/-! ### The seed (R143) -/

@[simp] theorem seedFrom_length (x : Word) (n : Nat) : (seedFrom x n).length = n := by
  induction n generalizing x with
  | zero => rfl
  | succ n ih => simp [seedFrom, ih]

@[simp] theorem seed_length (t : Nat) : (seed t).length = t := seedFrom_length p32 t

/-- Seed word `i` is `i` increments past the first. -/
theorem seedFrom_getD (x : Word) {n i : Nat} (hi : i < n) : (seedFrom x n).getD i 0 = x + BitVec.ofNat 32 i * q32 := by
  induction n generalizing x i with
  | zero => omega
  | succ n ih =>
    cases i with
    | zero => simp [seedFrom]
    | succ i =>
      rw [seedFrom, List.getD_cons_succ, ih (x + q32) (by omega), BitVec.ofNat_add, BitVec.add_mul, BitVec.one_mul]
      ac_rfl

/-- Settles O13: the increments of R143 add up to a product. -/
theorem seedHasItsClosedForm : Obligations.SeedHasItsClosedForm := by
  refine fun t i => ⟨seed_length t, fun hi => ?_⟩
  rw [seed, seedFrom_getD p32 hi, BitVec.ofNat_add, BitVec.ofNat_mul]
  rfl

/-! ### `GenSched` (R144 to R146) -/

theorem mixLoop_sch_length (t c v : Nat) (x : Mixing) : (mixLoop t c v x).sch.length = x.sch.length := by
  induction v generalizing x with
  | zero => rfl
  | succ v ih => rw [mixLoop, ih, mixStep, List.length_set]

@[simp] theorem mix_length (s l : List Word) : (mix s l).length = s.length := mixLoop_sch_length _ _ _ _

theorem genSched_length {m : List Byte} {r : Nat} {hex : Bool} {sched : List Word} (h : genSched m r hex = some sched) :
    sched.length = 2 * r + 4 := by
  obtain ⟨key, _, rfl⟩ := Option.map_eq_some_iff.1 h
  rw [mix_length, seed_length, scheduleLength]

/-- `GenSched` is undefined exactly where R98 rejects the material. -/
theorem genSched_eq_none_iff (m : List Byte) (r : Nat) (hex : Bool) :
    genSched m r hex = none ↔ hex = true ∧ ∃ v ∈ m, hexVal v = none := by
  rw [genSched, Option.map_eq_none_iff]
  cases hex with
  | false => simp [keyBytes]
  | true => simp [keyBytes, hexDigits_eq_none_iff]

/-- Settles O14: no bytes are the key bytes in both modes, and the schedule for one round is evaluated. -/
theorem emptyMaterialHasOneSchedule : Obligations.EmptyMaterialHasOneSchedule :=
  ⟨fun _ => ⟨rfl, rfl⟩, by decide⟩

/-! ### The schedule from the material: its faults in order (R147, R149, R150) -/

/-- The common part of the key commands, with its faults in their order of priority; it leaves the state as it was. -/
theorem scheduleFromMaterial_eq (hex : Bool) (b : BankId) (s : State) :
    scheduleFromMaterial hex b s =
      if (s.bank b).rounds.toNat = 0 then .raised .inputRounds s
      else if s.params.rMax < (s.bank b).rounds.toNat then .raised .roundsUnsupported s
      else if s.params.mMax < s.mlen.toNat then .raised .mbufOverflow s
      else (genSched s.material (s.bank b).rounds.toNat hex).elim (.raised .inputHex s) (.ok · s) := by
  by_cases h0 : (s.bank b).rounds.toNat = 0
  · simp [scheduleFromMaterial, checkRounds, h0]
  have h1 : 1 ≤ (s.bank b).rounds.toNat := Nat.one_le_iff_ne_zero.2 h0
  by_cases hr : s.params.rMax < (s.bank b).rounds.toNat
  · simp [scheduleFromMaterial, checkRounds, h0, h1, hr, Nat.not_le.2 hr]
  by_cases hm : s.params.mMax < s.mlen.toNat
  · simp [scheduleFromMaterial, checkRounds, checkMlen, h0, h1, hr, Nat.not_lt.1 hr, hm, Nat.not_le.2 hm]
  cases hg : genSched s.material (s.bank b).rounds.toNat hex <;>
    simp [scheduleFromMaterial, checkRounds, checkMlen, h0, h1, hr, Nat.not_lt.1 hr, hm, Nat.not_lt.1 hm, hg]

/-- GEN_SCHED's clearing of `KVALID[b]` (R149) has no influence on the common part. -/
theorem scheduleFromMaterial_invalidate (hex : Bool) (b : BankId) (s : State) :
    scheduleFromMaterial hex b (s.invalidate b) = (scheduleFromMaterial hex b s).mapState (·.invalidate b) := by
  simp only [scheduleFromMaterial_eq, State.invalidate, bank_setBank_same, invalidate_rounds, setBank_params, setBank_mlen,
    setBank_material]
  split_ifs
  · rfl
  · rfl
  · rfl
  · cases genSched s.material (s.bank b).rounds.toNat hex <;> rfl

/-- Under legal inputs the common part ends, with the schedule. -/
theorem scheduleFromMaterial_ok {hex : Bool} {b : BankId} {s : State} (h1 : 1 ≤ (s.bank b).rounds.toNat)
    (hr : (s.bank b).rounds.toNat ≤ s.params.rMax) (hm : s.mlen.toNat ≤ s.params.mMax)
    (hd : hex = true → ∀ v ∈ s.material, hexVal v ≠ none) :
    ∃ sched, genSched s.material (s.bank b).rounds.toNat hex = some sched ∧ scheduleFromMaterial hex b s = .ok sched s := by
  have defined : genSched s.material (s.bank b).rounds.toNat hex ≠ none := fun h => by
    obtain ⟨hhex, v, hv, bad⟩ := (genSched_eq_none_iff _ _ _).1 h
    exact hd hhex v hv bad
  obtain ⟨sched, hg⟩ := Option.ne_none_iff_exists'.1 defined
  refine ⟨sched, hg, ?_⟩
  rw [scheduleFromMaterial_eq, if_neg (by omega), if_neg (by omega), if_neg (by omega), hg, Option.elim_some]

/-! ### The key commands (R149, R150) -/

/-- Settles O15: the common part ends with the schedule, and the last update of the bank overwrites the cleared validity. -/
theorem genSchedDerivesTheSchedule : Obligations.GenSchedDerivesTheSchedule := by
  intro hex b s h1 hr hm hd
  obtain ⟨sched, hg, hs⟩ := scheduleFromMaterial_ok h1 hr hm hd
  refine ⟨sched, hg, genSched_length hg, exec_of_ok ?_⟩
  show genSchedBody hex b s = _
  rw [genSchedBody, scheduleFromMaterial_invalidate, hs]
  cases b <;> rfl

/-- Settles O16: the common part's schedule is used once and goes nowhere but into the counter. -/
theorem nonceDeriveSetsTheCounter : Obligations.NonceDeriveSetsTheCounter := by
  intro hex b s h1 hr hm hd
  obtain ⟨sx, hg, hs⟩ := scheduleFromMaterial_ok h1 hr hm hd
  refine ⟨sx, hg, exec_of_ok ?_⟩
  show nonceDeriveBody hex b s = _
  rw [nonceDeriveBody, hs]
  rfl

/-- The fault entry clears both validities (R303), so one cleared before the `raise` does not show. -/
theorem faultEntry_invalidate (e : Cause) (c : Word) (b : BankId) (s : State) :
    faultEntry e c (s.invalidate b) = faultEntry e c s := by cases b <;> rfl

/-- What the common part raises is what the command raises, on the state as it was. -/
theorem exec_of_scheduleFromMaterial_raised {hex : Bool} {b : BankId} {s : State} {i : Instr} {e : Cause}
    (hi : i = .genSched hex b ∨ i = .nonceDerive hex b) (h : scheduleFromMaterial hex b s = .raised e s) :
    exec i s = .next (faultEntry e (encode i) s) := by
  rcases hi with rfl | rfl
  · have raised : genSchedBody hex b s = .raised e (s.invalidate b) := by
      rw [genSchedBody, scheduleFromMaterial_invalidate, h]
      rfl
    rw [← faultEntry_invalidate e _ b s]
    exact exec_of_raised raised
  · have raised : nonceDeriveBody hex b s = .raised e s := by rw [nonceDeriveBody, h, bind_raised]
    exact exec_of_raised raised

/-- Settles O17: each fault is a branch of the common part. -/
theorem keyCommandsFaultInOrder : Obligations.KeyCommandsFaultInOrder := by
  refine fun hex b s i hi => ⟨fun h0 => ?_, fun hr => ?_, fun h1 hr => ⟨fun hm => ?_, fun hm hhex bad => ?_⟩⟩ <;>
    refine exec_of_scheduleFromMaterial_raised hi ?_ <;> rw [scheduleFromMaterial_eq]
  · rw [if_pos (by simp [h0])]
  · rw [if_neg (by omega), if_pos hr]
  · rw [if_neg (by omega), if_neg (by omega), if_pos hm]
  · have undefined := (genSched_eq_none_iff s.material (s.bank b).rounds.toNat hex).2 ⟨hhex, bad⟩
    rw [if_neg (by omega), if_neg (by omega), if_neg (by omega), undefined, Option.elim_none]

end Sys2Proof.Machine
end

section
/-!
The block transform (R170 to R176): a round and its inverse cancel, so the rounds do, the last one undone first, and with them
the two transforms. RC6_ENC and RC6_DEC are one key check before one transform of `BLK`.
-/

namespace Sys2Proof.Machine

/-! ### The transforms undo each other (R173) -/

/-- A round leaves the two words that its masks and rotation amounts come from, so its inverse computes the same ones and each
of its additions, rotations and exclusive ors cancels. -/
@[simp] theorem decRound_encRound (k : Nat → Word) (i : Nat) (x : Block) : decRound k i (encRound k i x) = x := by
  simp [decRound, encRound]

@[simp] theorem encRound_decRound (k : Nat → Word) (i : Nat) (x : Block) : encRound k i (decRound k i x) = x := by
  simp [decRound, encRound]

@[simp] theorem decRounds_encRounds (k : Nat → Word) (r : Nat) (x : Block) : decRounds k r (encRounds k r x) = x := by
  induction r with
  | zero => rfl
  | succ r ih => rw [encRounds, decRounds, decRound_encRound, ih]

@[simp] theorem encRounds_decRounds (k : Nat → Word) (r : Nat) (x : Block) : encRounds k r (decRounds k r x) = x := by
  induction r generalizing x with
  | zero => rfl
  | succ r ih => rw [decRounds, encRounds, ih, encRound_decRound]

/-- The whitening before and after the rounds cancels as well. -/
@[simp] theorem rc6Dec_rc6Enc (k : Nat → Word) (r : Nat) (x : Block) : rc6Dec k r (rc6Enc k r x) = x := by
  simp only [rc6Dec, rc6Enc, BitVec.add_sub_cancel]
  rw [decRounds_encRounds]
  simp only [BitVec.add_sub_cancel]

@[simp] theorem rc6Enc_rc6Dec (k : Nat → Word) (r : Nat) (x : Block) : rc6Enc k r (rc6Dec k r x) = x := by
  simp only [rc6Dec, rc6Enc, BitVec.sub_add_cancel]
  rw [encRounds_decRounds]
  simp only [BitVec.sub_add_cancel]

/-- Settles O19: whitening and rounds cancel, in both orders. -/
theorem transformsAreInverse : Obligations.TransformsAreInverse :=
  fun k r x => ⟨rc6Dec_rc6Enc k r x, rc6Enc_rc6Dec k r x⟩

@[simp] theorem dec_enc (k : Bank) (x : Block) : k.dec (k.enc x) = x := rc6Dec_rc6Enc _ _ x

@[simp] theorem enc_dec (k : Bank) (x : Block) : k.enc (k.dec x) = x := rc6Enc_rc6Dec _ _ x

/-! ### RC6_ENC and RC6_DEC (R175, R176) -/

theorem requireKey_bind_of_kvalid {b : BankId} {s : State} {f : Unit → State → Run Unit} (h : (s.bank b).kvalid = true) :
    (requireKey b s).bind f = f () s := by rw [requireKey_of_kvalid h, bind_ok]

theorem exec_rc6Enc_of_kvalid {b : BankId} {s : State} (h : (s.bank b).kvalid = true) :
    exec (.rc6Enc b) s = .next (s.setBlk ((s.bank b).enc s.blk)) := exec_of_ok (requireKey_bind_of_kvalid h)

theorem exec_rc6Dec_of_kvalid {b : BankId} {s : State} (h : (s.bank b).kvalid = true) :
    exec (.rc6Dec b) s = .next (s.setBlk ((s.bank b).dec s.blk)) := exec_of_ok (requireKey_bind_of_kvalid h)

/-- RC6_DEC undoes RC6_ENC on the whole state: the encrypted state keeps the bank, its schedule and its validity. -/
theorem exec_rc6Dec_setBlk_enc {b : BankId} {s : State} (h : (s.bank b).kvalid = true) :
    exec (.rc6Dec b) (s.setBlk ((s.bank b).enc s.blk)) = .next s := by
  have valid : ((s.setBlk ((s.bank b).enc s.blk)).bank b).kvalid = true := by rw [setBlk_bank, h]
  rw [exec_rc6Dec_of_kvalid valid, setBlk_bank, setBlk_blk, dec_enc, setBlk_setBlk, setBlk_blk_self]

/-- Settles O20: past the key check each command is one transform; before it, `E_NOKEY`. -/
theorem rc6CommandsTransformTheBlock : Obligations.Rc6CommandsTransformTheBlock := by
  refine fun b s => ⟨fun valid => ?_, fun invalid => ?_⟩
  · exact ⟨exec_rc6Enc_of_kvalid valid, exec_rc6Dec_of_kvalid valid, _, exec_rc6Enc_of_kvalid valid, exec_rc6Dec_setBlk_enc valid⟩
  · exact ⟨commandsWithoutScheduleRaiseNoKey _ s ⟨b, by simp [keyedBanks], invalid⟩,
      commandsWithoutScheduleRaiseNoKey _ s ⟨b, by simp [keyedBanks], invalid⟩⟩

end Sys2Proof.Machine
end

section
/-!
The hybrid mode (R190 to R196): the counter step by the word where its carry stops, unsealing as the inverse of sealing at one
counter, and HYB_ENC and HYB_DEC as one key check before `hybEncBlk_eq` and `hybDecBlk_eq`.
-/

namespace Sys2Proof.Machine

/-! ### The counter step (R190) -/

theorem ctrInc_of_stop_w0 {c : Block} (h0 : c.w0 + 1 ≠ 0) : ctrInc c = { c with w0 := c.w0 + 1 } := if_pos h0

theorem ctrInc_of_stop_w1 {c : Block} (h0 : c.w0 + 1 = 0) (h1 : c.w1 + 1 ≠ 0) :
    ctrInc c = { c with w0 := 0, w1 := c.w1 + 1 } := by
  simp only [ctrInc, h0, h1, ne_eq, not_true, not_false_iff, if_true, if_false]

theorem ctrInc_of_stop_w2 {c : Block} (h0 : c.w0 + 1 = 0) (h1 : c.w1 + 1 = 0) (h2 : c.w2 + 1 ≠ 0) :
    ctrInc c = { c with w0 := 0, w1 := 0, w2 := c.w2 + 1 } := by
  simp only [ctrInc, h0, h1, h2, ne_eq, not_true, not_false_iff, if_true, if_false]

/-- The carry reaches the last word, out of which it is dropped. -/
theorem ctrInc_of_reach_w3 {c : Block} (h0 : c.w0 + 1 = 0) (h1 : c.w1 + 1 = 0) (h2 : c.w2 + 1 = 0) :
    ctrInc c = ⟨0, 0, 0, c.w3 + 1⟩ := by
  simp only [ctrInc, h0, h1, h2, ne_eq, not_true, if_false]

/-- Settles O21, by the word where the carry stops: each word below it falls from its greatest value to 0, and what they lose, plus
1, is the weight that word gains; a carry out of word 3 is what the modulus drops. -/
theorem counterStepIsPlusOne : Obligations.CounterStepIsPlusOne := by
  intro c
  unfold counterValue
  by_cases h0 : c.w0 + 1 = 0
  · by_cases h1 : c.w1 + 1 = 0
    · by_cases h2 : c.w2 + 1 = 0
      · rw [ctrInc_of_reach_w3 h0 h1 h2]
        bv_omega
      · rw [ctrInc_of_stop_w2 h0 h1 h2]
        bv_omega
    · rw [ctrInc_of_stop_w1 h0 h1]
      bv_omega
  · rw [ctrInc_of_stop_w0 h0]
    bv_omega

/-! ### HYB_ENC, HYB_DEC and CTR_INC (R194 to R196) -/

theorem exec_hybEnc_of_kvalid {b : BankId} {s : State} (h : (s.bank b).kvalid = true) :
    exec (.hybEnc b) s = .next ((s.setBank b ((s.bank b).advance 1)).setBlk ((s.bank b).seal s.blk)) := by
  rw [← hybEncBlk_eq]
  exact exec_of_ok (requireKey_bind_of_kvalid h)

theorem exec_hybDec_of_kvalid {b : BankId} {s : State} (h : (s.bank b).kvalid = true) :
    exec (.hybDec b) s = .next ((s.setBank b ((s.bank b).advance 1)).setBlk ((s.bank b).unseal s.blk)) := by
  rw [← hybDecBlk_eq]
  exact exec_of_ok (requireKey_bind_of_kvalid h)

/-- Settles O22: past the key check HYB_ENC and HYB_DEC seal and unseal; CTR_INC has no key check. -/
theorem hybridCommandResults : Obligations.HybridCommandResults :=
  fun _ _ => ⟨fun valid => ⟨exec_hybEnc_of_kvalid valid, exec_hybDec_of_kvalid valid⟩, exec_of_ok rfl⟩

/-! ### Unsealing undoes sealing (R193 a) -/

@[simp] theorem xorBlock_xorBlock_self (x y : Block) : xorBlock (xorBlock x y) y = x := by
  simp [xorBlock]

/-- At one counter both directions use one keystream block, so it cancels once the block cipher is undone. -/
@[simp] theorem unseal_seal (k : Bank) (x : Block) : k.unseal (k.seal x) = x := by
  rw [Bank.unseal, Bank.seal, dec_enc, xorBlock_xorBlock_self]

/-- Settles O23: bank `d` of `u` is the bank that sealed, so it unseals at the same counter and makes the same counter step. -/
theorem hybDecUndoesHybEnc : Obligations.HybDecUndoesHybEnc := by
  intro b d s t u valid run hblk hbank
  rw [exec_hybEnc_of_kvalid valid] at run
  cases run
  rw [setBlk_blk] at hblk
  have valid' : (u.bank d).kvalid = true := by rw [hbank, valid]
  rw [exec_hybDec_of_kvalid valid', hbank, hblk, unseal_seal, setBlk_bank, bank_setBank_same]

end Sys2Proof.Machine
end

section
/-!
Writing a header and the faults of reading one (R211 to R214, R219, R306): each body is followed to its end or its `raise` on the
bytes that the source delivers, and a header that HDR_WRITE wrote is an input of HDR_READ and PWC_VERIFY.
-/

namespace Sys2Proof.Machine

/-! ### HDR_WRITE (R211) -/

/-- HDR_WRITE on a sink that accepts: the header, then the password check, which stays in `BLK`. -/
theorem exec_hdrWrite_accepts {b : BankId} {s : State} (valid : (s.bank b).kvalid = true) (ha : s.ports.sinkAccepts) :
    exec (.hdrWrite b) s =
      .next (((s.setBank b ((s.bank b).advance 1)).setBlk ((s.bank b).seal Block.zero)).setPorts
        (s.ports.afterWrites (headerBytes s.params (s.bank b) ++ bytesOfBlock ((s.bank b).seal Block.zero)))) := by
  refine exec_of_ok ?_
  show hdrWriteBody b s = _
  rw [hdrWriteBody, requireKey_bind_of_kvalid valid, snkBytes_accepts _ _ ha, bind_ok, hybEncBlk_eq, snkBlock,
    snkBytes_accepts _ _ (by simpa using sinkAccepts_afterWrites ha _)]
  simp [afterWrites_append]

/-- Settles O25: the bytes are those of R101, in order. -/
theorem hdrWriteEmitsTheHeader : Obligations.HdrWriteEmitsTheHeader := by
  refine fun b s valid ha => ⟨_, exec_hdrWrite_accepts valid ha, rfl, rfl, ?_⟩
  rw [setPorts_ports, afterWrites_output]
  simp [headerBytes]

/-! ### PWC_VERIFY (R214) -/

/-- PWC_VERIFY on 16 bytes: the counter steps, and what decides is the comparison with the check. -/
theorem pwcVerifyBody_of_read {b : BankId} {s : State} {p more : List Byte} (valid : (s.bank b).kvalid = true)
    (hp : p.length = 16) (h : deliver s.ports.src = p ++ more) :
    pwcVerifyBody b s = require (decide ((s.bank b).seal Block.zero = blockOfBytes p)) .auth
      (((s.setBank b ((s.bank b).advance 1)).setBlk ((s.bank b).seal Block.zero)).setPorts (s.ports.afterRead 16)) := by
  rw [pwcVerifyBody, requireKey_bind_of_kvalid valid, srcBytes_of_append h hp, bind_ok]
  simp [hybEncBlk_eq]

/-- PWC_VERIFY on the right check. -/
theorem exec_pwcVerify_of_check {b : BankId} {s : State} {more : List Byte} (valid : (s.bank b).kvalid = true)
    (h : deliver s.ports.src = bytesOfBlock ((s.bank b).seal Block.zero) ++ more) :
    exec (.pwcVerify b) s =
      .next (((s.setBank b ((s.bank b).advance 1)).setBlk ((s.bank b).seal Block.zero)).setPorts (s.ports.afterRead 16)) := by
  refine exec_of_ok ((pwcVerifyBody_of_read valid (bytesOfBlock_length _) h).trans ?_)
  rw [blockOfBytes_bytesOfBlock, decide_eq_true rfl, require_true]

/-- Settles O28: the three ways the read of 16 bytes and the comparison can go. -/
theorem pwcVerifyComparesTheCheck : Obligations.PwcVerifyComparesTheCheck := by
  refine fun b s valid => ⟨fun p more hp h => ?right, fun p more hp hne h => ?wrong, fun short => ?tooFew⟩
  case right =>
    subst hp
    have hl : 16 ≤ (deliver s.ports.src).length := by simp [h]
    exact ⟨_, exec_pwcVerify_of_check valid h, afterRead_src_le hl, afterRead_snk _ _, afterRead_output _ _⟩
  case wrong =>
    have differs : ¬ (s.bank b).seal Block.zero = blockOfBytes p := fun heq =>
      hne (by rw [heq, bytesOfBlock_blockOfBytes hp])
    have body : bodyOf (.pwcVerify b) s = _ := pwcVerifyBody_of_read valid hp h
    rw [decide_eq_false differs, require_false] at body
    exact ⟨s.ports.afterRead 16, (exec_of_raised body).trans rfl, afterRead_src_le (by simp [h, hp]), afterRead_output _ _⟩
  case tooFew =>
    have body : pwcVerifyBody b s = .raised .ioRead (s.setPorts (s.ports.afterRead 16)) := by
      rw [pwcVerifyBody, requireKey_bind_of_kvalid valid, srcBytes_eq, if_neg (Nat.not_le.2 short), bind_raised]
    exact ⟨_, exec_of_raised body, afterRead_src_gt short, afterRead_output _ _⟩

/-! ### The faults of HDR_READ (R212, R306) -/

/-- A byte in the count that is neither a digit nor the terminator. -/
theorem readCount_badByte {text rest : List Byte} {ds : List Nat} {v : Byte} {s : State} (hd : hexDigits text = some ds)
    (hv : v ≠ 0) (bad : hexVal v = none) (h : deliver s.ports.src = text ++ v :: rest) :
    readCount (readBound s) 0 0 s = .raised .fmtRounds (s.setPorts (s.ports.afterRead (text.length + 1))) := by
  have hl : text.length ≤ (deliver s.ports.src).length := by simp [h]
  obtain ⟨fuel, hfuel⟩ := readBound_split hl
  have atByte : deliver (s.setPorts (s.ports.afterRead text.length)).ports.src = v :: rest := deliver_afterRead_append _ h rfl
  rw [hfuel, readCount_digits hd (fuel + 1) 0 0 h]
  simp only [readCount, srcByte_of_cons atByte, bind_ok, hv, if_false, bad, setPorts_ports, setPorts_setPorts, afterRead_add 1 hl]

/-- Input that ends in the count. -/
theorem readCount_end {text : List Byte} {ds : List Nat} {s : State} (hd : hexDigits text = some ds)
    (h : deliver s.ports.src = text) :
    readCount (readBound s) 0 0 s = .raised .ioRead (s.setPorts (s.ports.afterRead (text.length + 1))) := by
  have hl : text.length ≤ (deliver s.ports.src).length := by simp [h]
  obtain ⟨fuel, hfuel⟩ := readBound_split hl
  have atEnd : deliver (s.setPorts (s.ports.afterRead text.length)).ports.src = [] :=
    deliver_afterRead_append text (by simpa using h) rfl
  rw [hfuel, readCount_digits hd (fuel + 1) 0 0 (rest := []) (by simpa using h)]
  simp only [readCount, srcByte_of_nil atEnd, bind_raised, setPorts_ports, setPorts_setPorts, afterRead_add 1 hl]

/-- A count without digits has the value 0 too, so its value decides. -/
theorem checkCount_zero (q : Nat) (s : State) : checkCount 0 q s = .raised .fmtRounds s := by
  by_cases hq : 1 ≤ q <;> simp [checkCount, hq]

theorem checkCount_above {n q : Nat} {s : State} (hq : 1 ≤ q) (hn : 1 ≤ n) (habove : s.params.rMax < n) :
    checkCount n q s = .raised .roundsUnsupported s := by
  simp only [checkCount, hq, hn, decide_true, require_true, bind_ok, decide_eq_false (Nat.not_le.2 habove), require_false]

theorem length_pos_of_hexValue_pos {ds : List Nat} (h : 1 ≤ hexValue ds) : 1 ≤ ds.length := by
  cases ds with
  | nil => exact absurd h (by decide)
  | cons d ds => simp

/-- Behind the magic and the version comes the count. -/
theorem deliver_afterRead_version {s : State} {rest : List Byte}
    (h : deliver s.ports.src = s.params.magic.toList ++ s.params.version :: rest) : deliver (s.ports.afterRead 9).src = rest :=
  deliver_afterRead_append (s.params.magic.toList ++ [s.params.version]) (by simpa using h) (by simp)

/-- The end of HDR_READ (R212): the count `n` is stored, then the nonce is read. -/
def hdrReadNonce (b : BankId) (n : Nat) (s : State) : Run Unit :=
  (srcBytes 16 (s.setBank b { s.bank b with rounds := BitVec.ofNat 32 n })).bind fun p t =>
    .ok () (t.setBank b { t.bank b with ctr := blockOfBytes p })

/-- What HDR_READ does once the magic and the version are right (R212). -/
def hdrReadRest (b : BankId) (s : State) : Run Unit :=
  (readCount (readBound s) 0 0 s).bind fun nq t =>
  (checkCount nq.1 nq.2 t).bind fun _ u =>
  hdrReadNonce b nq.1 u

/-- The magic has been read; the version is to come. -/
theorem hdrReadBody_of_magic (b : BankId) {s : State} {rest : List Byte}
    (h : deliver s.ports.src = s.params.magic.toList ++ rest) :
    hdrReadBody b s = (srcByte ((s.invalidate b).setPorts (s.ports.afterRead 8))).bind fun v t =>
      (require (v == t.params.version) .fmtVersion t).bind fun _ u => hdrReadRest b u := by
  unfold hdrReadBody State.invalidate
  rw [readMagic_ok (by simpa using h), bind_ok, s.params.magic.length_toList, setBank_ports]
  rfl

/-- Past the magic the next byte decides. -/
theorem hdrReadBody_of_magic_cons (b : BankId) {s : State} {v : Byte} {rest : List Byte}
    (h : deliver s.ports.src = s.params.magic.toList ++ v :: rest) :
    hdrReadBody b s = (require (v == s.params.version) .fmtVersion ((s.invalidate b).setPorts (s.ports.afterRead 9))).bind
      fun _ u => hdrReadRest b u := by
  have hl : 8 ≤ (deliver s.ports.src).length := by simp [h]
  have atVersion : deliver (s.ports.afterRead 8).src = v :: rest :=
    deliver_afterRead_append _ h s.params.magic.length_toList
  rw [hdrReadBody_of_magic b h, srcByte_of_cons atVersion, bind_ok]
  simp [State.invalidate, afterRead_add 1 hl]

/-- The count with its terminator has been read; the checks and the nonce are to come. -/
theorem hdrReadRest_of_text (b : BankId) {s : State} {text rest : List Byte} {ds : List Nat} (hd : hexDigits text = some ds)
    (h : deliver s.ports.src = text ++ 0x00 :: rest) :
    hdrReadRest b s =
      (checkCount (hexValue ds) ds.length (s.setPorts (s.ports.afterRead (text.length + 1)))).bind fun _ u =>
        hdrReadNonce b (hexValue ds) u := by
  rw [hdrReadRest, readCount_text hd h, bind_ok]

/-- The fault entry clears both validities (R303), so HDR_READ's clearing of `KVALID[b]` does not show. -/
theorem exec_hdrRead_of_raised {b : BankId} {s u : State} {e : Cause} {q : Ports}
    (h : hdrReadBody b s = .raised e ((u.invalidate b).setPorts q)) :
    exec (.hdrRead b) s = .next (faultEntry e (encode (.hdrRead b)) (u.setPorts q)) := by
  have commute : (u.invalidate b).setPorts q = (u.setPorts q).invalidate b := by cases b <;> rfl
  rw [← faultEntry_invalidate e _ b, ← commute]
  exact exec_of_raised h

/-- What is raised in the magic. -/
theorem exec_hdrRead_of_magic_raised {b : BankId} {s : State} {e : Cause} {n : Nat}
    (hr : ∀ t : State, t.ports = s.ports →
      readMagic s.params.magic.toList t = .raised e (t.setPorts (t.ports.afterRead n))) :
    exec (.hdrRead b) s = .next (faultEntry e (encode (.hdrRead b)) (s.setPorts (s.ports.afterRead n))) := by
  have same : (s.invalidate b).ports = s.ports := setBank_ports _ _ _
  refine exec_hdrRead_of_raised ?_
  rw [hdrReadBody, hr _ same, bind_raised, same]

/-- What is raised behind the version, with nothing but the ports changed there. -/
theorem exec_hdrRead_of_rest_raised {b : BankId} {s : State} {rest : List Byte} {e : Cause} {n m : Nat} (hm : 9 + n = m)
    (h : deliver s.ports.src = s.params.magic.toList ++ s.params.version :: rest)
    (hr : ∀ t : State, deliver t.ports.src = rest → t.params = s.params →
      hdrReadRest b t = .raised e (t.setPorts (t.ports.afterRead n))) :
    exec (.hdrRead b) s = .next (faultEntry e (encode (.hdrRead b)) (s.setPorts (s.ports.afterRead m))) := by
  have hl : 9 ≤ (deliver s.ports.src).length := by simp [h]; omega
  refine exec_hdrRead_of_raised ?_
  rw [hdrReadBody_of_magic_cons b h, beq_self_eq_true, require_true, bind_ok, hr _ (deliver_afterRead_version h)
    (by simp [State.invalidate]), setPorts_setPorts, setPorts_ports, afterRead_add n hl, hm]

/-- Input that ends in the nonce: only the round count has been written. -/
theorem hdrReadRest_of_short_nonce (b : BankId) {s : State} {text nonce : List Byte} {ds : List Nat}
    (hd : hexDigits text = some ds) (hpos : 1 ≤ hexValue ds) (hmax : hexValue ds ≤ s.params.rMax) (hnonce : nonce.length < 16)
    (h : deliver s.ports.src = text ++ 0x00 :: nonce) :
    hdrReadRest b s = .raised .ioRead ((s.setBank b { s.bank b with rounds := BitVec.ofNat 32 (hexValue ds) }).setPorts
      (s.ports.afterRead (text.length + 1 + 16))) := by
  have hl : text.length + 1 ≤ (deliver s.ports.src).length := by simp [h]
  have atNonce : deliver (s.ports.afterRead (text.length + 1)).src = nonce :=
    deliver_afterRead_append (text ++ [0x00]) (by simpa using h) (by simp)
  rw [hdrReadRest_of_text b hd h, checkCount_ok (length_pos_of_hexValue_pos hpos) hpos (by simpa using hmax), bind_ok,
    hdrReadNonce, srcBytes_eq]
  simp [atNonce, Nat.not_le.2 hnonce, afterRead_add 16 hl]

/-- Settles O27, by the part of the header that decides: the magic, the version, the count's text, its value, the nonce. -/
theorem hdrReadFaults : Obligations.HdrReadFaults := by
  intro b s more raises ends
  simp only [List.append_assoc, List.cons_append, List.nil_append]
  have raised {e : Cause} {n : Nat} (hl : n ≤ (deliver s.ports.src).length)
      (h : exec (.hdrRead b) s = .next (faultEntry e (encode (.hdrRead b)) (s.setPorts (s.ports.afterRead n)))) : raises e n :=
    ⟨_, afterRead_src_le hl, afterRead_output _ _, h⟩
  have ended {u : State} {n : Nat} (hl : (deliver s.ports.src).length < n)
      (h : exec (.hdrRead b) s = .next (faultEntry .ioRead (encode (.hdrRead b)) (u.setPorts (s.ports.afterRead n)))) : ends u :=
    ⟨_, afterRead_src_gt hl, afterRead_output _ _, h⟩
  refine ⟨fun k v hk hv h => ?magic, fun v hv h => ?version, fun text ds v hd hv bad h => ?badByte,
    fun text ds hd hzero h => ?zero, fun text ds hd habove h => ?above, fun k hk h => ?endInMagic, fun text ds hd h => ?endBeforeTerminator,
    fun text ds nonce hd hpos hmax hnonce h => ?endInNonce⟩
  case magic =>
    exact raised (by simp [h]; omega)
      (exec_hdrRead_of_magic_raised fun t ht => readMagic_bad (by simpa using hk) hv (by rw [ht, h]))
  case version =>
    have differs : (v == s.params.version) = false := by simpa using hv
    refine raised (by simp [h]; omega) (exec_hdrRead_of_raised ?_)
    rw [hdrReadBody_of_magic_cons b h, differs, require_false, bind_raised]
  case badByte =>
    refine raised (by simp [h]; omega) (exec_hdrRead_of_rest_raised (n := text.length + 1) (by omega) h fun t ht hp => ?_)
    rw [hdrReadRest, readCount_badByte hd hv bad ht, bind_raised]
  case zero =>
    refine raised (by simp [h]; omega) (exec_hdrRead_of_rest_raised (n := text.length + 1) (by omega) h fun t ht hp => ?_)
    rw [hdrReadRest_of_text b hd ht, hzero, checkCount_zero, bind_raised]
  case above =>
    have hpos : 1 ≤ hexValue ds := by omega
    refine raised (by simp [h]; omega) (exec_hdrRead_of_rest_raised (n := text.length + 1) (by omega) h fun t ht hp => ?_)
    rw [hdrReadRest_of_text b hd ht, checkCount_above (length_pos_of_hexValue_pos hpos) hpos (by simpa [hp] using habove),
      bind_raised]
  case endInMagic =>
    exact ended (n := k + 1) (by simp [h])
      (exec_hdrRead_of_magic_raised fun t ht => readMagic_end (by simpa using hk) (by rw [ht, h]))
  case endBeforeTerminator =>
    rcases h with h | h
    · have atEnd : deliver (s.ports.afterRead 8).src = [] :=
        deliver_afterRead_append s.params.magic.toList (by simpa using h) (by simp)
      refine ended (n := 9) (by simp [h]) (exec_hdrRead_of_raised ?_)
      rw [hdrReadBody_of_magic b (rest := []) (by simpa using h), srcByte_of_nil atEnd, bind_raised, setPorts_setPorts,
        setPorts_ports, afterRead_add 1 (by simp [h])]
    · refine ended (n := 10 + text.length) (by simp [h]; omega)
        (exec_hdrRead_of_rest_raised (n := text.length + 1) (by omega) h fun t ht hp => ?_)
      rw [hdrReadRest, readCount_end hd ht, bind_raised]
  case endInNonce =>
    have hl : 9 ≤ (deliver s.ports.src).length := by simp [h]; omega
    refine ended (n := 9 + (text.length + 1 + 16)) (by simp [h]; omega) (exec_hdrRead_of_raised ?_)
    rw [hdrReadBody_of_magic_cons b h, beq_self_eq_true, require_true, bind_ok,
      hdrReadRest_of_short_nonce b hd hpos (by simpa [State.invalidate] using hmax) hnonce (deliver_afterRead_version h)]
    simp [State.invalidate, Bank.invalidate, afterRead_add _ hl]

/-! ### A header that HDR_WRITE wrote (R219) -/

/-- HDR_READ on a header that HDR_WRITE wrote for the bank `k`: the written round count is a text of digits with a legal value. -/
theorem exec_hdrRead_of_headerBytes (b : BankId) {s : State} {k : Bank} {more : List Byte} (hpos : 1 ≤ k.rounds.toNat)
    (hmax : k.rounds.toNat ≤ s.params.rMax) (h : deliver s.ports.src = headerBytes s.params k ++ more) :
    exec (.hdrRead b) s = .next ((s.setBank b { rounds := k.rounds, ctr := k.ctr, keys := [], kvalid := false }).setPorts
      (s.ports.afterRead (headerBytes s.params k).length)) := by
  have nonzero : k.rounds ≠ 0 := by intro h0; simp [h0] at hpos
  obtain ⟨ds, hd, hval, -, hne, -⟩ := writtenRoundCountIsShortestHex k.rounds nonzero
  have body := hdrReadBody_of_header b hd hne (by rwa [hval]) (by rwa [hval]) (bytesOfBlock_length k.ctr)
    (more := more) (by simpa [headerBytes] using h)
  have hlen : (headerBytes s.params k).length = 26 + (hexDigitsOf k.rounds).length := by simp [headerBytes]; omega
  rw [hlen]
  refine exec_of_ok (body.trans ?_)
  rw [hval, BitVec.ofNat_toNat, BitVec.setWidth_eq, blockOfBytes_bytesOfBlock]

/-- Settles O29: what HDR_WRITE writes is a header that HDR_READ accepts and then the check that PWC_VERIFY computes itself. -/
theorem ownHeaderIsReadBackAndAuthenticated : Obligations.OwnHeaderIsReadBackAndAuthenticated := by
  intro b d s u more valid ha hpos hmax hparams
  refine ⟨_, exec_hdrWrite_accepts valid ha, fun header hout h => ?_⟩
  rw [setPorts_ports, afterWrites_output, List.append_cancel_left_eq] at hout
  rw [← hout, ← hparams, List.append_assoc] at h
  have atCheck := deliver_afterRead_append _ h rfl
  refine ⟨_, exec_hdrRead_of_headerBytes d hpos hmax h, by simp, by simp, ?_⟩
  refine ⟨_, exec_pwcVerify_of_check (more := more) (by simpa using valid) (by simpa using atCheck), by simp, by simp, ?_⟩
  simpa using deliver_afterRead_append _ atCheck (bytesOfBlock_length _)

end Sys2Proof.Machine
end

section
/-!
Names in the container (R102, R216, R217): the block sequences of a text and of a name, sealing as the inverse of unsealing, and
NAME_DEC's loop followed over the blocks that hold no zero byte.
-/

namespace Sys2Proof.Machine

/-! ### The blocks of a text (R102) -/

theorem length_of_mem_wholeBlocks {p c : List Byte} (h : c ∈ wholeBlocks p) : c.length = 16 := by
  obtain ⟨k, hk, rfl⟩ := List.mem_map.1 h
  rw [List.mem_range] at hk
  simp only [chunk, List.length_take, List.length_drop]
  omega

/-- The blocks hold no other bytes than the text. -/
theorem mem_of_mem_wholeBlocks {p c : List Byte} {v : Byte} (h : c ∈ wholeBlocks p) (hv : v ∈ c) : v ∈ p := by
  obtain ⟨k, -, rfl⟩ := List.mem_map.1 h
  exact List.mem_of_mem_drop (List.mem_of_mem_take hv)

theorem flatten_wholeBlocks {p : List Byte} {n : Nat} (h : p.length = 16 * n) : (wholeBlocks p).flatten = p := by
  have e : 16 * (p.length / 16) = p.length := by omega
  have split := wholeBlocks_flatten p
  rwa [e, List.drop_length, List.append_nil] at split

/-- A text of whole blocks, and more behind it. -/
theorem wholeBlocks_append_whole {p : List Byte} {n : Nat} (h : p.length = 16 * n) (q : List Byte) :
    wholeBlocks (p ++ q) = wholeBlocks p ++ wholeBlocks q := by
  induction n generalizing p with
  | zero =>
    obtain rfl : p = [] := List.length_eq_zero_iff.1 h
    rfl
  | succ n ih =>
    have first : (p.take 16).length = 16 := by simp; omega
    rw [← List.take_append_drop 16 p, List.append_assoc, wholeBlocks_append first, wholeBlocks_append first,
      ih (by simp; omega), List.cons_append]

theorem wholeBlocks_singleton {p : List Byte} (h : p.length = 16) : wholeBlocks p = [p] := by
  rw [← List.append_nil p, wholeBlocks_append h]
  simp [wholeBlocks]

/-- A whole block of a text is the name block at its place. -/
theorem chunk_eq_nameBlock {p : List Byte} {k : Nat} (h : 16 * k + 16 ≤ p.length) : chunk p k = nameBlock p k := by
  refine List.ext_getElem (by simp [chunk]; omega) fun m h1 h2 => ?_
  have hm : 16 * k + m < p.length := by simp [chunk] at h1; omega
  simp [chunk, nameBlock, List.getD, hm]

/-- Zeros behind a name are what its blocks are filled with anyway. -/
theorem nameBlock_append_zeros (name : List Byte) {zs : List Byte} (hz : ∀ v ∈ zs, v = 0) (k : Nat) :
    nameBlock (name ++ zs) k = nameBlock name k := by
  refine List.map_congr_left fun m _ => ?_
  rcases lt_or_ge (16 * k + m) name.length with h | h
  · exact List.getD_append _ _ _ _ h
  · rw [List.getD_append_right _ _ _ _ h, List.getD_eq_default _ _ h, List.eq_replicate_of_mem hz,
      List.getD_eq_getElem?_getD, List.getElem?_getD_replicate_default_eq]

theorem wholeBlocks_eq_nameBlocks {name zs : List Byte} (hz : ∀ v ∈ zs, v = 0)
    (h : (name ++ zs).length = 16 * (name.length / 16 + 1)) : wholeBlocks (name ++ zs) = nameBlocks name := by
  have count : (name ++ zs).length / 16 = name.length / 16 + 1 := by omega
  rw [wholeBlocks, nameBlocks, count]
  refine List.map_congr_left fun k hk => ?_
  rw [List.mem_range] at hk
  rw [chunk_eq_nameBlock (by omega), nameBlock_append_zeros name hz]

/-! ### Sealing undoes unsealing (R193 c) -/

@[simp] theorem seal_unseal (k : Bank) (x : Block) : k.seal (k.unseal x) = x := by
  rw [Bank.seal, Bank.unseal, xorBlock_xorBlock_self, enc_dec]

theorem sealAll_unsealAll {k : Bank} {cs : List (List Byte)} (h : ∀ c ∈ cs, c.length = 16) :
    k.sealAll (k.unsealAll cs) = cs.flatten := by
  induction cs generalizing k with
  | nil => rfl
  | cons c cs ih =>
    rw [List.forall_mem_cons] at h
    rw [unsealAll_cons, sealAll_cons, blockOfBytes_bytesOfBlock, seal_unseal, bytesOfBlock_blockOfBytes h.1, ih h.2,
      List.flatten_cons]

theorem sealAll_append (k : Bank) (ps qs : List (List Byte)) :
    k.sealAll (ps ++ qs) = k.sealAll ps ++ (k.advance ps.length).sealAll qs := by
  induction ps generalizing k with
  | nil => rfl
  | cons p ps ih => rw [List.cons_append, sealAll_cons, sealAll_cons, ih, List.append_assoc, List.length_cons,
      ← advance_succ]

/-! ### NAME_ENC (R216) -/

/-- Past its two checks NAME_ENC's body is its loop, over the name's blocks from the first on. -/
theorem nameEncBody_of_fit {b : BankId} {s : State} (valid : (s.bank b).kvalid = true) (hfit : s.mlen.toNat ≤ s.params.mMax) :
    nameEncBody b s = nameEncLoop b s.name (s.name.length / 16 + 1) 0 s := by
  rw [nameEncBody, requireKey_bind_of_kvalid valid, checkMlen, decide_eq_true hfit, require_true, bind_ok]

/-- Settles O30: the loop's last state, with the block it leaves in `BLK`. -/
theorem nameEncWritesTheNameBlocks : Obligations.NameEncWritesTheNameBlocks := by
  intro b s valid hfit ha
  obtain ⟨q, x, run, hx, -, hsrc, hout⟩ := nameEncLoop_accepts b s.name (s.name.length / 16 + 1) 0 ha
  simp only [Nat.zero_add] at hx hout
  have last := hx _ rfl
  subst last
  exact ⟨_, exec_of_ok ((nameEncBody_of_fit valid hfit).trans run), rfl, hsrc, hout⟩

/-! ### NAME_DEC (R217) -/

theorem writeBytes_append (m : List Host.Cell) (a : Nat) (vs ws : List Byte) :
    Memory.writeBytes m a (vs ++ ws) = Memory.writeBytes (Memory.writeBytes m a vs) (a + vs.length) ws := by
  induction vs generalizing m a with
  | nil => rfl
  | cons v vs ih => rw [List.cons_append, Memory.writeBytes, Memory.writeBytes, ih, List.length_cons,
      Nat.add_right_comm, Nat.add_assoc]

/-- The buffer that was clear and got a text from index 0 on holds it, and zeros behind it. -/
theorem read_writeBytes_clear (vs : List Byte) (a : Nat) : Memory.read (Memory.writeBytes [] 0 vs) a = vs.getD a 0 := by
  rw [read_writeBytes 0 vs a rfl]
  split
  · rfl
  · next h => exact (List.getD_eq_default _ _ (by omega)).symm

/-- `s` after NAME_DEC has put the decrypted blocks `ps` into `MBUF` from `pos` on: one read of 16 bytes and one counter step a
block, the last one in `BLK` (R217). -/
def State.withNameBlocks (s : State) (b : BankId) (pos : Nat) (ps : List (List Byte)) : State :=
  { ((s.setBank b ((s.bank b).advance ps.length)).setBlk ((ps.getLast?.map blockOfBytes).getD s.blk)).setPorts
      (s.ports.afterRead (16 * ps.length)) with
    mbuf := Memory.writeBytes s.mbuf pos ps.flatten }

@[simp] theorem withNameBlocks_bank (s : State) (b : BankId) (pos : Nat) (ps : List (List Byte)) :
    (s.withNameBlocks b pos ps).bank b = (s.bank b).advance ps.length := by cases b <;> rfl

@[simp] theorem withNameBlocks_ports (s : State) (b : BankId) (pos : Nat) (ps : List (List Byte)) :
    (s.withNameBlocks b pos ps).ports = s.ports.afterRead (16 * ps.length) := rfl

@[simp] theorem withNameBlocks_params (s : State) (b : BankId) (pos : Nat) (ps : List (List Byte)) :
    (s.withNameBlocks b pos ps).params = s.params := by cases b <;> rfl

theorem withNameBlocks_nil (s : State) (b : BankId) (pos : Nat) : s.withNameBlocks b pos [] = s := by
  cases b <;> simp [State.withNameBlocks, Bank.advance, Memory.writeBytes] <;> rfl

theorem length_flatten_of_length_16 {ps : List (List Byte)} (h : ∀ p ∈ ps, p.length = 16) :
    ps.flatten.length = 16 * ps.length := by
  rw [List.length_flatten, List.map_congr_left h, List.map_const', List.sum_replicate, smul_eq_mul, Nat.mul_comm]

/-- Blocks and then more blocks behind them. -/
theorem withNameBlocks_append {s : State} {b : BankId} {pos : Nat} {ps : List (List Byte)} (qs : List (List Byte))
    (hlen : ∀ p ∈ ps, p.length = 16) (hl : 16 * ps.length ≤ (deliver s.ports.src).length) :
    (s.withNameBlocks b pos ps).withNameBlocks b (pos + 16 * ps.length) qs = s.withNameBlocks b pos (ps ++ qs) := by
  simp only [State.withNameBlocks, List.flatten_append, writeBytes_append, length_flatten_of_length_16 hlen, List.length_append,
    Nat.mul_add, ← afterRead_add _ hl, ← advance_add, List.getLast?_append]
  cases qs.getLast? <;> cases b <;> rfl

/-- One time round NAME_DEC's loop on the sealed form of the block `p`, which it unseals again. -/
theorem nameDecLoop_sealed (b : BankId) (fuel pos : Nat) {s : State} {p rest : List Byte} (hp : p.length = 16)
    (hfit : pos + 16 ≤ s.params.mMax) (h : deliver s.ports.src = bytesOfBlock ((s.bank b).seal (blockOfBytes p)) ++ rest) :
    nameDecLoop b (fuel + 1) pos s =
      if p.any (· == 0) then
        .ok () { s.withNameBlocks b pos [p] with mlen := BitVec.ofNat 32 (pos + (p.takeWhile (· != 0)).length) }
      else nameDecLoop b fuel (pos + 16) (s.withNameBlocks b pos [p]) := by
  have hx : (s.bank b).unseal (blockOfBytes ((deliver s.ports.src).take 16)) = blockOfBytes p := by
    rw [h, List.take_left' (bytesOfBlock_length _), blockOfBytes_bytesOfBlock, unseal_seal]
  have step := nameDecLoop_step b fuel pos hfit (by simp [h] : 16 ≤ (deliver s.ports.src).length)
  simp only [hx, bytesOfBlock_blockOfBytes hp] at step
  rw [step]
  simp [State.withNameBlocks]

/-- Blocks without a zero byte do not end the loop. -/
theorem nameDecLoop_noZero (b : BankId) (fuel : Nat) {pos : Nat} {ps : List (List Byte)} {s : State} {rest : List Byte}
    (hlen : ∀ p ∈ ps, p.length = 16) (hne : ∀ p ∈ ps, ∀ v ∈ p, v ≠ 0) (hfit : pos + 16 * ps.length ≤ s.params.mMax)
    (h : deliver s.ports.src = (s.bank b).sealAll ps ++ rest) :
    nameDecLoop b (fuel + ps.length) pos s = nameDecLoop b fuel (pos + 16 * ps.length) (s.withNameBlocks b pos ps) := by
  induction ps generalizing pos s with
  | nil => rw [withNameBlocks_nil]; rfl
  | cons p ps ih =>
    rw [List.forall_mem_cons] at hlen hne
    rw [List.length_cons] at hfit
    rw [sealAll_cons, List.append_assoc] at h
    have noZero : ¬ p.any (· == 0) = true := by simpa using fun h0 => hne.1 0 h0 rfl
    have behind : deliver (s.ports.afterRead 16).src = ((s.bank b).advance 1).sealAll ps ++ rest :=
      deliver_afterRead_append _ h (bytesOfBlock_length _)
    have first : ∀ q ∈ [p], q.length = 16 := by simpa using hlen.1
    have shift : pos + 16 + 16 * ps.length = pos + 16 * (ps.length + 1) := by omega
    rw [List.length_cons, ← Nat.add_assoc, nameDecLoop_sealed b _ pos hlen.1 (by omega) h, if_neg noZero,
      ih hlen.2 hne.2 (by rw [withNameBlocks_params]; omega) (by simpa using behind), shift]
    exact congrArg _ (withNameBlocks_append ps first (by simp [h]))

/-- NAME_DEC's body is its loop, in time for as many blocks as the source delivers. -/
theorem nameDecBody_of_blocks {b : BankId} {s : State} {ps : List (List Byte)} {rest : List Byte}
    (valid : (s.bank b).kvalid = true) (hlen : ∀ p ∈ ps, p.length = 16) (hne : ∀ p ∈ ps, ∀ v ∈ p, v ≠ 0)
    (hfit : 16 * ps.length ≤ s.params.mMax) (h : deliver s.ports.src = (s.bank b).sealAll ps ++ rest) :
    ∃ fuel, nameDecBody b s =
      nameDecLoop b (fuel + 1) (16 * ps.length) (s.clearMaterial.withNameBlocks b 0 ps) := by
  have hb := blocks_lt_readBound s
  rw [h, List.length_append, sealAll_length] at hb
  obtain ⟨fuel, hfuel⟩ : ∃ fuel, readBound s = fuel + 1 + ps.length := ⟨readBound s - (1 + ps.length), by omega⟩
  refine ⟨fuel, ?_⟩
  rw [nameDecBody, requireKey_bind_of_kvalid valid, hfuel,
    nameDecLoop_noZero b _ hlen hne (by simpa using hfit) (by simpa using h), Nat.zero_add]

/-- NAME_DEC's body on blocks without a zero byte and then one with a zero byte. -/
theorem nameDecBody_of_name {b : BankId} {s : State} {ps : List (List Byte)} {last more : List Byte}
    (valid : (s.bank b).kvalid = true) (hlen : ∀ p ∈ ps, p.length = 16) (hne : ∀ p ∈ ps, ∀ v ∈ p, v ≠ 0)
    (hlast : last.length = 16) (hz : 0 ∈ last) (hfit : 16 * ps.length + 16 ≤ s.params.mMax)
    (h : deliver s.ports.src = (s.bank b).sealAll (ps ++ [last]) ++ more) :
    nameDecBody b s = .ok () { s.clearMaterial.withNameBlocks b 0 (ps ++ [last]) with
      mlen := BitVec.ofNat 32 (16 * ps.length + (last.takeWhile (· != 0)).length) } := by
  rw [sealAll_append, List.append_assoc] at h
  have hl : 16 * ps.length ≤ (deliver s.ports.src).length := by simp [h, sealAll_length]
  have atLast : deliver (s.ports.afterRead (16 * ps.length)).src =
      bytesOfBlock (((s.bank b).advance ps.length).seal (blockOfBytes last)) ++ more :=
    (deliver_afterRead_append _ h (sealAll_length _ _)).trans (by simp [Bank.sealAll])
  have ends : last.any (· == 0) = true := by simpa using hz
  obtain ⟨fuel, body⟩ := nameDecBody_of_blocks valid hlen hne (by omega) h
  have joined := withNameBlocks_append (s := s.clearMaterial) (b := b) (pos := 0) [last] hlen hl
  rw [Nat.zero_add] at joined
  rw [body, nameDecLoop_sealed b fuel _ hlast (by simpa using hfit) (rest := more) (by simpa using atLast), if_pos ends, joined]

/-- A name ends at its first zero byte (R217). -/
theorem takeWhile_append_zero {name : List Byte} (hname : ∀ v ∈ name, v ≠ 0) (rest : List Byte) :
    (name ++ 0 :: rest).takeWhile (· != 0) = name := by
  rw [List.takeWhile_append_of_pos (by simpa using hname)]
  simp

/-- A text whose first zero byte stands in its last block: the blocks before it are the name's, the last one holds the name's
remainder. -/
theorem wholeBlocks_of_name {name rest : List Byte} {n : Nat} (hn : name.length / 16 = n)
    (hlen : (name ++ 0 :: rest).length = 16 * (n + 1)) :
    wholeBlocks (name ++ 0 :: rest) = wholeBlocks (name.take (16 * n)) ++ [name.drop (16 * n) ++ 0 :: rest] := by
  have hwhole : (name.take (16 * n)).length = 16 * n := by rw [List.length_take]; omega
  have hlast : (name.drop (16 * n) ++ 0 :: rest).length = 16 := by simp at hlen ⊢; omega
  have text : name ++ 0 :: rest = name.take (16 * n) ++ (name.drop (16 * n) ++ 0 :: rest) := by
    rw [← List.append_assoc, List.take_append_drop]
  rw [← wholeBlocks_singleton hlast, ← wholeBlocks_append_whole hwhole, ← text]

/-- Settles O31: the blocks before the last one hold no zero byte, and the last one ends the loop. -/
theorem nameDecRecoversTheName : Obligations.NameDecRecoversTheName := by
  intro b s name rest more valid hname hfit hsize hlen
  refine ⟨fun hz => wholeBlocks_eq_nameBlocks (by simpa using hz) hlen, fun h => ?_⟩
  obtain ⟨n, hn⟩ : ∃ n, name.length / 16 = n := ⟨_, rfl⟩
  rw [hn] at hfit hlen ⊢
  have blocks := wholeBlocks_of_name hn hlen
  have count : (wholeBlocks (name.take (16 * n))).length = n := by rw [wholeBlocks_length, List.length_take]; omega
  have hlast : name.drop (16 * n) ++ 0 :: rest = (name ++ 0 :: rest).drop (16 * n) :=
    (List.drop_append_of_le_length (by omega)).symm
  have remainder : (name.drop (16 * n) ++ 0 :: rest).takeWhile (· != 0) = name.drop (16 * n) :=
    takeWhile_append_zero (fun v hv => hname v (List.mem_of_mem_drop hv)) rest
  have flat : (wholeBlocks (name ++ 0 :: rest)).flatten = name ++ 0 :: rest := flatten_wholeBlocks hlen
  rw [blocks] at h
  have body := nameDecBody_of_name valid (fun p hp => length_of_mem_wholeBlocks hp)
    (fun p hp v hv => hname v (List.mem_of_mem_take (mem_of_mem_wholeBlocks hp hv)))
    (by rw [hlast, List.length_drop, hlen]; omega) (by simp) (by omega) h
  rw [← blocks, count, remainder] at body
  have hl : 16 * (n + 1) ≤ (deliver s.ports.src).length := by simp [h, sealAll_length, count]
  have number : (wholeBlocks (name ++ 0 :: rest)).length = n + 1 := by rw [wholeBlocks_length, hlen]; omega
  have lastBlock : ((wholeBlocks (name ++ 0 :: rest)).getLast?.map blockOfBytes).getD s.clearMaterial.blk =
      blockOfBytes ((name ++ 0 :: rest).drop (16 * n)) := by
    rw [blocks, List.getLast?_concat, hlast]
    rfl
  refine ⟨_, exec_of_ok body, ?_, fun a => ?_, ?_, ?_, ?_, ?_⟩
  · simp; omega
  · show Memory.read (Memory.writeBytes [] 0 (wholeBlocks (name ++ 0 :: rest)).flatten) a = _
    rw [flat, read_writeBytes_clear]
  · simp only [State.withNameBlocks, number, lastBlock]
    cases b <;> rfl
  · simp only [withNameBlocks_ports, number]
    exact afterRead_src_le hl
  · simp
  · simp

/-- Whatever NAME_DEC raises behind some blocks, the fault entry clears what it has put into `MBUF` and `BLK` (R303). -/
theorem faultEntry_withNameBlocks (e : Cause) (c : Word) (b : BankId) (ps : List (List Byte)) (s : State) :
    faultEntry e c (s.clearMaterial.withNameBlocks b 0 ps) =
      faultEntry e c ((s.setBank b ((s.bank b).advance ps.length)).setPorts (s.ports.afterRead (16 * ps.length))) := by
  cases b <;> rfl

/-- A block that does not fit is not read (R217). -/
theorem nameDecLoop_full (b : BankId) (fuel : Nat) {pos : Nat} {s : State} (full : s.params.mMax < pos + 16) :
    nameDecLoop b (fuel + 1) pos s = .raised .mbufOverflow s := by
  rw [nameDecLoop, decide_eq_false (Nat.not_le.2 full), require_false, bind_raised]

/-- Input that ends in a block that fits. -/
theorem nameDecLoop_short (b : BankId) (fuel : Nat) {pos : Nat} {s : State} (fits : pos + 16 ≤ s.params.mMax)
    (short : (deliver s.ports.src).length < 16) :
    nameDecLoop b (fuel + 1) pos s = .raised .ioRead (s.setPorts (s.ports.afterRead 16)) := by
  rw [nameDecLoop, decide_eq_true fits, require_true, bind_ok, srcBytes_eq, if_neg (Nat.not_le.2 short), bind_raised]

theorem exec_nameDec_of_full {b : BankId} {s : State} {ps : List (List Byte)} {rest : List Byte}
    (valid : (s.bank b).kvalid = true) (hlen : ∀ p ∈ ps, p.length = 16) (hne : ∀ p ∈ ps, ∀ v ∈ p, v ≠ 0)
    (hfit : 16 * ps.length ≤ s.params.mMax) (h : deliver s.ports.src = (s.bank b).sealAll ps ++ rest)
    (full : s.params.mMax < 16 * ps.length + 16) :
    exec (.nameDec b) s = .next (faultEntry .mbufOverflow (encode (.nameDec b))
      ((s.setBank b ((s.bank b).advance ps.length)).setPorts (s.ports.afterRead (16 * ps.length)))) := by
  obtain ⟨fuel, body⟩ := nameDecBody_of_blocks valid hlen hne hfit h
  rw [← faultEntry_withNameBlocks]
  exact exec_of_raised (body.trans (nameDecLoop_full b fuel (by simpa using full)))

theorem exec_nameDec_of_short {b : BankId} {s : State} {ps : List (List Byte)} {rest : List Byte}
    (valid : (s.bank b).kvalid = true) (hlen : ∀ p ∈ ps, p.length = 16) (hne : ∀ p ∈ ps, ∀ v ∈ p, v ≠ 0)
    (hfit : 16 * ps.length + 16 ≤ s.params.mMax) (h : deliver s.ports.src = (s.bank b).sealAll ps ++ rest)
    (short : rest.length < 16) :
    exec (.nameDec b) s = .next (faultEntry .ioRead (encode (.nameDec b))
      ((s.setBank b ((s.bank b).advance ps.length)).setPorts (s.ports.afterRead (16 * ps.length + 16)))) := by
  have hl : 16 * ps.length ≤ (deliver s.ports.src).length := by simp [h, sealAll_length]
  have atEnd : deliver (s.ports.afterRead (16 * ps.length)).src = rest := deliver_afterRead_append _ h (sealAll_length _ _)
  obtain ⟨fuel, body⟩ := nameDecBody_of_blocks valid hlen hne (by omega) h
  have raised := body.trans (nameDecLoop_short b fuel (by simpa using hfit) (by simpa [atEnd] using short))
  refine (exec_of_raised (i := .nameDec b) raised).trans ?_
  rw [← afterRead_add 16 hl]
  cases b <;> rfl

/-- Settles O32: the blocks read are the sealed form of what they decrypt to, and behind them the loop's next check, or its next
read, fails. -/
theorem nameDecFaults : Obligations.NameDecFaults := by
  intro b s n valid hfit hl hne
  have hwhole : ((deliver s.ports.src).take (16 * n)).length = 16 * n := by rw [List.length_take]; omega
  obtain ⟨ps, hps⟩ : ∃ ps, ps = (s.bank b).unsealAll (wholeBlocks ((deliver s.ports.src).take (16 * n))) := ⟨_, rfl⟩
  have hlen : ∀ p ∈ ps, p.length = 16 := fun p hp => length_of_mem_unsealAll (hps ▸ hp)
  have count : ps.length = n := by rw [hps, unsealAll_length, wholeBlocks_length, hwhole]; omega
  have h : deliver s.ports.src = (s.bank b).sealAll ps ++ (deliver s.ports.src).drop (16 * n) := by
    rw [hps, sealAll_unsealAll fun c hc => length_of_mem_wholeBlocks hc, flatten_wholeBlocks hwhole, List.take_append_drop]
  rw [← hps] at hne
  subst count
  refine ⟨fun full => ?_, fun fits short => ?_⟩
  · exact ⟨_, exec_nameDec_of_full valid hlen hne hfit h full, afterRead_src_le hl⟩
  · exact ⟨_, exec_nameDec_of_short valid hlen hne fits h (by rw [List.length_drop]; omega), afterRead_src_gt short⟩

end Sys2Proof.Machine
end

section
/-!
The stream commands (R252 to R257): where `Trim` cuts, unsealing block by block as the inverse of sealing, and each command's body
as its key check before its loop on a sink that accepts.
-/

namespace Sys2Proof.Machine

/-! ### Padding and trimming (R252) -/

theorem trim_append_zeros (r : List Byte) {v : Byte} (n : Nat) (hv : v ≠ 0) : trim (r ++ v :: List.replicate n 0) = some r := by
  have cut : (r ++ v :: List.replicate n 0).reverse.dropWhile (· == 0) = v :: r.reverse := by
    have zeros : ∀ z ∈ List.replicate n (0 : Byte), (z == 0) = true := fun z hz => beq_iff_eq.2 (List.eq_of_mem_replicate hz)
    rw [List.reverse_append, List.reverse_cons, List.append_assoc, List.reverse_replicate, List.dropWhile_append_of_pos zeros]
    exact List.dropWhile_cons_of_neg (by simpa using hv)
  rw [trim, cut]
  exact congrArg some r.reverse_reverse

theorem trim_of_zeros {d : List Byte} (h : ∀ v ∈ d, v = 0) : trim d = none := by
  have cut : d.reverse.dropWhile (· == 0) = [] := List.dropWhile_eq_nil_iff.2 (by simpa using h)
  rw [trim, cut]

/-- A byte sequence is zeros only, or it has a last nonzero byte. -/
theorem zeros_or_lastNonzero (d : List Byte) : (∀ v ∈ d, v = 0) ∨ ∃ r v n, v ≠ 0 ∧ d = r ++ v :: List.replicate n 0 := by
  induction d with
  | nil => exact .inl (by simp)
  | cons x d ih =>
    rcases ih with zeros | ⟨r, v, n, hv, rfl⟩
    · by_cases hx : x = 0
      · exact .inl (List.forall_mem_cons.2 ⟨hx, zeros⟩)
      · exact .inr ⟨[], x, d.length, hx, by rw [← List.eq_replicate_of_mem zeros, List.nil_append]⟩
    · exact .inr ⟨x :: r, v, n, hv, rfl⟩

theorem trim_eq_none_iff (d : List Byte) : trim d = none ↔ ∀ v ∈ d, v = 0 := by
  refine ⟨fun h => ?_, trim_of_zeros⟩
  rcases zeros_or_lastNonzero d with zeros | ⟨r, v, n, hv, rfl⟩
  · exact zeros
  · rw [trim_append_zeros r n hv] at h
    cases h

theorem trim_eq_some_iff (d r : List Byte) : trim d = some r ↔ ∃ v n, v ≠ 0 ∧ d = r ++ v :: List.replicate n 0 := by
  refine ⟨fun h => ?_, fun ⟨v, n, hv, hd⟩ => hd ▸ trim_append_zeros r n hv⟩
  rcases zeros_or_lastNonzero d with zeros | ⟨r', v, n, hv, rfl⟩
  · rw [trim_of_zeros zeros] at h
    cases h
  · rw [trim_append_zeros r' n hv] at h
    cases h
    exact ⟨v, n, hv, rfl⟩

theorem padBlock_length {p : List Byte} (h : p.length < 16) : (padBlock p).length = 16 := by
  simp only [padBlock, List.length_append, List.length_cons, List.length_replicate]
  omega

theorem trim_padBlock (p : List Byte) : trim (padBlock p) = some p := trim_append_zeros p _ (by decide)

/-- Settles O34: the marker is a nonzero byte, and a byte sequence without a last nonzero byte is zeros. -/
theorem trimUndoesPad : Obligations.TrimUndoesPad :=
  ⟨fun p hp => ⟨rfl, padBlock_length hp, trim_padBlock p⟩, trim_eq_none_iff, trim_eq_some_iff⟩

/-! ### TRIM_EMIT (R253) -/

theorem emitTrimmed_of_some {s : State} {d : List Byte} (h : trim (bytesOfBlock s.blk) = some d) (ha : s.ports.sinkAccepts) :
    emitTrimmed s = .ok () (s.setPorts (s.ports.afterWrites d)) := by
  rw [emitTrimmed, h]
  exact snkBytes_accepts d s ha

theorem emitTrimmed_of_none {s : State} (h : trim (bytesOfBlock s.blk) = none) : emitTrimmed s = .raised .fmtPad s := by
  rw [emitTrimmed, h]

/-- Settles O35: the trimmed bytes go to the sink, and the zero block has none. -/
theorem trimEmitWritesTheTrimmedBlock : Obligations.TrimEmitWritesTheTrimmedBlock := by
  refine fun s => ⟨fun d h ha => ?_, fun hz => exec_of_raised (i := .trimEmit) (emitTrimmed_of_none ?_)⟩
  · exact ⟨_, exec_of_ok (i := .trimEmit) (emitTrimmed_of_some h ha), rfl, afterWrites_output _ _⟩
  · rw [hz]
    exact trim_of_zeros (by decide)

/-! ### Unsealing undoes sealing block by block (R193 c) -/

/-- Cutting a sealed sequence into blocks again drops the stray bytes behind it (D18), and the counters step alike. -/
theorem unsealAll_wholeBlocks_sealAll {k : Bank} {ps : List (List Byte)} {stray : List Byte} (h : ∀ p ∈ ps, p.length = 16)
    (short : stray.length < 16) : k.unsealAll (wholeBlocks (k.sealAll ps ++ stray)) = ps := by
  induction ps generalizing k with
  | nil =>
    show k.unsealAll (wholeBlocks stray) = []
    rw [wholeBlocks_short short]
    rfl
  | cons p ps ih =>
    rw [List.forall_mem_cons] at h
    rw [sealAll_cons, List.append_assoc, wholeBlocks_append (bytesOfBlock_length _), unsealAll_cons, blockOfBytes_bytesOfBlock,
      unseal_seal, bytesOfBlock_blockOfBytes h.1, ih h.2]

theorem length_of_mem_paddedBlocks {p c : List Byte} (h : c ∈ paddedBlocks p) : c.length = 16 := by
  rcases List.mem_append.1 h with whole | last
  · exact length_of_mem_wholeBlocks whole
  · rw [List.mem_singleton.1 last]
    exact padBlock_length (by rw [List.length_drop]; omega)

/-! ### ENC_STREAM (R254) -/

/-- Settles O36: past its key check the body is its loop. -/
theorem encStreamSealsThePaddedInput : Obligations.EncStreamSealsThePaddedInput := by
  intro b s valid ha p
  obtain ⟨q, run, -, hsrc, hout⟩ := encLoop_accepts b ha rfl (blocks_lt_readBound s)
  have body : bodyOf (.encStream b) s = _ := (requireKey_bind_of_kvalid valid).trans run
  exact ⟨_, exec_of_ok body, hout, by rw [sealAll_length, paddedBlocks_length], hsrc, rfl⟩

/-! ### DEC_STREAM (R255) -/

section
variable {b : BankId} {s : State} {ps : List (List Byte)} {last : List Byte}

/-- DEC_STREAM's body on whole blocks: all but the last one written, the last one left to trim. -/
theorem decStreamBody_of_blocks (valid : (s.bank b).kvalid = true) (ha : s.ports.sinkAccepts)
    (hps : (s.bank b).unsealAll (wholeBlocks (deliver s.ports.src)) = ps ++ [last]) :
    ∃ q, decStreamBody b s =
        emitTrimmed (((s.setBank b ((s.bank b).advance (ps.length + 1))).setBlk (blockOfBytes last)).setPorts q) ∧
      q.sinkAccepts ∧ q.src = afterFail s.ports.src ∧ q.output = s.ports.output ++ ps.flatten := by
  have count : (deliver s.ports.src).length / 16 = ps.length + 1 := by
    rw [← wholeBlocks_length, ← unsealAll_length (s.bank b), hps, List.length_append, List.length_singleton]
  have hl : 16 ≤ (deliver s.ports.src).length := by omega
  have first : ((deliver s.ports.src).take 16).length = 16 := by rw [List.length_take]; omega
  have behind : deliver (s.setPorts (s.ports.afterRead 16)).ports.src = (deliver s.ports.src).drop 16 := deliver_afterRead hl
  obtain ⟨q, run, hsnk, hsrc, hout⟩ := decLoop_accepts (fuel := readBound s) (n := ps.length) b ((deliver s.ports.src).take 16)
    (s := s.setPorts (s.ports.afterRead 16)) (sinkAccepts_afterRead ha 16) (by rw [behind, List.length_drop]; omega)
    (by have := blocks_lt_readBound s; omega)
  rw [behind, setPorts_bank, ← wholeBlocks_cons hl, hps] at run hout
  refine ⟨q, ?_, hsnk, ?_, ?_⟩
  · simp only [decStreamBody, requireKey_bind_of_kvalid valid, tryReadBlock_eq, first, decide_true, require_true, bind_ok, run]
    simp
  · rw [hsrc, setPorts_ports, afterRead_src_le hl, afterFail_drop hl]
  · rw [hout, setPorts_ports, afterRead_output, List.take_left]

theorem decStreamBody_of_short (valid : (s.bank b).kvalid = true) (short : (deliver s.ports.src).length < 16) :
    decStreamBody b s = .raised .ioRead (s.setPorts (s.ports.afterRead 16)) := by
  have first : ¬ ((deliver s.ports.src).take 16).length = 16 := by rw [List.length_take]; omega
  simp only [decStreamBody, requireKey_bind_of_kvalid valid, tryReadBlock_eq, first, decide_false, require_false, bind_raised]

/-- The block left to trim is the last one. -/
theorem bytesOfBlock_blockOfBytes_last {k : Bank} {cs : List (List Byte)} (hps : k.unsealAll cs = ps ++ [last]) :
    bytesOfBlock (blockOfBytes last) = last :=
  bytesOfBlock_blockOfBytes (length_of_mem_unsealAll (hps ▸ List.mem_append_right ps (List.mem_singleton_self last)))

theorem exec_decStream_of_some {d : List Byte} (valid : (s.bank b).kvalid = true) (ha : s.ports.sinkAccepts)
    (hps : (s.bank b).unsealAll (wholeBlocks (deliver s.ports.src)) = ps ++ [last]) (ht : trim last = some d) :
    ∃ q, exec (.decStream b) s =
        .next (((s.setBank b ((s.bank b).advance (ps.length + 1))).setBlk (blockOfBytes last)).setPorts q) ∧
      q.output = s.ports.output ++ ps.flatten ++ d ∧ q.src = afterFail s.ports.src := by
  obtain ⟨q, body, hsnk, hsrc, hout⟩ := decStreamBody_of_blocks valid ha hps
  rw [← bytesOfBlock_blockOfBytes_last hps] at ht
  have ends := body.trans (emitTrimmed_of_some ht hsnk)
  exact ⟨_, exec_of_ok (i := .decStream b) ends, by rw [setPorts_ports, afterWrites_output, hout], hsrc⟩

/-- The fault entry clears the block that does not trim (R303). -/
theorem exec_decStream_of_none (valid : (s.bank b).kvalid = true) (ha : s.ports.sinkAccepts)
    (hps : (s.bank b).unsealAll (wholeBlocks (deliver s.ports.src)) = ps ++ [last]) (ht : trim last = none) :
    ∃ q, exec (.decStream b) s = .next (faultEntry .fmtPad (encode (.decStream b))
        ((s.setBank b ((s.bank b).advance (ps.length + 1))).setPorts q)) ∧
      q.output = s.ports.output ++ ps.flatten ∧ q.src = afterFail s.ports.src := by
  obtain ⟨q, body, -, hsrc, hout⟩ := decStreamBody_of_blocks valid ha hps
  rw [← bytesOfBlock_blockOfBytes_last hps] at ht
  have raised := body.trans (emitTrimmed_of_none ht)
  exact ⟨q, (exec_of_raised (i := .decStream b) raised).trans rfl, hout, hsrc⟩

end

/-- Settles O37: the unsealed blocks are the first `n - 1` and the last one, which trims or does not; without a block the first
read fails. -/
theorem decStreamUnsealsAndTrims : Obligations.DecStreamUnsealsAndTrims := by
  intro b s valid ha n ps last
  have count : ps.length = n := (unsealAll_length _ _).trans (wholeBlocks_length _)
  have split : 1 ≤ n → ps = ps.take (n - 1) ++ [last] := fun hn => by
    have hlast : n - 1 < ps.length := by omega
    have whole : ps.take (n - 1 + 1) = ps := List.take_of_length_le (by omega)
    rw [show last = ps[n - 1] from List.getD_eq_getElem _ _ hlast, List.take_append_getElem, whole]
  have number : 1 ≤ n → (ps.take (n - 1)).length + 1 = n := fun hn => by rw [List.length_take]; omega
  refine ⟨fun hn d ht => ?_, fun hn ht => ?_, fun hn => ?_⟩
  · obtain ⟨q, run, hout, hsrc⟩ := exec_decStream_of_some valid ha (split hn) ht
    rw [number hn] at run
    exact ⟨_, run, hout, hsrc, rfl⟩
  · have := exec_decStream_of_none valid ha (split hn) ht
    rwa [number hn] at this
  · have short : (deliver s.ports.src).length < 16 := by omega
    exact ⟨_, exec_of_raised (i := .decStream b) (decStreamBody_of_short valid short), afterRead_output _ _,
      afterRead_src_gt short⟩

/-- Settles O38: the blocks DEC_STREAM gets are the padded blocks that were sealed, of which the last one trims to the remainder. -/
theorem decStreamRecoversThePlaintext : Obligations.DecStreamRecoversThePlaintext := by
  intro b d s u stray valid hs hu hbank short
  obtain ⟨t, run, hout, -, -, ht⟩ := encStreamSealsThePaddedInput b s valid hs
  refine ⟨t, run, fun out written fed => ?_⟩
  obtain rfl : (s.bank b).sealAll (paddedBlocks (deliver s.ports.src)) = out := List.append_cancel_left (hout.symm.trans written)
  have hps : (u.bank d).unsealAll (wholeBlocks (deliver u.ports.src)) = paddedBlocks (deliver s.ports.src) := by
    rw [fed, hbank, unsealAll_wholeBlocks_sealAll (fun p hp => length_of_mem_paddedBlocks hp) short]
  have sealed : t.bank b = (s.bank b).advance ((deliver s.ports.src).length / 16 + 1) := by
    rw [ht, setPorts_bank, setBlk_bank]
    exact (bank_final_update (s.setBank b _) b true).trans (bank_setBank_same s b _)
  have valid' : (u.bank d).kvalid = true := by rw [hbank, valid]
  obtain ⟨q, run', hout', -⟩ := exec_decStream_of_some valid' hu hps (trim_padBlock _)
  refine ⟨_, run', ?_, ?_, ?_⟩
  · rw [setPorts_ports, hout', List.append_assoc, wholeBlocks_flatten]
  · rw [sealed, setPorts_bank, setBlk_bank, bank_setBank_same, wholeBlocks_length, hbank]
  · rw [setPorts_fault, setBlk_fault, setBank_fault]

/-! ### REENC_STREAM (R256) -/

/-- Settles O39: past its two key checks the body is its loop. -/
theorem reencStreamRekeysEveryBlock : Obligations.ReencStreamRekeysEveryBlock := by
  intro s valid0 valid1 ha cs
  obtain ⟨q, x, run, hx0, hx, hsrc, hout⟩ := reencLoop_accepts ha rfl (blocks_lt_readBound s)
  rw [← wholeBlocks_length] at run hx0 hx
  have body : bodyOf .reencStream s = _ :=
    (requireKey_bind_of_kvalid (b := .b0) valid0).trans ((requireKey_bind_of_kvalid (b := .b1) valid1).trans run)
  exact ⟨_, exec_of_ok body, hout, hsrc, rfl, fun empty => hx0 (List.length_eq_zero_iff.2 empty), hx⟩

/-- Settles O40: unsealing under bank 0 gives the blocks back that bank 0 sealed. -/
theorem reencryptionEqualsEncryption : Obligations.ReencryptionEqualsEncryption := by
  intro s ps stray valid0 valid1 ha hlen short fed
  obtain ⟨t, run, hout, -⟩ := reencStreamRekeysEveryBlock s valid0 valid1 ha
  rw [fed, unsealAll_wholeBlocks_sealAll hlen short] at hout
  exact ⟨t, run, hout⟩

end Sys2Proof.Machine
end

section
/-!
LOADM (R285, 46_operations.md): the host's writes of the material's words into `MBUF`, word by word, then of its length into
`MLEN`.
-/

namespace Sys2Proof.Machine

/-- Events done with success, then more events. -/
theorem hostEvents_append_of_next {es : List HostEvent} {s t : State} (h : hostEvents es s = .next t) (fs : List HostEvent) :
    hostEvents (es ++ fs) s = hostEvents fs t := by
  induction es generalizing s with
  | nil => cases h; rfl
  | cons e es ih =>
    simp only [List.cons_append, hostEvents] at h ⊢
    cases he : hostEvent e s with
    | next u => rw [he] at h; exact ih h
    | fault r => rw [he] at h; cases h
    | refused r => rw [he] at h; cases h

theorem hostEvents_singleton_of_next {e : HostEvent} {s t : State} (h : hostEvent e s = .next t) :
    hostEvents [e] s = .next t := by
  simp only [hostEvents, h]

/-- LOADM's first `n` writes: words 0 to `n - 1` of `x` into `MBUF`. -/
def wordWrites (x : List Byte) (n : Nat) : List HostEvent :=
  (List.range n).map fun q => .write (0x400 + 4 * q) 4 (wordAt x q)

theorem wordWrites_succ (x : List Byte) (n : Nat) :
    wordWrites x (n + 1) = wordWrites x n ++ [.write (Reg.mbuf n).offset 4 (wordAt x n)] := by
  simp only [wordWrites, List.range_succ, List.map_append, List.map_cons, List.map_nil, Reg.offset]

theorem loadMaterial_eq (x : List Byte) :
    loadMaterial x = wordWrites x ((x.length + 3) / 4) ++ [.write Reg.mlen.offset 4 (BitVec.ofNat 32 x.length)] := rfl

/-- After `n` word writes the buffer's first `4n` bytes are those of `x`, 0 beyond its end, and only the buffer has changed. -/
theorem hostEvents_wordWrites {s : State} (x : List Byte) {n : Nat} (hf : s.fault = false) (wf : Memory.wf s.mbuf = true)
    (hn : 4 * n ≤ s.params.mMax) :
    ∃ m, hostEvents (wordWrites x n) s = .next { s with mbuf := m } ∧ Memory.wf m = true ∧
      ∀ a < 4 * n, Memory.read m a = x.getD a 0 := by
  induction n with
  | zero => exact ⟨s.mbuf, rfl, wf, nofun⟩
  | succ n ih =>
    obtain ⟨m, run, wfm, written⟩ := ih (by omega)
    have present : (Reg.mbuf n).present s.params.mMax := by rintro _ ⟨⟩; exact hn
    have step := hostWrite_offset (s := { s with mbuf := m }) (wordAt x n) present hf nofun
    refine ⟨Memory.writeBytes m (4 * n) (bytesOfWord (wordAt x n)), ?_, writeBytes_wf _ _ wfm, fun a ha => ?_⟩
    · rw [wordWrites_succ, hostEvents_append_of_next run]
      exact hostEvents_singleton_of_next step
    · rw [read_writeWord _ _ _ wfm]
      split
      · rw [byteOfWord_wordAt x n (by omega), Nat.add_sub_cancel' (by omega)]
      · exact written a (by omega)

/-- The material is `x` as soon as `MLEN` is its length and the buffer begins with its bytes. -/
theorem material_eq {s : State} {x : List Byte} (hlen : s.mlen.toNat = x.length)
    (hread : ∀ a < x.length, Memory.read s.mbuf a = x.getD a 0) : s.material = x := by
  refine List.ext_getElem (by simp [State.material, hlen]) fun a _ ha => ?_
  simp [State.material, hread a ha, ha]

/-- Settles O54: the words cover `x`, since `M_MAX` is a whole number of words, and the length fits `MLEN`. -/
theorem loadmPlacesTheMaterial : Obligations.LoadmPlacesTheMaterial := by
  intro s x hf wf aligned fits short
  obtain ⟨m, run, -, written⟩ := hostEvents_wordWrites x (n := (x.length + 3) / 4) hf wf (by omega)
  have mlenWritten := hostWrite_offset (r := .mlen) (s := { s with mbuf := m }) (BitVec.ofNat 32 x.length) nofun hf nofun
  have hlen : (BitVec.ofNat 32 x.length).toNat = x.length := (BitVec.toNat_ofNat ..).trans (Nat.mod_eq_of_lt short)
  refine ⟨{ s with mbuf := m, mlen := BitVec.ofNat 32 x.length }, ?_, ?_, rfl, hlen⟩
  · rw [loadMaterial_eq, hostEvents_append_of_next run]
    exact hostEvents_singleton_of_next mlenWritten
  · exact material_eq hlen fun a ha => written a (by omega)

end Sys2Proof.Machine
end

section
/-!
The state a raise leaves (R303, 60_exceptions.md): the fields of CAUSE one by one, and what the fault entry clears and keeps.
-/

namespace Sys2Proof.Machine

/-- CODE, bits 7:0, is the cause's code: the other fields start at bit 8 (R33, R303). -/
theorem causeWord_code (e : Cause) (c : Word) : (causeWord e c).extractLsb' 0 8 = causeCode e := by
  ext i hi
  have word : i < 32 := by omega
  have bank : i < 16 := by omega
  have hex : i < 17 := by omega
  simp [causeWord, hi, word, bank, hex]

/-- FOP, bits 15:8, is the opcode of the command word (R33, R303). -/
theorem causeWord_fop (e : Cause) (c : Word) : (causeWord e c).extractLsb' 8 8 = c.extractLsb' 0 8 := by
  ext i hi
  have word : i < 32 ∧ 8 + i < 32 := by omega
  have bank : 8 + i < 16 := by omega
  have hex : 8 + i < 17 := by omega
  simp [causeWord, hi, word, bank, hex]

/-- FBANK, bit 16, is bit 9 of the command word (R33, R303). -/
theorem causeWord_fbank (e : Cause) (c : Word) : (causeWord e c).getLsbD 16 = c.getLsbD 9 := by
  simp [causeWord]

/-- FHEX, bit 17, is bit 8 of the command word (R33, R303). -/
theorem causeWord_fhex (e : Cause) (c : Word) : (causeWord e c).getLsbD 17 = c.getLsbD 8 := by
  simp [causeWord]

/-- Settles O44: the fields of CAUSE are those of `causeWord`; the rest the fault entry clears or leaves. -/
theorem faultEntryState : Obligations.FaultEntryState := by
  intro e c s t
  exact ⟨rfl, causeWord_code e c, causeWord_fop e c, causeWord_fbank e c, causeWord_fhex e c, causeWord_reserved e c,
    fun _ => rfl, rfl, rfl, rfl, fun b => by simp [t, faultEntry_bank], rfl⟩

end Sys2Proof.Machine
end

section
/-!
No key material outlives its use (R350): GEN_SCHED and NONCE_DERIVE both end by clearing the material buffer, and the fault entry
clears it too.
-/

namespace Sys2Proof.Machine

/-- A body that ends by clearing the material and setting a bank leaves no material, whatever it sets the bank to. -/
theorem material_cleared_of_bind {α : Type} {r : Run α} {b : BankId} {k : α → State → Bank} {t : State}
    (h : (r.bind fun x u => .ok () (u.clearMaterial.setBank b (k x u))) = .ok () t) : t.mbuf = [] ∧ t.mlen = 0 := by
  obtain ⟨x, u, -, h⟩ := bind_eq_ok h
  cases h
  exact ⟨setBank_mbuf _ _ _, setBank_mlen _ _ _⟩

/-- A key command whose body ends leaves no material (R149, R150). -/
theorem bodyOf_keyCommand_clears {hex : Bool} {b : BankId} {s t : State} {i : Instr}
    (hi : i = .genSched hex b ∨ i = .nonceDerive hex b) (h : bodyOf i s = .ok () t) : t.mbuf = [] ∧ t.mlen = 0 := by
  rcases hi with rfl | rfl
  · exact material_cleared_of_bind (r := scheduleFromMaterial hex b (s.invalidate b)) h
  · exact material_cleared_of_bind (r := scheduleFromMaterial hex b s) h

/-- Settles O18: the body's end clears the material, and after a `raise` the fault entry does (R303). -/
theorem keyMaterialIsErasedAfterUse : Obligations.KeyMaterialIsErasedAfterUse := by
  intro hex b s i hi
  rcases exec_cases i s with ⟨t, hb, ht⟩ | ⟨e, t, -, ht⟩
  · obtain ⟨mbuf, mlen⟩ := bodyOf_keyCommand_clears hi hb
    exact ⟨t, ht, mlen, fun a => by rw [mbuf, Memory.read]⟩
  · exact ⟨faultEntry e (encode i) t, ht, rfl, fun _ => rfl⟩

end Sys2Proof.Machine
end

section
/-!
Steps and resets (R340 to R346): a step takes the host's next event, every reset gives the reset state, and one in the middle of
a command leaves the ports after a first part of the command's traffic.
-/

namespace Sys2Proof.Machine

/-! ### The next host event (R346) -/

theorem step_of_no_event {s : State} (h : s.host = []) : step s = .next s := by simp only [step, hostStep, h]

theorem step_of_event {s : State} {e : HostEvent} {rest : List HostEvent} (h : s.host = e :: rest) :
    step s = hostEvent e { s with host := rest } := by simp only [step, hostStep, h]

/-- A 32-bit word is placed as it is (R90). -/
theorem withFetchWord_toNat (s : State) (w : Word) : s.withFetchWord 32 w.toNat = withCommand s w := by
  rw [State.withFetchWord, Nat.mod_eq_of_lt w.isLt, BitVec.ofNat_toNat, BitVec.setWidth_eq]

/-- A placed command word is the next one performed (R34), and the host's other events stay. -/
theorem step_withCommand (s : State) (w : Word) : step (withCommand s w) = execute w s :=
  (step_of_event (s := withCommand s w) rfl).trans (hostWrite_cmd w s)

/-- Settles O6: the event is the head of the host's list, and `withFetchWord` puts a write to `CMD` there. -/
theorem stepTakesTheNextHostEvent : Obligations.StepTakesTheNextHostEvent :=
  ⟨fun _ _ _ => step_of_event, fun _ => step_of_no_event, fun s w => by rw [withFetchWord_toNat, step_withCommand]⟩

/-! ### The reset state (R38, R342) -/

theorem resetEngine_sameEngine (s : State) : (resetEngine s).sameEngine State.reset :=
  ⟨rfl, rfl, rfl, rfl, rfl, rfl, rfl, rfl⟩

/-- Settles O57: each of the three is `resetEngine`. -/
theorem resetsGiveTheResetState : Obligations.ResetsGiveTheResetState :=
  fun s => ⟨resetEngine s, rfl, rfl, execute_sresetWord s, resetEngine_sameEngine s, rfl, rfl, rfl⟩

/-! ### A reset in the middle of a command (R341) -/

/-- Everything a command word can do (R107): nothing in the fault state, the command it names, or the fault entry. -/
theorem execute_cases (c : Word) (s : State) :
    (s.fault = true ∧ c ≠ sresetWord ∧ execute c s = .next s) ∨
    (∃ i, decode c = .ok i ∧ execute c s = exec i s) ∨
    ((∀ i, decode c ≠ .ok i) ∧ execute c s = .next (faultEntry .illegalCmd c s)) := by
  by_cases blocked : s.fault = true ∧ c ≠ sresetWord
  · exact .inl ⟨blocked.1, blocked.2, by rw [execute, if_pos blocked]⟩
  · cases hd : decode c with
    | ok i => exact .inr (.inl ⟨i, rfl, by simp only [execute, if_neg blocked, hd]⟩)
    | error e => exact .inr (.inr ⟨nofun, by simp only [execute, if_neg blocked, hd]⟩)

/-- A command gives a next state, and its ports are reached by traffic (R69, R70). -/
theorem exec_runs (i : Instr) (s : State) : ∃ u, exec i s = .next u ∧ s.ports.Runs u.ports := by
  obtain ⟨evs, ports, -⟩ := traffic_bodyOf i s
  rcases exec_cases i s with ⟨u, -, hu⟩ | ⟨e, u, -, hu⟩ <;> exact ⟨_, hu, evs, (exec_ports hu).trans ports⟩

/-- Every command word gives a next state, legal or not and in the fault state too, and its ports are reached by traffic. -/
theorem execute_runs (c : Word) (s : State) : ∃ u, execute c s = .next u ∧ s.ports.Runs u.ports := by
  rcases execute_cases c s with ⟨-, -, h⟩ | ⟨i, -, h⟩ | ⟨-, h⟩
  · exact ⟨s, h, .refl _⟩
  · rw [h]
    exact exec_runs i s
  · exact ⟨_, h, .refl _⟩

/-- The reset after `k` port operations: what the command added to the record is its traffic, and the first `k` of it happen. -/
theorem abandon_of_execute {c : Word} {s u : State} {evs : List PortEvent} (k : Nat) (h : execute c s = .next u)
    (hu : u.ports = evs.foldl Ports.happen s.ports) :
    abandon c k s = .next ((resetEngine s).setPorts ((evs.take k).foldl Ports.happen s.ports)) := by
  simp only [abandon, h, hu, trace_foldl, List.drop_left]

/-- Settles O58: the command's ports are reached by its traffic, so a first part of the traffic is a first part of the record. -/
theorem resetDuringACommand : Obligations.ResetDuringACommand := by
  intro c k s
  obtain ⟨u, hu, evs, ports⟩ := execute_runs c s
  refine ⟨_, u, evs, hu, abandon_of_execute k hu ports, resetEngine_sameEngine s, rfl, rfl, ?_, ?_, ?_, ?_⟩
  · rw [ports, trace_foldl]
  · rw [setPorts_ports, trace_foldl]
  · rintro rfl
    rfl
  · intro all
    rw [setPorts_ports, List.take_of_length_le all, ports]

end Sys2Proof.Machine
end
